-- ==== Sys2Proof/Word.lean ====
section
/-! DEFINITION. The words of the block: 32-bit register words, 8-bit addresses, 41-bit transaction words
(00_scope.md R6, R11; 20_memory.md R51; 30_encoding.md R71). -/

namespace Sys2Proof

/-- A 32-bit register word. A binary32 value is carried as its encoding (00_scope.md R6, 20_memory.md R53). -/
abbrev Word := BitVec 32

/-- A byte address on the host port (20_memory.md R51). -/
abbrev Addr := BitVec 8

/-- A transaction word: W in bit 40, ADDR in bits 39:32, DATA in bits 31:0 (30_encoding.md R71). -/
abbrev TWord := BitVec 41

end Sys2Proof
end

