-- ==== Sys2Proof/Config.lean ====
section
/-! DEFINITION. What an implementation fixes and the free values: the parameters of 00_scope.md R10 that belong to
the block (the three elementary functions, the choice of a NaN result), each an opaque constant without a body, and
the types of the host-side parameters. The named constants of 00_scope.md R9 are in Machine/Constants.lean. -/

namespace Sys2Proof

/-- The binary32 operations that can produce a NaN (00_scope.md R7, R8). -/
inductive FpOp where
  | add | sub | mul | div | sqrt
deriving DecidableEq, Repr

/-- The occasion on which a NaN is chosen: `some n` is the n-th command that computes with the datapath, `none` is a
register read or a setter. A read's choice depends on its operands alone, since a read is a function of the state
(20_memory.md R57, 10_state.md R21). DEDUCED, notes/assumptions/5.md. -/
abbrev Draw := Option Nat

/-- FREE VALUE. The NaN that an operation answers with on given operands, before it is forced to be a NaN
(`Machine.someNaN`): 00_scope.md R7, 93_implementation_defined.md I-1, notes/assumptions/5.md. -/
opaque Config.nanFree : Draw → FpOp → Word → Word → Word

/-- FREE VALUE. SIN_F32 before it is forced into the properties of 00_scope.md R8 (`Machine.sinF32`). -/
opaque Config.sinRaw : Word → Word

/-- FREE VALUE. TANH_F32 before it is forced into the properties of 00_scope.md R8 (`Machine.tanhF32`). -/
opaque Config.tanhRaw : Word → Word

/-- FREE VALUE. EXP_F32 before it is forced into the properties of 00_scope.md R8 (`Machine.expF32`). -/
opaque Config.expRaw : Word → Word

/-- HOST_MULTICHANNEL (44_host_sequences.md R202): what the host does with a buffer of more than two channels. -/
inductive HostMultichannel where
  | refuse | stereoFirstTwo
deriving DecidableEq, Repr

/-- HOST_FEATURE_SOURCE (44_host_sequences.md R203): whether a frame's input or its output is pushed. -/
inductive HostFeatureSource where
  | input | output
deriving DecidableEq, Repr

end Sys2Proof
end

