-- ==== Sys2Proof/Syntax.lean ====
section
/-! DEFINITION. The operations of the block (30_encoding.md R80, one constructor for each row of the opcode table),
the registers of its map (10_state.md R37), a transaction's three fields (30_encoding.md R71), the responses
(60_exceptions.md R221) and the assembler's lines (30_encoding.md R81, R82). -/

namespace Sys2Proof

/-- The four waveform shapes (10_state.md R27, 30_encoding.md R78). -/
inductive Shape where
  | sine | triangle | square | squareSoft
deriving DecidableEq, Repr

/-- The operations of 30_encoding.md R80. An operand that the encoding carries is an argument; DATA bits that the
encoding ignores (all of DATA on a read, DATA[31:2] on a SHAPE write) are not part of the operation. -/
inductive Instr where
  | rdId
  | rdStatus
  | cmdNop
  | cmdProcessMono
  | cmdProcessStereo
  | cmdFeatPush
  | cmdFeatReset
  | rdFeatCount
  | rdSampleRate
  | wrSampleRate (v : Word)
  | rdRate
  | wrRate (v : Word)
  | rdDepth
  | wrDepth (v : Word)
  | rdWet
  | wrWet (v : Word)
  | wrStereoDeg (v : Word)
  | rdStereoOfs
  | rdShape
  | wrShape (sh : Shape)
  | rdPhase
  | rdRateSm
  | rdDepthSm
  | rdSmoothCoef
  | rdDataL
  | wrDataL (v : Word)
  | rdDataR
  | wrDataR (v : Word)
  | rdRms
  | rdZcr
deriving DecidableEq, Repr

/-- The registers of the map of 10_state.md R37. -/
inductive Reg where
  | id | status | cmd | featCount | sampleRate | rate | depth | wet | stereoDeg | stereoOfs | shape | phase
  | rateSm | depthSm | smoothCoef | dataL | dataR | rms | zcr
deriving DecidableEq, Repr

/-- Access types (10_state.md R37). -/
inductive Access where
  | rw | ro | wo
deriving DecidableEq, Repr

/-- The command codes' names (30_encoding.md R77). -/
inductive CmdOp where
  | nop | processMono | processStereo | featPush | featReset
deriving DecidableEq, Repr

/-- The three fields of a transaction word (30_encoding.md R71). -/
structure Transaction where
  write : Bool
  addr : Addr
  data : Word
deriving DecidableEq, Repr

/-- The causes of an error response (60_exceptions.md R222 to R224). -/
inductive PortError where
  | unmapped | access | cmd
deriving DecidableEq, Repr

/-- The responses of the port (60_exceptions.md R221). -/
inductive Resp where
  | okay | errUnmapped | errAccess | errCmd
deriving DecidableEq, Repr

/-- A value of an assembler line (30_encoding.md R82): a hex pattern, the binary32 nearest to a decimal number (given
as a fraction num/den), an infinity, f32(NaN), or a bare integer. -/
inductive AsmValue where
  | pattern (w : Word)
  | decimal (negative : Bool) (num den : Nat)
  | inf (negative : Bool)
  | nan
  | integer (n : Nat)
deriving DecidableEq, Repr

/-- A line of the assembler (30_encoding.md R81). -/
inductive AsmLine where
  | rd (r : Reg)
  | wr (r : Reg) (v : AsmValue)
  | cmd (op : CmdOp)
  | rdAt (a : Addr)
  | wrAt (a : Addr) (v : AsmValue)
deriving DecidableEq, Repr

end Sys2Proof
end

