-- ==== Sys2Proof/WellFormed.lean ====
section
/-! DEFINITION. Which transactions name an operation, stated from the table of 30_encoding.md R79 (one check for each
of its five classes), apart from the decoding procedure of R76. Every term of `Instr` is well formed: its operands are
exactly the fields the encodings admit (R73, R74), so the checks stand on the transaction. -/

namespace Sys2Proof

/-- Not misaligned: ADDR[1:0] = 0 (R79, 20_memory.md R55). -/
def Transaction.aligned (t : Transaction) : Bool :=
  t.addr.toNat % 4 == 0

/-- Not unmapped: neither 0x3C nor 0x50 to 0xFC (R79, 20_memory.md R59). -/
def Transaction.mapped (t : Transaction) : Bool :=
  !(t.addr == 0x3C#8) && t.addr.toNat < 0x50

/-- Not a write to a read-only register (R79). -/
def Transaction.writable (t : Transaction) : Bool :=
  !(t.write && [0x00#8, 0x04#8, 0x0C#8, 0x24#8, 0x2C#8, 0x30#8, 0x34#8, 0x38#8, 0x48#8, 0x4C#8].contains t.addr)

/-- Not a read of a write-only register (R79). -/
def Transaction.readable (t : Transaction) : Bool :=
  !(!t.write && [0x08#8, 0x20#8].contains t.addr)

/-- Not a reserved command: a write to CMD has DATA[31:4] = 0 and DATA[3:0] at most 4 (R72, R79). -/
def Transaction.commandDefined (t : Transaction) : Bool :=
  !(t.write && t.addr == 0x08#8) || t.data.toNat ≤ 4

/-- The transaction names an operation (R79). -/
def Transaction.wf (t : Transaction) : Bool :=
  t.aligned && t.mapped && t.writable && t.readable && t.commandDefined

end Sys2Proof
end

