-- ==== Sys2Proof/Decode.lean ====
section
/-! DEFINITION. Decoding of transaction words (30_encoding.md R71 to R80), total, with the priority of the error causes
that R76 fixes, and after it the encoder from the same map. -/

namespace Sys2Proof

/-! ## The register map (10_state.md R37) -/

/-- The byte address of a register (10_state.md R37). -/
def Reg.addr : Reg → Addr
  | .id => 0x00#8
  | .status => 0x04#8
  | .cmd => 0x08#8
  | .featCount => 0x0C#8
  | .sampleRate => 0x10#8
  | .rate => 0x14#8
  | .depth => 0x18#8
  | .wet => 0x1C#8
  | .stereoDeg => 0x20#8
  | .stereoOfs => 0x24#8
  | .shape => 0x28#8
  | .phase => 0x2C#8
  | .rateSm => 0x30#8
  | .depthSm => 0x34#8
  | .smoothCoef => 0x38#8
  | .dataL => 0x40#8
  | .dataR => 0x44#8
  | .rms => 0x48#8
  | .zcr => 0x4C#8

/-- The access type of a register (10_state.md R37). -/
def Reg.access : Reg → Access
  | .id => .ro
  | .status => .ro
  | .cmd => .wo
  | .featCount => .ro
  | .sampleRate => .rw
  | .rate => .rw
  | .depth => .rw
  | .wet => .rw
  | .stereoDeg => .wo
  | .stereoOfs => .ro
  | .shape => .rw
  | .phase => .ro
  | .rateSm => .ro
  | .depthSm => .ro
  | .smoothCoef => .ro
  | .dataL => .rw
  | .dataR => .rw
  | .rms => .ro
  | .zcr => .ro

/-- Every register of the map. -/
def Reg.all : List Reg :=
  [.id, .status, .cmd, .featCount, .sampleRate, .rate, .depth, .wet, .stereoDeg, .stereoOfs] ++
  [.shape, .phase, .rateSm, .depthSm, .smoothCoef, .dataL, .dataR, .rms, .zcr]

/-- The register at an address, if there is one (10_state.md R37, 20_memory.md R59). -/
def regAt (a : Addr) : Option Reg :=
  Reg.all.find? fun r => r.addr == a

/-! ## Fields and codes -/

/-- The three fields of a transaction word (R71). -/
def TWord.fields (t : TWord) : Transaction :=
  { write := t.getLsbD 40, addr := t.extractLsb' 32 8, data := t.extractLsb' 0 32 }

/-- The transaction word of three fields (R71). -/
def Transaction.word (t : Transaction) : TWord :=
  (BitVec.ofBool t.write ++ t.addr ++ t.data : BitVec (1 + 8 + 32))

/-- The 2-bit code of a shape (R78). -/
def Shape.code : Shape → BitVec 2
  | .sine => 0#2
  | .triangle => 1#2
  | .square => 2#2
  | .squareSoft => 3#2

/-- The shape that DATA[1:0] selects; DATA[31:2] is ignored (R73, R78). -/
def shapeOfData (d : Word) : Shape :=
  if d.toNat % 4 = 0 then .sine
  else if d.toNat % 4 = 1 then .triangle
  else if d.toNat % 4 = 2 then .square
  else .squareSoft

/-- The code of a command (R77). -/
def CmdOp.code : CmdOp → Word
  | .nop => 0#32
  | .processMono => 1#32
  | .processStereo => 2#32
  | .featPush => 3#32
  | .featReset => 4#32

/-- The response of an error cause (60_exceptions.md R222 to R224). -/
def PortError.resp : PortError → Resp
  | .unmapped => .errUnmapped
  | .access => .errAccess
  | .cmd => .errCmd

/-- The 2-bit encoding of a response (60_exceptions.md R221). -/
def Resp.code : Resp → BitVec 2
  | .okay => 0#2
  | .errUnmapped => 1#2
  | .errAccess => 2#2
  | .errCmd => 3#2

/-! ## Decoding (R76) -/

/-- What a transaction word decodes to: exactly one operation or exactly one error response (R76). -/
inductive Decoded where
  | op (i : Instr)
  | err (e : PortError)
deriving DecidableEq, Repr

/-- RD_<R>: the read of a register; DATA is ignored (R76, R80). -/
def readOp : Reg → Decoded
  | .id => .op .rdId
  | .status => .op .rdStatus
  | .cmd => .err .access
  | .featCount => .op .rdFeatCount
  | .sampleRate => .op .rdSampleRate
  | .rate => .op .rdRate
  | .depth => .op .rdDepth
  | .wet => .op .rdWet
  | .stereoDeg => .err .access
  | .stereoOfs => .op .rdStereoOfs
  | .shape => .op .rdShape
  | .phase => .op .rdPhase
  | .rateSm => .op .rdRateSm
  | .depthSm => .op .rdDepthSm
  | .smoothCoef => .op .rdSmoothCoef
  | .dataL => .op .rdDataL
  | .dataR => .op .rdDataR
  | .rms => .op .rdRms
  | .zcr => .op .rdZcr

/-- CMD_<OP>: DATA[31:4] must be 0 and DATA[3:0] at most 4 (R72, R76, R77). -/
def commandOp (d : Word) : Decoded :=
  if d.toNat / 16 ≠ 0 ∨ 4 < d.toNat % 16 then .err .cmd
  else if d.toNat % 16 = 0 then .op .cmdNop
  else if d.toNat % 16 = 1 then .op .cmdProcessMono
  else if d.toNat % 16 = 2 then .op .cmdProcessStereo
  else if d.toNat % 16 = 3 then .op .cmdFeatPush
  else .op .cmdFeatReset

/-- WR_<R>(D), and CMD_<OP> for a write to CMD (R76, R80). -/
def writeOp (r : Reg) (d : Word) : Decoded :=
  match r with
  | .id => .err .access
  | .status => .err .access
  | .cmd => commandOp d
  | .featCount => .err .access
  | .sampleRate => .op (.wrSampleRate d)
  | .rate => .op (.wrRate d)
  | .depth => .op (.wrDepth d)
  | .wet => .op (.wrWet d)
  | .stereoDeg => .op (.wrStereoDeg d)
  | .stereoOfs => .err .access
  | .shape => .op (.wrShape (shapeOfData d))
  | .phase => .err .access
  | .rateSm => .err .access
  | .depthSm => .err .access
  | .smoothCoef => .err .access
  | .dataL => .op (.wrDataL d)
  | .dataR => .op (.wrDataR d)
  | .rms => .err .access
  | .zcr => .err .access

/-- The decoding procedure of R76, test by test. -/
def decodeTransaction (t : Transaction) : Decoded :=
  if t.addr.toNat % 4 ≠ 0 then .err .unmapped
  else
    match regAt t.addr with
    | none => .err .unmapped
    | some r =>
      if t.write && r.access == .ro then .err .access
      else if !t.write && r.access == .wo then .err .access
      else if t.write then writeOp r t.data
      else readOp r

/-- Decoding of a 41-bit transaction word (R76). -/
def decode (t : TWord) : Decoded :=
  decodeTransaction t.fields

/-! ## Encoding (R80) -/

/-- The transaction that performs an operation; DATA bits that are ignored are written as 0 (R71, R80). -/
def Instr.transaction : Instr → Transaction
  | .rdId => ⟨false, 0x00#8, 0#32⟩
  | .rdStatus => ⟨false, 0x04#8, 0#32⟩
  | .cmdNop => ⟨true, 0x08#8, 0#32⟩
  | .cmdProcessMono => ⟨true, 0x08#8, 1#32⟩
  | .cmdProcessStereo => ⟨true, 0x08#8, 2#32⟩
  | .cmdFeatPush => ⟨true, 0x08#8, 3#32⟩
  | .cmdFeatReset => ⟨true, 0x08#8, 4#32⟩
  | .rdFeatCount => ⟨false, 0x0C#8, 0#32⟩
  | .rdSampleRate => ⟨false, 0x10#8, 0#32⟩
  | .wrSampleRate v => ⟨true, 0x10#8, v⟩
  | .rdRate => ⟨false, 0x14#8, 0#32⟩
  | .wrRate v => ⟨true, 0x14#8, v⟩
  | .rdDepth => ⟨false, 0x18#8, 0#32⟩
  | .wrDepth v => ⟨true, 0x18#8, v⟩
  | .rdWet => ⟨false, 0x1C#8, 0#32⟩
  | .wrWet v => ⟨true, 0x1C#8, v⟩
  | .wrStereoDeg v => ⟨true, 0x20#8, v⟩
  | .rdStereoOfs => ⟨false, 0x24#8, 0#32⟩
  | .rdShape => ⟨false, 0x28#8, 0#32⟩
  | .wrShape sh => ⟨true, 0x28#8, sh.code.setWidth 32⟩
  | .rdPhase => ⟨false, 0x2C#8, 0#32⟩
  | .rdRateSm => ⟨false, 0x30#8, 0#32⟩
  | .rdDepthSm => ⟨false, 0x34#8, 0#32⟩
  | .rdSmoothCoef => ⟨false, 0x38#8, 0#32⟩
  | .rdDataL => ⟨false, 0x40#8, 0#32⟩
  | .wrDataL v => ⟨true, 0x40#8, v⟩
  | .rdDataR => ⟨false, 0x44#8, 0#32⟩
  | .wrDataR v => ⟨true, 0x44#8, v⟩
  | .rdRms => ⟨false, 0x48#8, 0#32⟩
  | .rdZcr => ⟨false, 0x4C#8, 0#32⟩

/-- The transaction word of an operation (R80). -/
def encode (i : Instr) : TWord :=
  i.transaction.word

/-- The bits of DATA that an operation's encoding fixes or takes as its operand (R80): none on a read, DATA[1:0] on a
SHAPE write, all of DATA on every other write and on a command. -/
def Instr.dataMask : Instr → Word
  | .rdId => 0#32
  | .rdStatus => 0#32
  | .cmdNop => 0xFFFFFFFF#32
  | .cmdProcessMono => 0xFFFFFFFF#32
  | .cmdProcessStereo => 0xFFFFFFFF#32
  | .cmdFeatPush => 0xFFFFFFFF#32
  | .cmdFeatReset => 0xFFFFFFFF#32
  | .rdFeatCount => 0#32
  | .rdSampleRate => 0#32
  | .wrSampleRate _ => 0xFFFFFFFF#32
  | .rdRate => 0#32
  | .wrRate _ => 0xFFFFFFFF#32
  | .rdDepth => 0#32
  | .wrDepth _ => 0xFFFFFFFF#32
  | .rdWet => 0#32
  | .wrWet _ => 0xFFFFFFFF#32
  | .wrStereoDeg _ => 0xFFFFFFFF#32
  | .rdStereoOfs => 0#32
  | .rdShape => 0#32
  | .wrShape _ => 3#32
  | .rdPhase => 0#32
  | .rdRateSm => 0#32
  | .rdDepthSm => 0#32
  | .rdSmoothCoef => 0#32
  | .rdDataL => 0#32
  | .wrDataL _ => 0xFFFFFFFF#32
  | .rdDataR => 0#32
  | .wrDataR _ => 0xFFFFFFFF#32
  | .rdRms => 0#32
  | .rdZcr => 0#32

/-- The bits of a transaction word that decoding to an operation depends on (R80): W, ADDR and `dataMask`. -/
def Instr.careMask (i : Instr) : TWord :=
  ({ write := true, addr := 0xFF#8, data := i.dataMask } : Transaction).word

/-! ## The host's numbering of a row's bits -/

/-- The operation that the decoder reads from the word `w` of `nbits` bits (the row's 41 bits in whole bytes): bit i of
`w` is bit i of the transaction word. A number with a bit above bit 40 set is no transaction word.
notes/assumptions/11.md. -/
def decodeTableWord (nbits w : Nat) : Option Instr :=
  if w % 2 ^ nbits < 2 ^ 41 then
    match decode (BitVec.ofNat 41 (w % 2 ^ nbits)) with
    | .op i => some i
    | .err _ => none
  else none

/-! ## The assembler (R81) -/

/-- The address and the access of a line's register, and its transaction word, given the value's pattern. -/
def AsmLine.transaction (pattern : AsmValue → Word) : AsmLine → Transaction
  | .rd r => ⟨false, r.addr, 0#32⟩
  | .wr r v => ⟨true, r.addr, pattern v⟩
  | .cmd op => ⟨true, Reg.cmd.addr, op.code⟩
  | .rdAt a => ⟨false, a, 0#32⟩
  | .wrAt a v => ⟨true, a, pattern v⟩

end Sys2Proof
end

