-- ==== Sys2Proof/Machine/Constants.lean ====
section
/-! DEFINITION. The named constants of 00_scope.md R9 with the encodings its table gives, the literals of the rules,
and ID (10_state.md R33). -/

namespace Sys2Proof.Machine

/-- Window capacity (R9). -/
def N : Nat := 1024

/-- 48000.0 (R9). -/
def FS_DEFAULT : Word := 0x473B8000#32

/-- f32(0.01) (R9). -/
def TAU : Word := 0x3C23D70A#32

/-- f32(1e-6) (R9). -/
def TAU_MIN : Word := 0x358637BD#32

/-- f32(1e-20) (R9). -/
def EPS_SMOOTH : Word := 0x1E3CE508#32

/-- f32(1e-20) (R9). -/
def EPS_MIX : Word := 0x1E3CE508#32

/-- f32(0.001) (R9). -/
def RATE_MIN : Word := 0x3A83126F#32

/-- 2^-24 (R9). -/
def INC_MIN : Word := 0x33800000#32

/-- f32(2π) (R9). -/
def TWO_PI_F32 : Word := 0x40C90FDB#32

/-- 180.0 (R9). -/
def DEG_MAX : Word := 0x43340000#32

/-- 360.0 (R9). -/
def DEG_PER_CYCLE : Word := 0x43B40000#32

/-- +0.0. -/
def F_ZERO : Word := 0x00000000#32

/-- 0.5 (R9). -/
def F_HALF : Word := 0x3F000000#32

/-- 1.0 (R9). -/
def F_ONE : Word := 0x3F800000#32

/-- -1.0 (R9). -/
def F_NEG_ONE : Word := 0xBF800000#32

/-- 3.0 (R9). -/
def F_THREE : Word := 0x40400000#32

/-- 4.0 (R9). -/
def F_FOUR : Word := 0x40800000#32

/-- The reset rate 5.0 (10_state.md R37). -/
def RATE_RESET : Word := 0x40A00000#32

/-- The identification constant (10_state.md R33). -/
def ID_VALUE : Word := 0x54520100#32

end Sys2Proof.Machine
end

