-- ==== Sys2Proof/Machine/Float.lean ====
section
/-! DEFINITION. IEEE-754 binary32 on encodings (00_scope.md R6, R7, R8, R13, R15): one rounding an operation, to nearest,
ties to even; subnormals kept; a NaN result is some NaN, a free value.

Every finite binary32 value is a whole number of units of 2^-149. The exact result of an operation is formed as a
fraction of that unit over Nat or Int and rounded once by `roundMag`. An operation's `Core` answers `none` where IEEE-754
gives a NaN; the operation then takes the free NaN. -/

namespace Sys2Proof.Machine

/-! ## Encoding (R6) -/

/-- The sign bit, bit 31. -/
def fSign (w : Word) : Bool :=
  decide (2 ^ 31 ≤ w.toNat)

/-- Bits 30:0: exponent and fraction. -/
def fCode (w : Word) : Nat :=
  w.toNat % 2 ^ 31

/-- The biased exponent, bits 30:23. -/
def fExp (w : Word) : Nat :=
  fCode w / 2 ^ 23

/-- The fraction, bits 22:0. -/
def fFrac (w : Word) : Nat :=
  fCode w % 2 ^ 23

/-- Exponent 255 and a fraction that is not 0. -/
def fIsNaN (w : Word) : Bool :=
  fExp w == 255 && fFrac w != 0

/-- Exponent 255 and fraction 0. -/
def fIsInf (w : Word) : Bool :=
  fExp w == 255 && fFrac w == 0

/-- Exponent below 255. -/
def fIsFinite (w : Word) : Bool :=
  fExp w != 255

/-- A zero of either sign. -/
def fIsZero (w : Word) : Bool :=
  fCode w == 0

/-- The encoding of infinity without its sign. -/
def INF_CODE : Nat := 0x7F800000

/-- +inf or -inf. -/
def fInf (neg : Bool) : Word :=
  BitVec.ofNat 32 ((if neg then 2 ^ 31 else 0) + INF_CODE)

/-- A quiet NaN encoding, used only to force a free value to be a NaN. -/
def F_NAN : Word := 0x7FC00000#32

/-- The magnitude that bits 30:0 encode, in units of 2^-149: subnormals have exponent 0 and no hidden bit. On the code of
infinity it is 2^277, above every finite magnitude, so that order comparisons need no case for it. -/
def codeMag (c : Nat) : Nat :=
  if c / 2 ^ 23 = 0 then c else (2 ^ 23 + c % 2 ^ 23) * 2 ^ (c / 2 ^ 23 - 1)

/-- |w| in units of 2^-149. -/
def fMag (w : Word) : Nat :=
  codeMag (fCode w)

/-- The signed value in units of 2^-149; both zeros give 0. -/
def fVal (w : Word) : Int :=
  if fSign w then -(fMag w : Int) else (fMag w : Int)

/-- The encoding of a sign and bits 30:0, at most infinity. -/
def fPack (neg : Bool) (c : Nat) : Word :=
  BitVec.ofNat 32 ((if neg then 2 ^ 31 else 0) + min c INF_CODE)

/-- The opposite sign. -/
def fNeg (w : Word) : Word :=
  BitVec.ofNat 32 ((if fSign w then 0 else 2 ^ 31) + fCode w)

/-! ## Rounding (R7) -/

/-- n / d rounded to the nearest whole number, ties to even. -/
def roundHalfEven (n d : Nat) : Nat :=
  if 2 * (n % d) < d then n / d
  else if d < 2 * (n % d) then n / d + 1
  else n / d + n / d % 2

/-- The encoding (exponent and fraction) of n / d units, rounded to a significand of `p` bits, to nearest, ties to even.
Below 2^p units the result is that whole number of units (the subnormals and the lowest binade share one spacing);
above, `s` low bits are rounded away, and the code is `s` binades of 2^(p-1) codes plus the significand, so a significand
that rounds up to 2^p carries into the exponent. The result may exceed the code of infinity; `fPack` caps it. -/
def roundMag (p n d : Nat) : Nat :=
  (Nat.log2 (n / d) + 1 - p) * 2 ^ (p - 1) + roundHalfEven n (d * 2 ^ (Nat.log2 (n / d) + 1 - p))

/-- The binary32 value of a whole number of units, with the sign of an exact zero given. -/
def fOfInt (zeroNeg : Bool) (v : Int) : Word :=
  if v = 0 then fPack zeroNeg 0 else fPack (decide (v < 0)) (roundMag 24 v.natAbs 1)

/-! ## NaN results (R7, I-1) -/

/-- A free word made a NaN; every NaN is reached. -/
def someNaN (w : Word) : Word :=
  if fIsNaN w then w else F_NAN

/-- The NaN an operation answers with on an occasion. -/
def nanResult (k : Draw) (op : FpOp) (a b : Word) : Word :=
  someNaN (Config.nanFree k op a b)

/-! ## The operations (R7) -/

/-- Addition: inf - inf gives a NaN; an exact zero sum is +0 unless both operands are -0. -/
def fAddCore (a b : Word) : Option Word :=
  if fIsNaN a || fIsNaN b then none
  else if fIsInf a then (if fIsInf b && fSign a != fSign b then none else some a)
  else if fIsInf b then some b
  else some (fOfInt (fSign a && fSign b) (fVal a + fVal b))

/-- Multiplication: 0 * inf gives a NaN; the sign of the result is the exclusive or of the signs. -/
def fMulCore (a b : Word) : Option Word :=
  if fIsNaN a || fIsNaN b then none
  else if fIsInf a || fIsInf b then
    (if fIsZero a || fIsZero b then none else some (fInf (fSign a != fSign b)))
  else some (fPack (fSign a != fSign b) (roundMag 24 (fMag a * fMag b) (2 ^ 149)))

/-- Division: 0 / 0 and inf / inf give a NaN, a number over 0 an infinity, a finite number over inf a zero. -/
def fDivCore (a b : Word) : Option Word :=
  if fIsNaN a || fIsNaN b then none
  else if fIsInf a then (if fIsInf b then none else some (fInf (fSign a != fSign b)))
  else if fIsInf b then some (fPack (fSign a != fSign b) 0)
  else if fIsZero b then (if fIsZero a then none else some (fInf (fSign a != fSign b)))
  else some (fPack (fSign a != fSign b) (roundMag 24 (fMag a * 2 ^ 149) (fMag b)))

/-- The largest r + (k bits) whose square is at most n, bit by bit from bit k-1. -/
def isqrtFrom (n : Nat) : Nat → Nat → Nat
  | 0, r => r
  | k + 1, r => if (r + 2 ^ k) * (r + 2 ^ k) ≤ n then isqrtFrom n k (r + 2 ^ k) else isqrtFrom n k r

/-- The integer square root of a number below 2^428, as every finite magnitude times 2^149 is. -/
def isqrt (n : Nat) : Nat :=
  isqrtFrom n 214 0

/-- Square root (R8): correctly rounded. The root of a finite value is the root of `mag * 2^149` units; it has at least
75 bits, so its whole part and one bit that says whether it is exact decide the rounding. -/
def fSqrtCore (a : Word) : Option Word :=
  if fIsNaN a then none
  else if fIsZero a then some a
  else if fSign a then none
  else if fIsInf a then some a
  else
    some (fPack false (roundMag 24
      (2 * isqrt (fMag a * 2 ^ 149) +
        if isqrt (fMag a * 2 ^ 149) * isqrt (fMag a * 2 ^ 149) = fMag a * 2 ^ 149 then 0 else 1) 2))

/-- a + b. -/
def fAdd (k : Draw) (a b : Word) : Word :=
  (fAddCore a b).getD (nanResult k .add a b)

/-- a - b, the sum of a and the opposite of b. -/
def fSub (k : Draw) (a b : Word) : Word :=
  (fAddCore a (fNeg b)).getD (nanResult k .sub a b)

/-- a * b. -/
def fMul (k : Draw) (a b : Word) : Word :=
  (fMulCore a b).getD (nanResult k .mul a b)

/-- a / b. -/
def fDiv (k : Draw) (a b : Word) : Word :=
  (fDivCore a b).getD (nanResult k .div a b)

/-- SQRT_F32 a (R8). -/
def fSqrt (k : Draw) (a : Word) : Word :=
  (fSqrtCore a).getD (nanResult k .sqrt a F_ZERO)

/-! ## Comparisons (R13) -/

/-- a < b: false when either is a NaN; -0 and +0 are equal. -/
def fLt (a b : Word) : Bool :=
  !fIsNaN a && !fIsNaN b && decide (fVal a < fVal b)

/-- a <= b. -/
def fLe (a b : Word) : Bool :=
  !fIsNaN a && !fIsNaN b && decide (fVal a ≤ fVal b)

/-- a > b. -/
def fGt (a b : Word) : Bool :=
  fLt b a

/-- a >= b. -/
def fGe (a b : Word) : Bool :=
  fLe b a

/-- a == b. -/
def fEq (a b : Word) : Bool :=
  !fIsNaN a && !fIsNaN b && decide (fVal a = fVal b)

/-! ## Conversions and the wrap -/

/-- The binary32 value nearest to num/den, ties to even (R9's f32(x), 30_encoding.md R82). -/
def fOfRat (neg : Bool) (num den : Nat) : Word :=
  fPack neg (roundMag 24 (num * 2 ^ 149) den)

/-- f32(n) of an integer (R13): exact up to 2^24. -/
def fOfNat (n : Nat) : Word :=
  fOfRat false n 1

/-- frac(x) (R15): x - floor(x) for finite x, a zero result being +0.0; +0.0 otherwise. For x >= 0 the difference is
exact; below 0, where no rule applies it, the difference is rounded (DESIGN CHOICE, notes/assumptions/9.md). -/
def frac (x : Word) : Word :=
  if fIsFinite x then fPack false (roundMag 24 (fVal x % 2 ^ 149).toNat 1) else F_ZERO

end Sys2Proof.Machine
end

