-- ==== Sys2Proof/Machine/Elementary.lean ====
section
/-! DEFINITION. SIN_F32, TANH_F32, EXP_F32 (00_scope.md R8): free functions of their argument, forced into exactly the
properties R8 gives. Every function that has the properties is reached by a choice of the free function, and no
other. -/

namespace Sys2Proof.Machine

/-- A free value kept where lo <= v <= hi, else +0.0, which lies in each range R8 names. -/
def keepIn (lo hi v : Word) : Word :=
  if fLe lo v && fLe v hi then v else F_ZERO

/-- SIN_F32 (R8): a zero gives itself; [-1, 1] for finite x; some NaN for a NaN; nothing is said of the infinities. -/
def sinF32 (x : Word) : Word :=
  if fIsNaN x then someNaN (Config.sinRaw x)
  else if fIsZero x then x
  else if fIsInf x then Config.sinRaw x
  else keepIn F_NEG_ONE F_ONE (Config.sinRaw x)

/-- TANH_F32 (R8): [-1, 1] for every x that is no NaN. -/
def tanhF32 (x : Word) : Word :=
  if fIsNaN x then someNaN (Config.tanhRaw x)
  else keepIn F_NEG_ONE F_ONE (Config.tanhRaw x)

/-- EXP_F32 (R8): 1 at both zeros, +0 at -inf, [0, 1] below 0; nothing is said above 0. -/
def expF32 (x : Word) : Word :=
  if fIsNaN x then someNaN (Config.expRaw x)
  else if fIsZero x then F_ONE
  else if fSign x then
    (if fIsInf x then F_ZERO else keepIn F_ZERO F_ONE (Config.expRaw x))
  else Config.expRaw x

end Sys2Proof.Machine
end

