-- ==== Sys2Proof/Machine/Smoother.lean ====
section
/-! DEFINITION. The parameter smoother (40_smoother.md R101 to R106): its record and its operations, each arithmetic
step one binary32 operation in the rule's order. -/

namespace Sys2Proof.Machine

/-- A smoother's state (10_state.md R29): output value, time constant, sample rate, coefficient. -/
structure Smoother where
  y : Word
  tau : Word
  fs : Word
  a : Word
deriving DecidableEq, Repr

/-- SmCoef(tau, fs) = EXP_F32(-1.0 / (tau * fs)) (R102). -/
def smCoef (tau fs : Word) : Word :=
  expF32 (fDiv none F_NEG_ONE (fMul none tau fs))

/-- `v` if v > 0.0, else the default sample rate (R103, 42_engine_config.md R142). -/
def positiveOrDefault (v : Word) : Word :=
  if fGt v F_ZERO then v else FS_DEFAULT

/-- SmSetSampleRate (R103). -/
def smSetSampleRate (m : Smoother) (v : Word) : Smoother :=
  { m with fs := positiveOrDefault v, a := smCoef m.tau (positiveOrDefault v) }

/-- The floor of a time constant (R104). -/
def tauFloor (t : Word) : Word :=
  if fGe t TAU_MIN then t else TAU_MIN

/-- SmSetTimeConstant (R104). -/
def smSetTimeConstant (m : Smoother) (t : Word) : Smoother :=
  { m with tau := tauFloor t, a := smCoef (tauFloor t) m.fs }

/-- SmReset (R105). -/
def smReset (m : Smoother) (v : Word) : Smoother :=
  { m with y := v }

/-- The new output of SmProcess (R106): a * (y + EPS_SMOOTH) + (1.0 - a) * T, one rounding a step. -/
def smNext (k : Draw) (a y target : Word) : Word :=
  fAdd k (fMul k a (fAdd k y EPS_SMOOTH)) (fMul k (fSub k F_ONE a) target)

/-- SmProcess (R106); its answer is the new `y`. -/
def smProcess (k : Draw) (m : Smoother) (target : Word) : Smoother :=
  { m with y := smNext k m.a m.y target }

end Sys2Proof.Machine
end

