-- ==== Sys2Proof/Machine/State.lean ====
section
/-! DEFINITION. The state of the block (10_state.md R22 to R31), the port's outputs (R36), the model's own two fields,
and the state after reset (R37, 70_reset_and_hazards.md R241). -/

namespace Sys2Proof.Machine

/-- What the host can do to the block: present a transaction (20_memory.md R51) or assert `rst`
(70_reset_and_hazards.md R241). -/
inductive PortEvent where
  | transact (t : TWord)
  | rst
deriving DecidableEq, Repr

/-- The state of the block. `fs` to `win` are the elements of 10_state.md R22 to R31; `resp` and `rdata` are the port's
answer to the last transaction (R36); `nanDraw` and `pending` are the model's own. -/
structure State where
  /-- FS (R22). -/
  fs : Word
  /-- RATE_T (R23). -/
  rateT : Word
  /-- DEPTH_T (R24). -/
  depthT : Word
  /-- WET (R25). -/
  wet : Word
  /-- OFS (R26). -/
  ofs : Word
  /-- SHAPE (R27). -/
  shape : Shape
  /-- PHASE (R28). -/
  phase : Word
  /-- SM_R (R29). -/
  smR : Smoother
  /-- SM_D (R29). -/
  smD : Smoother
  /-- DATA_L (R30). -/
  dataL : Word
  /-- DATA_R (R30). -/
  dataR : Word
  /-- WIN (R31), oldest first. -/
  win : List Word
  /-- The response of the last transaction (R36, 60_exceptions.md R221). -/
  resp : Resp
  /-- The read data of the last transaction (R36, 60_exceptions.md R221). -/
  rdata : Word
  /-- The model's own: how many commands have computed with the datapath (notes/assumptions/6.md). -/
  nanDraw : Nat
  /-- The model's own: what the host presents next, in the order of acceptance (notes/assumptions/1.md). -/
  pending : List PortEvent
deriving DecidableEq, Repr

/-- The faults of the model: none. The block has no trap and every word that names no operation gets an error response,
which is a next state (60_exceptions.md R226). -/
inductive Fault where
deriving DecidableEq, Repr

/-- The refusals of the model. -/
inductive Refusal where
  /-- Raised by an arm of `exec` whose instruction has no meaning yet; safe. No arm raises it. -/
  | notModelled (mnemonic : String)
deriving DecidableEq, Repr

/-- The reset values of 10_state.md R37 and 70_reset_and_hazards.md R241. `resp` and `rdata` are signals that the spec
gives no reset value (DESIGN CHOICE, notes/assumptions/4.md); `nanDraw` and `pending` are the model's own
(notes/assumptions/6.md, notes/assumptions/1.md). -/
def State.reset : State :=
  { fs := FS_DEFAULT
    rateT := RATE_RESET
    depthT := F_ZERO
    wet := F_ONE
    ofs := F_ZERO
    shape := .sine
    phase := F_ZERO
    smR := { y := RATE_RESET, tau := TAU, fs := FS_DEFAULT, a := smCoef TAU FS_DEFAULT }
    smD := { y := F_ZERO, tau := TAU, fs := FS_DEFAULT, a := smCoef TAU FS_DEFAULT }
    dataL := F_ZERO
    dataR := F_ZERO
    win := []
    resp := .okay
    rdata := 0#32
    nanDraw := 0
    pending := [] }

end Sys2Proof.Machine
end

