-- ==== Sys2Proof/Machine/Flags.lean ====
section
/-! DEFINITION. The block's one flag and the words computed from the window's length (10_state.md R34, R35;
60_exceptions.md R228). There are no condition codes. -/

namespace Sys2Proof.Machine

/-- READY: L == 1024 exactly (R34). -/
def State.ready (s : State) : Bool :=
  s.win.length == N

/-- The level output `ready_o`, equal to READY at every moment (60_exceptions.md R228). -/
def State.readyO (s : State) : Bool :=
  s.ready

/-- STATUS: READY in bit 0, zeros above (R34, 30_encoding.md R75). -/
def statusWord (s : State) : Word :=
  if s.ready then 1#32 else 0#32

/-- FEAT_COUNT: L[10:0], zeros above (R35, 30_encoding.md R75). -/
def featCountWord (s : State) : Word :=
  (BitVec.ofNat 11 s.win.length).setWidth 32

end Sys2Proof.Machine
end

