-- ==== Sys2Proof/Machine/Operands.lean ====
section
/-! DEFINITION. Operand forms: the clamps that the setters apply to a binary32 operand (00_scope.md R14,
42_engine_config.md R144, R150), the words of shapes and values. -/

namespace Sys2Proof.Machine

/-- clampD(v, lo, hi) (00_scope.md R14): a NaN gives lo; v is kept bit for bit inside the domain. -/
def clampD (v lo hi : Word) : Word :=
  if fIsNaN v then lo
  else if fLt v lo then lo
  else if fGt v hi then hi
  else v

/-- The floor of a written rate (42_engine_config.md R144): a NaN gives RATE_MIN. -/
def rateFloor (v : Word) : Word :=
  if fGe v RATE_MIN then v else RATE_MIN

/-- Degrees to a fraction of a cycle (42_engine_config.md R150). -/
def offsetOfDegrees (v : Word) : Word :=
  fDiv none (clampD v F_ZERO DEG_MAX) DEG_PER_CYCLE

/-- SHAPE as a register reads: the code in bits 1:0, zeros above (30_encoding.md R75). -/
def shapeWord (sh : Shape) : Word :=
  sh.code.setWidth 32

/-- The 32-bit pattern of an assembler value (30_encoding.md R82). -/
def asmPattern : AsmValue → Word
  | .pattern w => w
  | .decimal neg num den => fOfRat neg num den
  | .inf neg => fInf neg
  | .nan => F_NAN
  | .integer n => BitVec.ofNat 32 n

/-- The transaction word of an assembler line (30_encoding.md R81). -/
def assemble (l : AsmLine) : TWord :=
  (l.transaction asmPattern).word

end Sys2Proof.Machine
end

