-- ==== Sys2Proof/Machine/Ops.lean ====
section
/-! DEFINITION. The shared operations: how a transaction ends (60_exceptions.md R221), the error response that every
erroring transaction takes (R222 to R227), reset (70_reset_and_hazards.md R241), the window's sequence operations
(41_feature.md R121), and the sequencing of the host's own steps. -/

namespace Sys2Proof.Machine

/-- The end of a read: resp = OKAY and rdata the register's value; no element of state changes (R221, 20_memory.md R57). -/
def respondRead (v : Word) (s : State) : Host.Outcome State Fault Refusal :=
  .next { s with resp := .okay, rdata := v }

/-- The end of a write or a command: resp = OKAY, rdata = 0 (R221). -/
def respondWrite (s : State) : Host.Outcome State Fault Refusal :=
  .next { s with resp := .okay, rdata := 0#32 }

/-- The error response (R222 to R224, R226): resp is the cause's, rdata = 0, no element of state changes, and the next
transaction is accepted as usual. It is this block's whole form of taking an exception. -/
def respondError (e : PortError) (s : State) : State :=
  { s with resp := e.resp, rdata := 0#32 }

/-- One assertion of `rst` (70_reset_and_hazards.md R241): every element takes its reset value. The host's further events
stay, and so does the free choice's counter, which is no element of the block (notes/assumptions/3.md). -/
def assertReset (s : State) : State :=
  { State.reset with nanDraw := s.nanDraw, pending := s.pending }

/-- The occasion of the command about to compute (notes/assumptions/5.md). -/
def State.draw (s : State) : Draw :=
  some s.nanDraw

/-- append(WIN, x) and, if the window exceeds N, dropOldest(WIN) (41_feature.md R121, R126). -/
def winPush (win : List Word) (x : Word) : List Word :=
  if N < (win ++ [x]).length then (win ++ [x]).tail else win ++ [x]

/-- Re-seed one smoother for a sample rate and a starting value (42_engine_config.md R142): SmSetSampleRate, then
SmSetTimeConstant(TAU), then SmReset. -/
def smReseed (m : Smoother) (fs target : Word) : Smoother :=
  smReset (smSetTimeConstant (smSetSampleRate m fs) TAU) target

/-- Do `f` after `o`, if `o` goes on. -/
def andThen {α β : Type} (o : Host.Outcome α Fault Refusal) (f : α → Host.Outcome β Fault Refusal) :
    Host.Outcome β Fault Refusal :=
  match o with
  | .next a => f a
  | .fault r => .fault r
  | .refused r => .refused r

end Sys2Proof.Machine
end

