-- ==== Sys2Proof/Machine/EngineConfig.lean ====
section
/-! DEFINITION. The setters of the ModulationEngine and the reads of its state (42_engine_config.md R141 to R158). -/

namespace Sys2Proof.Machine

/-- WR_SAMPLE_RATE (R142): FS, and both smoothers re-seeded. -/
def execWrSampleRate (v : Word) (s : State) : Host.Outcome State Fault Refusal :=
  respondWrite
    { s with
      fs := positiveOrDefault v
      smR := smReseed s.smR (positiveOrDefault v) s.rateT
      smD := smReseed s.smD (positiveOrDefault v) s.depthT }

/-- RD_SAMPLE_RATE (R143). -/
def execRdSampleRate (s : State) : Host.Outcome State Fault Refusal :=
  respondRead s.fs s

/-- WR_RATE (R144). -/
def execWrRate (v : Word) (s : State) : Host.Outcome State Fault Refusal :=
  respondWrite { s with rateT := rateFloor v }

/-- RD_RATE (R145). -/
def execRdRate (s : State) : Host.Outcome State Fault Refusal :=
  respondRead s.rateT s

/-- WR_DEPTH (R146). -/
def execWrDepth (v : Word) (s : State) : Host.Outcome State Fault Refusal :=
  respondWrite { s with depthT := clampD v F_ZERO F_ONE }

/-- RD_DEPTH (R147). -/
def execRdDepth (s : State) : Host.Outcome State Fault Refusal :=
  respondRead s.depthT s

/-- WR_WET (R148). -/
def execWrWet (v : Word) (s : State) : Host.Outcome State Fault Refusal :=
  respondWrite { s with wet := clampD v F_ZERO F_ONE }

/-- RD_WET (R149). -/
def execRdWet (s : State) : Host.Outcome State Fault Refusal :=
  respondRead s.wet s

/-- WR_STEREO_DEG (R150). -/
def execWrStereoDeg (v : Word) (s : State) : Host.Outcome State Fault Refusal :=
  respondWrite { s with ofs := offsetOfDegrees v }

/-- RD_STEREO_OFS (R151). -/
def execRdStereoOfs (s : State) : Host.Outcome State Fault Refusal :=
  respondRead s.ofs s

/-- WR_SHAPE (R152). -/
def execWrShape (sh : Shape) (s : State) : Host.Outcome State Fault Refusal :=
  respondWrite { s with shape := sh }

/-- RD_SHAPE (R153). -/
def execRdShape (s : State) : Host.Outcome State Fault Refusal :=
  respondRead (shapeWord s.shape) s

/-- RD_ID (R154). -/
def execRdId (s : State) : Host.Outcome State Fault Refusal :=
  respondRead ID_VALUE s

/-- RD_RATE_SM (R155). -/
def execRdRateSm (s : State) : Host.Outcome State Fault Refusal :=
  respondRead s.smR.y s

/-- RD_DEPTH_SM (R156). -/
def execRdDepthSm (s : State) : Host.Outcome State Fault Refusal :=
  respondRead s.smD.y s

/-- RD_SMOOTH_COEF (R157). -/
def execRdSmoothCoef (s : State) : Host.Outcome State Fault Refusal :=
  respondRead s.smR.a s

/-- RD_PHASE (R158). -/
def execRdPhase (s : State) : Host.Outcome State Fault Refusal :=
  respondRead s.phase s

end Sys2Proof.Machine
end

