-- ==== Sys2Proof/Machine/EngineProcess.lean ====
section
/-! DEFINITION. The processing half of the ModulationEngine (43_engine_process.md R171 to R186): the waveform generators,
gain, mixer, phase increment, the frame algorithm and the commands. Every arithmetic step is one binary32 operation in
the rule's order. -/

namespace Sys2Proof.Machine

/-- TWO_PI_F32 * p, then SIN_F32 (R172, R174, R175). -/
def sinOfPhase (k : Draw) (p : Word) : Word :=
  sinF32 (fMul k TWO_PI_F32 p)

/-- WaveSine(p) (R172). -/
def waveSine (k : Draw) (p : Word) : Word :=
  fMul k F_HALF (fAdd k F_ONE (sinOfPhase k p))

/-- WaveTri(p) (R173). -/
def waveTri (k : Draw) (p : Word) : Word :=
  fMul k F_HALF
    (fAdd k
      (if fLt p F_HALF then fSub k (fMul k F_FOUR p) F_ONE else fSub k F_THREE (fMul k F_FOUR p))
      F_ONE)

/-- WaveSquare(p) (R174). -/
def waveSquare (k : Draw) (p : Word) : Word :=
  if fGe (sinOfPhase k p) F_ZERO then F_ONE else F_ZERO

/-- WaveSoft(p) (R175). -/
def waveSoft (k : Draw) (p : Word) : Word :=
  fMul k F_HALF (fAdd k F_ONE (tanhF32 (fMul k F_THREE (sinOfPhase k p))))

/-- Wave(shape, p) (R171). -/
def wave (k : Draw) (sh : Shape) (p : Word) : Word :=
  match sh with
  | .sine => waveSine k p
  | .triangle => waveTri k p
  | .square => waveSquare k p
  | .squareSoft => waveSoft k p

/-- Gain(d, lfo) = 1.0 - d * lfo (R176). -/
def gain (k : Draw) (d lfo : Word) : Word :=
  fSub k F_ONE (fMul k d lfo)

/-- ClampOut(v): a NaN is returned as it is (R177). -/
def clampOut (v : Word) : Word :=
  if fLt v F_NEG_ONE then F_NEG_ONE
  else if fGt v F_ONE then F_ONE
  else v

/-- Mix(x, g) with the wet mix (R177): the dry term uses x as given, the wet term x + EPS_MIX. -/
def mix (k : Draw) (wet x g : Word) : Word :=
  clampOut
    (fAdd k
      (fMul k (fSub k F_ONE wet) x)
      (fMul k wet (fMul k (fAdd k x EPS_MIX) g)))

/-- PhaseInc(rs): floored at INC_MIN, a NaN quotient included (R178). -/
def phaseInc (k : Draw) (fs rs : Word) : Word :=
  if fGe (fDiv k rs fs) INC_MIN then fDiv k rs fs else INC_MIN

/-- The smoothed rate after the frame's step 1 (R179). -/
def nextRate (s : State) : Smoother :=
  smProcess s.draw s.smR s.rateT

/-- The smoothed depth after the frame's step 2 (R179). -/
def nextDepth (s : State) : Smoother :=
  smProcess s.draw s.smD s.depthT

/-- The left lane's output: the phase before the advance (R179, steps 3 to 6). -/
def laneL (s : State) : Word :=
  mix s.draw s.wet s.dataL (gain s.draw (nextDepth s).y (wave s.draw s.shape s.phase))

/-- The right lane's phase, frac(PHASE + OFS) (R179, step 3). -/
def phaseR (s : State) : Word :=
  frac (fAdd s.draw s.phase s.ofs)

/-- The right lane's output (R179, steps 3 to 6). -/
def laneR (s : State) : Word :=
  mix s.draw s.wet s.dataR (gain s.draw (nextDepth s).y (wave s.draw s.shape (phaseR s)))

/-- The advanced phase, frac(PHASE + inc) (R179, step 7). -/
def nextPhase (s : State) : Word :=
  frac (fAdd s.draw s.phase (phaseInc s.draw s.fs (nextRate s).y))

/-- Process(1) (R179): one mono frame as one step. -/
def processMono (s : State) : State :=
  { s with
    smR := nextRate s
    smD := nextDepth s
    dataL := laneL s
    phase := nextPhase s
    nanDraw := s.nanDraw + 1 }

/-- Process(2) (R179): one stereo frame as one step. -/
def processStereo (s : State) : State :=
  { processMono s with dataR := laneR s }

/-- CMD_PROCESS_MONO (R180). -/
def execCmdProcessMono (s : State) : Host.Outcome State Fault Refusal :=
  respondWrite (processMono s)

/-- CMD_PROCESS_STEREO (R181). -/
def execCmdProcessStereo (s : State) : Host.Outcome State Fault Refusal :=
  respondWrite (processStereo s)

/-- CMD_NOP (R182). -/
def execCmdNop (s : State) : Host.Outcome State Fault Refusal :=
  respondWrite s

/-- WR_DATA_L (R183): stored bit for bit. -/
def execWrDataL (v : Word) (s : State) : Host.Outcome State Fault Refusal :=
  respondWrite { s with dataL := v }

/-- RD_DATA_L (R184). -/
def execRdDataL (s : State) : Host.Outcome State Fault Refusal :=
  respondRead s.dataL s

/-- WR_DATA_R (R185): stored bit for bit. -/
def execWrDataR (v : Word) (s : State) : Host.Outcome State Fault Refusal :=
  respondWrite { s with dataR := v }

/-- RD_DATA_R (R186). -/
def execRdDataR (s : State) : Host.Outcome State Fault Refusal :=
  respondRead s.dataR s

end Sys2Proof.Machine
end

