-- ==== Sys2Proof/Machine/Feature.lean ====
section
/-! DEFINITION. The feature accumulator (41_feature.md R121 to R131). -/

namespace Sys2Proof.Machine

/-- Mid(l, r) = 0.5 * (l + r), the sum first (R122). -/
def mid (k : Draw) (l r : Word) : Word :=
  fMul k F_HALF (fAdd k l r)

/-- nonneg(x) = (x >= 0.0): both zeros are non-negative, a NaN is not (R123). -/
def nonneg (x : Word) : Bool :=
  fGe x F_ZERO

/-- The sum of squares, oldest first, one rounding a multiply and one an add (R124). -/
def sumSquares (acc : Word) : List Word → Word
  | [] => acc
  | x :: xs => sumSquares (fAdd none acc (fMul none x x)) xs

/-- RmsOf(WIN) (R124). -/
def rmsOf (win : List Word) : Word :=
  if win.length = 0 then F_ZERO
  else fSqrt none (fDiv none (sumSquares F_ZERO win) (fOfNat win.length))

/-- The number of adjacent pairs whose sign classes differ (R125). -/
def crossings : List Word → Nat
  | [] => 0
  | [_] => 0
  | x :: y :: rest => (if nonneg x != nonneg y then 1 else 0) + crossings (y :: rest)

/-- ZcrOf(WIN) (R125). -/
def zcrOf (win : List Word) : Word :=
  if win.length < 2 then F_ZERO
  else fDiv none (fOfNat (crossings win)) (fOfNat (win.length - 1))

/-- CMD_FEAT_PUSH (R126). -/
def execCmdFeatPush (s : State) : Host.Outcome State Fault Refusal :=
  respondWrite { s with win := winPush s.win (mid s.draw s.dataL s.dataR), nanDraw := s.nanDraw + 1 }

/-- CMD_FEAT_RESET (R127). -/
def execCmdFeatReset (s : State) : Host.Outcome State Fault Refusal :=
  respondWrite { s with win := [] }

/-- RD_STATUS (R128). -/
def execRdStatus (s : State) : Host.Outcome State Fault Refusal :=
  respondRead (statusWord s) s

/-- RD_FEAT_COUNT (R129). -/
def execRdFeatCount (s : State) : Host.Outcome State Fault Refusal :=
  respondRead (featCountWord s) s

/-- RD_RMS (R130). -/
def execRdRms (s : State) : Host.Outcome State Fault Refusal :=
  respondRead (rmsOf s.win) s

/-- RD_ZCR (R131). -/
def execRdZcr (s : State) : Host.Outcome State Fault Refusal :=
  respondRead (zcrOf s.win) s

end Sys2Proof.Machine
end

