-- ==== Sys2Proof/Machine/Dispatch.lean ====
section
/-! DEFINITION. One arm for each constructor of `Instr`. -/

namespace Sys2Proof.Machine

def exec (i : Instr) (s : State) : Host.Outcome State Fault Refusal :=
  match i with
  | .rdId => Sys2Proof.Machine.execRdId s
  | .rdStatus => Sys2Proof.Machine.execRdStatus s
  | .cmdNop => Sys2Proof.Machine.execCmdNop s
  | .cmdProcessMono => Sys2Proof.Machine.execCmdProcessMono s
  | .cmdProcessStereo => Sys2Proof.Machine.execCmdProcessStereo s
  | .cmdFeatPush => Sys2Proof.Machine.execCmdFeatPush s
  | .cmdFeatReset => Sys2Proof.Machine.execCmdFeatReset s
  | .rdFeatCount => Sys2Proof.Machine.execRdFeatCount s
  | .rdSampleRate => Sys2Proof.Machine.execRdSampleRate s
  | .wrSampleRate v => Sys2Proof.Machine.execWrSampleRate v s
  | .rdRate => Sys2Proof.Machine.execRdRate s
  | .wrRate v => Sys2Proof.Machine.execWrRate v s
  | .rdDepth => Sys2Proof.Machine.execRdDepth s
  | .wrDepth v => Sys2Proof.Machine.execWrDepth v s
  | .rdWet => Sys2Proof.Machine.execRdWet s
  | .wrWet v => Sys2Proof.Machine.execWrWet v s
  | .wrStereoDeg v => Sys2Proof.Machine.execWrStereoDeg v s
  | .rdStereoOfs => Sys2Proof.Machine.execRdStereoOfs s
  | .rdShape => Sys2Proof.Machine.execRdShape s
  | .wrShape sh => Sys2Proof.Machine.execWrShape sh s
  | .rdPhase => Sys2Proof.Machine.execRdPhase s
  | .rdRateSm => Sys2Proof.Machine.execRdRateSm s
  | .rdDepthSm => Sys2Proof.Machine.execRdDepthSm s
  | .rdSmoothCoef => Sys2Proof.Machine.execRdSmoothCoef s
  | .rdDataL => Sys2Proof.Machine.execRdDataL s
  | .wrDataL v => Sys2Proof.Machine.execWrDataL v s
  | .rdDataR => Sys2Proof.Machine.execRdDataR s
  | .wrDataR v => Sys2Proof.Machine.execWrDataR v s
  | .rdRms => Sys2Proof.Machine.execRdRms s
  | .rdZcr => Sys2Proof.Machine.execRdZcr s

end Sys2Proof.Machine
end

