-- ==== Sys2Proof/Machine/Bus.lean ====
section
/-! DEFINITION. One transaction on the port (20_memory.md R51, 30_encoding.md R76) and one event of the port. -/

namespace Sys2Proof.Machine

/-- One transaction: the operation its word names, or the error response (R76). -/
def transact (t : TWord) (s : State) : Host.Outcome State Fault Refusal :=
  match decode t with
  | .op i => exec i s
  | .err e => .next (respondError e s)

/-- BusRead(ADDR) (20_memory.md R51). -/
def busRead (a : Addr) (s : State) : Host.Outcome State Fault Refusal :=
  transact (Transaction.word ⟨false, a, 0#32⟩) s

/-- BusWrite(ADDR, WDATA) (20_memory.md R51). -/
def busWrite (a : Addr) (d : Word) (s : State) : Host.Outcome State Fault Refusal :=
  transact (Transaction.word ⟨true, a, d⟩) s

/-- One event of the port, in the state from which it has been taken. -/
def accept (e : PortEvent) (s : State) : Host.Outcome State Fault Refusal :=
  match e with
  | .transact t => transact t s
  | .rst => .next (assertReset s)

/-- The port's next event, if the host presents one, and the state without it. With nothing presented the block does
nothing (00_scope.md R5, 60_exceptions.md R234, 70_reset_and_hazards.md R252; notes/assumptions/2.md). -/
def portStep (s : State) : Host.Outcome State Fault Refusal :=
  match s.pending with
  | [] => .next s
  | e :: rest => accept e { s with pending := rest }

/-- The host presents a transaction before whatever else it has pending. -/
def present (t : TWord) (s : State) : State :=
  { s with pending := .transact t :: s.pending }

end Sys2Proof.Machine
end

