-- ==== Sys2Proof/Machine/Step.lean ====
section
/-! DEFINITION. One step of the machine: the port's next event (00_scope.md R5, 20_memory.md R61). -/

namespace Sys2Proof.Machine

/-- One step: the next event of the port, taken whole. -/
def step (s : State) : Host.Outcome State Fault Refusal :=
  portStep s

/-- `s` with the transaction word `w` (bits above `nbits` zero) presented next: the block has no program counter and its
program is the sequence of transactions the host presents (10_state.md R21, notes/assumptions/1.md). -/
def State.withFetchWord (s : State) (nbits w : Nat) : State :=
  present (BitVec.ofNat 41 (w % 2 ^ nbits)) s

end Sys2Proof.Machine
end

