-- ==== Sys2Proof/Machine/HostSeq.lean ====
section
/-! DEFINITION. The host's duties as sequences of transactions (44_host_sequences.md R201 to R210,
70_reset_and_hazards.md R242). They are outside the block and use nothing of it but its port. What the source leaves
open of the host (R10) is an argument. notes/assumptions/13.md, notes/assumptions/14.md. -/

namespace Sys2Proof.Machine

/-! ## Transactions with an answer -/

/-- `RD <REG>`, with the word read. -/
def hostRead (r : Reg) (s : State) : Host.Outcome (State × Word) Fault Refusal :=
  andThen (busRead r.addr s) fun t => .next (t, t.rdata)

/-- `WR <REG>, <value>`. -/
def hostWrite (r : Reg) (v : Word) (s : State) : Host.Outcome State Fault Refusal :=
  busWrite r.addr v s

/-- `CMD <OP>`. -/
def hostCommand (op : CmdOp) (s : State) : Host.Outcome State Fault Refusal :=
  busWrite Reg.cmd.addr op.code s

/-- A listing, one line after the other (30_encoding.md R81). -/
def hostRun : List AsmLine → State → Host.Outcome State Fault Refusal
  | [], s => .next s
  | l :: rest, s => andThen (transact (assemble l) s) (hostRun rest)

/-! ## Buffer processing (R202) -/

/-- PROCESS_FRAME_MONO (R202): the processed sample comes back in place of the input. -/
def hostProcessFrameMono (x : Word) (s : State) : Host.Outcome (State × Word) Fault Refusal :=
  andThen (hostWrite .dataL x s) fun s1 =>
  andThen (hostCommand .processMono s1) fun s2 =>
  hostRead .dataL s2

/-- PROCESS_FRAME_STEREO (R202). -/
def hostProcessFrameStereo (l r : Word) (s : State) : Host.Outcome (State × Word × Word) Fault Refusal :=
  andThen (hostWrite .dataL l s) fun s1 =>
  andThen (hostWrite .dataR r s1) fun s2 =>
  andThen (hostCommand .processStereo s2) fun s3 =>
  andThen (hostRead .dataL s3) fun (s4, y) =>
  andThen (hostRead .dataR s4) fun (s5, z) =>
  .next (s5, y, z)

/-- The frames of a mono buffer, in order (R202). R202 does not say what happens where the buffer holds fewer frames than
the count; the model ends the loop there (DESIGN CHOICE, notes/assumptions/17.md). -/
def hostProcessMono : Nat → List Word → State → Host.Outcome (State × List Word) Fault Refusal
  | 0, buf, s => .next (s, buf)
  | _ + 1, [], s => .next (s, [])
  | n + 1, x :: buf, s =>
    andThen (hostProcessFrameMono x s) fun (t, y) =>
    andThen (hostProcessMono n buf t) fun (u, out) =>
    .next (u, y :: out)

/-- The frames of an interleaved buffer of `ch` channels, ch at least 2: channels 0 and 1 are processed as a stereo
frame and the rest of each frame is left as it is (R202; STEREO_FIRST_TWO for more than two channels). R202 does not say
what happens where the buffer ends before the count is done or inside a frame; in the model a last frame of two values or
more, though fewer than `ch`, is still processed, and with one value or none left the loop ends (DESIGN CHOICE,
notes/assumptions/17.md). -/
def hostProcessStereo (ch : Nat) : Nat → List Word → State → Host.Outcome (State × List Word) Fault Refusal
  | 0, buf, s => .next (s, buf)
  | _ + 1, [], s => .next (s, [])
  | _ + 1, [x], s => .next (s, [x])
  | n + 1, l :: r :: buf, s =>
    andThen (hostProcessFrameStereo l r s) fun (t, y, z) =>
    andThen (hostProcessStereo ch n (buf.drop (ch - 2)) t) fun (u, out) =>
    .next (u, y :: z :: (buf.take (ch - 2) ++ out))

/-- PROCESS_BUFFER(buf, frames, ch) (R202): a null buffer or ch < 1 is a no-op without a transaction. -/
def hostProcessBuffer (multi : HostMultichannel) (buf : Option (List Word)) (frames : Nat) (ch : Int) (s : State) :
    Host.Outcome (State × Option (List Word)) Fault Refusal :=
  match buf with
  | none => .next (s, none)
  | some b =>
    if ch < 1 then .next (s, some b)
    else if ch = 1 then andThen (hostProcessMono frames b s) fun (t, out) => .next (t, some out)
    else if 2 < ch ∧ multi = .refuse then .next (s, some b)
    else andThen (hostProcessStereo ch.toNat frames b s) fun (t, out) => .next (t, some out)

/-! ## Feature and control loop (R203 to R205) -/

/-- A Controller (R204): elapsed seconds as a binary64 encoding, RMS, ZCR, rate and depth to new rate and depth. -/
abbrev Controller := BitVec 64 → Word → Word → Word → Word → Word × Word

/-- The default Controller leaves both parameters as they are (R204). -/
def noController : Controller := fun _ _ _ rate depth => (rate, depth)

/-- CONTROL_FRAME(t) (R203). -/
def hostControlFrame (c : Controller) (t : BitVec 64) (s : State) : Host.Outcome State Fault Refusal :=
  andThen (hostRead .rms s) fun (s1, rms) =>
  andThen (hostRead .zcr s1) fun (s2, zcr) =>
  andThen (hostRead .rate s2) fun (s3, rate) =>
  andThen (hostRead .depth s3) fun (s4, depth) =>
  andThen (hostWrite .rate (c t rms zcr rate depth).1 s4) fun s5 =>
  andThen (hostWrite .depth (c t rms zcr rate depth).2 s5) fun s6 =>
  hostCommand .featReset s6

/-- PUSH_FRAME(l, r) (R203): CONTROL_FRAME follows the push after which STATUS reads ready. -/
def hostPushFrame (c : Controller) (t : BitVec 64) (l r : Word) (s : State) : Host.Outcome State Fault Refusal :=
  andThen (hostWrite .dataL l s) fun s1 =>
  andThen (hostWrite .dataR r s1) fun s2 =>
  andThen (hostCommand .featPush s2) fun s3 =>
  andThen (hostRead .status s3) fun (s4, status) =>
  if status.getLsbD 0 then hostControlFrame c t s4 else .next s4

/-- The source's host, as far as it is open (R10, R203): the Controller, which samples are pushed, and the elapsed time
given to the Controller after a number of processed frames at an integer sample rate. -/
structure HostParams where
  controller : Controller
  source : HostFeatureSource
  elapsed : Nat → Nat → BitVec 64

/-- One mono frame of the per-frame driver loop (R203), the `n`-th: the fold of a mono sample x is of (x, x). -/
def hostDriveMono (p : HostParams) (fs n : Nat) (x : Word) (s : State) : Host.Outcome (State × Word) Fault Refusal :=
  match p.source with
  | .input =>
    andThen (hostPushFrame p.controller (p.elapsed n fs) x x s) fun t => hostProcessFrameMono x t
  | .output =>
    andThen (hostProcessFrameMono x s) fun (t, y) =>
    andThen (hostPushFrame p.controller (p.elapsed (n + 1) fs) y y t) fun u => .next (u, y)

/-- One stereo frame of the per-frame driver loop (R203), the `n`-th. -/
def hostDriveStereo (p : HostParams) (fs n : Nat) (l r : Word) (s : State) :
    Host.Outcome (State × Word × Word) Fault Refusal :=
  match p.source with
  | .input =>
    andThen (hostPushFrame p.controller (p.elapsed n fs) l r s) fun t => hostProcessFrameStereo l r t
  | .output =>
    andThen (hostProcessFrameStereo l r s) fun (t, y, z) =>
    andThen (hostPushFrame p.controller (p.elapsed (n + 1) fs) y z t) fun u => .next (u, y, z)

/-- The driver's run over mono frames, the first of them the `n`-th (R203). -/
def hostDriveAllMono (p : HostParams) (fs : Nat) : Nat → List Word → State → Host.Outcome (State × List Word) Fault Refusal
  | _, [], s => .next (s, [])
  | n, x :: rest, s =>
    andThen (hostDriveMono p fs n x s) fun (t, y) =>
    andThen (hostDriveAllMono p fs (n + 1) rest t) fun (u, out) =>
    .next (u, y :: out)

/-- The driver's run over stereo frames, the first of them the `n`-th (R203). -/
def hostDriveAllStereo (p : HostParams) (fs : Nat) :
    Nat → List (Word × Word) → State → Host.Outcome (State × List (Word × Word)) Fault Refusal
  | _, [], s => .next (s, [])
  | n, (l, r) :: rest, s =>
    andThen (hostDriveStereo p fs n l r s) fun (t, y, z) =>
    andThen (hostDriveAllStereo p fs (n + 1) rest t) fun (u, out) =>
    .next (u, (y, z) :: out)

/-- The recommended HOST_ELAPSED (R203): frames / sample rate in binary64; none is recommended for a rate of 0. Every
such quotient is far inside binary64's normal range or 0, so no cap at infinity is needed. -/
def hostElapsed (frames fs : Nat) : Option (BitVec 64) :=
  if fs = 0 then none else some (BitVec.ofNat 64 (roundMag 53 (frames * 2 ^ 1074) fs))

/-! ## Shape names, tempo sync, sample rate, boot (R206, R207, R209, R242) -/

/-- ASCII lower case: A-Z to a-z, everything else unchanged (R206). -/
def asciiLower (c : Char) : Char :=
  if 65 ≤ c.toNat ∧ c.toNat ≤ 90 then Char.ofNat (c.toNat + 32) else c

/-- ParseShape(name) (R206): an unrecognised name is Sine. -/
def parseShape (name : List Char) : Shape :=
  if name.map asciiLower = ['s', 'i', 'n', 'e'] then .sine
  else if name.map asciiLower = ['t', 'r', 'i', 'a', 'n', 'g', 'l', 'e'] then .triangle
  else if name.map asciiLower = ['s', 'q', 'u', 'a', 'r', 'e'] then .square
  else if name.map asciiLower = ['s', 'q', 'u', 'a', 'r', 'e', '-', 's', 'o', 'f', 't'] then .squareSoft
  else .sine

/-- SET_SHAPE_NAME(name) (R206). -/
def hostSetShapeName (name : List Char) (s : State) : Host.Outcome State Fault Refusal :=
  hostWrite .shape (shapeWord (parseShape name)) s

/-- The recognised note divisions 1, 1/2, 1/4, 1/8, 1/16 (R207). -/
inductive NoteDivision where
  | whole | half | quarter | eighth | sixteenth
deriving DecidableEq, Repr

/-- beatsPerCycle in quarters of a beat: 4, 2, 1, 0.5, 0.25 beats (R207). -/
def NoteDivision.quarterBeats : NoteDivision → Nat
  | .whole => 16
  | .half => 8
  | .quarter => 4
  | .eighth => 2
  | .sixteenth => 1

/-- f32(Hz) with Hz = (BPM / 60) / beatsPerCycle, the BPM being num/den with a sign (R207). R207 lets the host compute Hz
in any precision before f32; the model takes Hz exactly, so that the one rounding is f32's own (DESIGN CHOICE,
notes/assumptions/16.md). -/
def tempoRate (neg : Bool) (num den : Nat) (d : NoteDivision) : Word :=
  fOfRat neg (4 * num) (60 * den * d.quarterBeats)

/-- Tempo sync (R207): a recognised division writes RATE, an unrecognised one issues no transaction. -/
def hostTempoSync (neg : Bool) (num den : Nat) (d : Option NoteDivision) (s : State) :
    Host.Outcome State Fault Refusal :=
  match d with
  | none => .next s
  | some d => hostWrite .rate (tempoRate neg num den d) s

/-- The integer sample rate, converted once to binary32 and written (R209). R209 gives the integer no lower bound; the model
takes a natural number, so a negative rate is left out (DESIGN CHOICE, notes/assumptions/18.md). -/
def hostSetSampleRate (fs : Nat) (s : State) : Host.Outcome State Fault Refusal :=
  hostWrite .sampleRate (fOfNat fs) s

/-- The boot sequence (70_reset_and_hazards.md R242), SAMPLE_RATE last; the integer rate is a natural number
(notes/assumptions/18.md). -/
def bootLines (rate depth wet degrees : Word) (sh : Shape) (fs : Nat) : List AsmLine :=
  [.wr .rate (.pattern rate), .wr .depth (.pattern depth), .wr .wet (.pattern wet)] ++
  [.wr .stereoDeg (.pattern degrees), .wr .shape (.pattern (shapeWord sh)), .wr .sampleRate (.decimal false fs 1)]

/-! ## Several host agents (20_memory.md R62) -/

/-- `zs` is an interleaving of the agents' sequences `xs` and `ys`: each agent's own order is kept. -/
inductive Interleaves : List PortEvent → List PortEvent → List PortEvent → Prop where
  | done : Interleaves [] [] []
  | left (e : PortEvent) {xs ys zs : List PortEvent} : Interleaves xs ys zs → Interleaves (e :: xs) ys (e :: zs)
  | right (e : PortEvent) {xs ys zs : List PortEvent} : Interleaves xs ys zs → Interleaves xs (e :: ys) (e :: zs)

end Sys2Proof.Machine
end

