-- ==== Sys2Proof/Safety.lean ====
section
/-! DEFINITION. The terms the claims use: value ranges, correct rounding (00_scope.md R7), the invariants of the block
(10_state.md R32), the elements of state that a transaction may write. -/

namespace Sys2Proof.Machine

/-- lo <= w <= hi in value; no NaN. Both zeros lie in a range that holds 0. -/
def fIn (w lo hi : Word) : Bool :=
  fLe lo w && fLe w hi

/-- `w` is the exact value n / d, in units of 2^-149, rounded to binary32 to nearest, ties to even (00_scope.md R7). It is
finite exactly below the magnitude 2^128 - 2^103, halfway between the largest finite value and 2^128, which is
(2^25 - 1) * 2^252 units, and from there on it is the infinity of the exact sign; a finite `w` is at least as near as every
finite word, and its code is even where another value is as near. -/
def RoundsTo (w : Word) (n : Int) (d : Nat) : Prop :=
  (fIsFinite w = true ↔ |n| < (2 ^ 25 - 1) * 2 ^ 252 * d) ∧
  ((2 ^ 25 - 1) * 2 ^ 252 * d ≤ |n| → w = fInf (decide (n < 0))) ∧
  ∀ c : Word, fIsFinite w = true → fIsFinite c = true →
    |n - fVal w * d| ≤ |n - fVal c * d| ∧
    (|n - fVal w * d| = |n - fVal c * d| → fVal c ≠ fVal w → fCode w % 2 = 0)

/-- w in [+0.0, 1.0): not negative, not -0.0, no NaN (10_state.md R28). -/
def isPhase (w : Word) : Bool :=
  !fSign w && fLt w F_ONE

/-- The invariants of 10_state.md R32, with the legal value of the coefficient of R29 (40_smoother.md R101: never
stale). -/
structure State.Inv (s : State) : Prop where
  fs_pos : fGt s.fs F_ZERO = true
  rate_floor : fGe s.rateT RATE_MIN = true
  depth_unit : fIn s.depthT F_ZERO F_ONE = true
  wet_unit : fIn s.wet F_ZERO F_ONE = true
  ofs_half : fIn s.ofs F_ZERO F_HALF = true
  phase_unit : isPhase s.phase = true
  win_length : s.win.length ≤ N
  smR_tau : s.smR.tau = TAU
  smD_tau : s.smD.tau = TAU
  smR_fs : s.smR.fs = s.fs
  smD_fs : s.smD.fs = s.fs
  smR_coef : s.smR.a = smCoef TAU s.fs
  smD_coef : s.smD.a = smCoef TAU s.fs

/-- The two states agree in every element of state of the block (10_state.md R22 to R31). -/
def SameElements (s t : State) : Prop :=
  t.fs = s.fs ∧ t.rateT = s.rateT ∧ t.depthT = s.depthT ∧ t.wet = s.wet ∧ t.ofs = s.ofs ∧ t.shape = s.shape ∧
  t.phase = s.phase ∧ t.smR = s.smR ∧ t.smD = s.smD ∧ t.dataL = s.dataL ∧ t.dataR = s.dataR ∧ t.win = s.win

end Sys2Proof.Machine

namespace Sys2Proof

/-- The operation is a PROCESS command. -/
def Instr.isProcess (i : Instr) : Bool :=
  i == .cmdProcessMono || i == .cmdProcessStereo

/-- The operation is a read (W = 0). -/
def Instr.isRead (i : Instr) : Bool :=
  !i.transaction.write

/-- The operation uses the feature window: FEAT_PUSH, FEAT_RESET and the four reads of 41_feature.md. -/
def Instr.usesWindow (i : Instr) : Bool :=
  [Instr.cmdFeatPush, .cmdFeatReset, .rdStatus, .rdFeatCount, .rdRms, .rdZcr].contains i

end Sys2Proof

namespace Sys2Proof.Machine

/-- `i` is the read of the register `r` at `a`: the line `RD r` is a word with W = 0 and that address, every such word
decodes to `i` whatever DATA holds, and from every state `i` answers OKAY with the register's value and changes nothing
else. -/
def ReadsAs (i : Instr) (r : Reg) (a : Addr) (value : State → Word) : Prop :=
  assemble (.rd r) = Transaction.word ⟨false, a, 0#32⟩ ∧
  (∀ d : Word, decode (Transaction.word ⟨false, a, d⟩) = .op i) ∧
  ∀ s : State, exec i s = .next { s with resp := .okay, rdata := value s }

/-- `i` is the write of the register `r` at `a`: the line `WR r, d` is the word with W = 1, that address and DATA = d, it
decodes to `i d` for every d, and from every state `i d` answers OKAY with rdata = 0 and the given effect. -/
def WritesAs (i : Word → Instr) (r : Reg) (a : Addr) (effect : Word → State → State) : Prop :=
  (∀ d : Word, assemble (.wr r (.pattern d)) = Transaction.word ⟨true, a, d⟩ ∧
    decode (Transaction.word ⟨true, a, d⟩) = .op (i d)) ∧
  ∀ (d : Word) (s : State), exec (i d) s = .next { effect d s with resp := .okay, rdata := 0#32 }

/-- `i` is the command `op` of code `code`: the line `CMD op` is the write of that word to CMD, it decodes to `i`, and from
every state `i` answers OKAY with rdata = 0 and the given effect. -/
def CommandsAs (i : Instr) (op : CmdOp) (code : Word) (effect : State → State) : Prop :=
  assemble (.cmd op) = Transaction.word ⟨true, 0x08#8, code⟩ ∧
  decode (Transaction.word ⟨true, 0x08#8, code⟩) = .op i ∧
  ∀ s : State, exec i s = .next { effect s with resp := .okay, rdata := 0#32 }

end Sys2Proof.Machine
end

