-- ==== Sys2Proof/Certificates/Slice0/Obligations.lean ====
section
/-! DEFINITION. The statements for the provers. Each docstring names the rules of spec/ it formalises. Where a statement
mentions `nanDraw`, `pending` or `draw`, those are the model's own fields (notes/assumptions/1.md, 5.md, 6.md) and the
statement holds for every value of them. -/

open Sys2Proof Sys2Proof.Machine

/-! ## Encoding -/

/-- 30_encoding.md R76, R80: decoding an encoded operation gives it back, with every operand. -/
def Obligations.DecodeInvertsEncode : Prop :=
  ∀ i : Instr, decode (encode i) = .op i

/-- 30_encoding.md R76, R80: a transaction word decodes to an operation exactly where it agrees with that operation's
encoding on W, ADDR and the DATA bits the row fixes or takes; every other bit is ignored. -/
def Obligations.DecodeIsTheOpcodeMap : Prop :=
  ∀ (t : TWord) (i : Instr), decode t = .op i ↔ t &&& i.careMask = encode i

/-- 30_encoding.md R76, R79 and 60_exceptions.md R225: the error responses have the priority ERR_UNMAPPED, ERR_ACCESS,
ERR_CMD, each exactly where the classes of R79 put it. -/
def Obligations.ErrorCausesByPriority : Prop :=
  ∀ t : TWord,
    (decode t = .err .unmapped ↔ (t.fields.aligned && t.fields.mapped) = false) ∧
    (decode t = .err .access ↔
      (t.fields.aligned && t.fields.mapped) = true ∧ (t.fields.writable && t.fields.readable) = false) ∧
    (decode t = .err .cmd ↔
      (t.fields.aligned && t.fields.mapped && t.fields.writable && t.fields.readable) = true ∧
        t.fields.commandDefined = false)

/-- 30_encoding.md R80, 95_test_vectors.md section 2.2: words written out from the encodings decode to what they stand
for. -/
def Obligations.SampleWordsDecode : Prop :=
  decode 0x00000000000#41 = .op .rdId ∧ decode 0x0000000FFFF#41 = .op .rdId ∧
  decode 0x10800000002#41 = .op .cmdProcessStereo ∧ decode 0x10800000003#41 = .op .cmdFeatPush ∧
  decode 0x110473B8000#41 = .op (.wrSampleRate 0x473B8000#32) ∧ decode 0x128FFFFFFFF#41 = .op (.wrShape .squareSoft) ∧
  decode 0x1403F000000#41 = .op (.wrDataL 0x3F000000#32) ∧ decode 0x04C00000000#41 = .op .rdZcr

/-! ## Responses, steps -/

/-- 60_exceptions.md R222. -/
def Obligations.UnmappedAddressIsRefusedWithoutEffect : Prop :=
  (∀ (s : State) (t : TWord) (rest : List PortEvent), s.pending = .transact t :: rest →
    (t.fields.addr.toNat % 4 ≠ 0 ∨ t.fields.addr = 0x3C#8 ∨ 0x50 ≤ t.fields.addr.toNat) →
    step s = .next { s with pending := rest, resp := .errUnmapped, rdata := 0#32 }) ∧
  Resp.errUnmapped.code = 1#2 ∧
  assemble (.rdAt 0x3C#8) = 0x03C00000000#41 ∧ decode 0x03C00000000#41 = .err .unmapped ∧
  assemble (.wrAt 0x15#8 (.integer 0)) = 0x11500000000#41 ∧ decode 0x11500000000#41 = .err .unmapped ∧
  Reg.rate.addr = 0x14#8

/-- 60_exceptions.md R223. -/
def Obligations.WrongAccessIsRefusedWithoutEffect : Prop :=
  (∀ (s : State) (t : TWord) (rest : List PortEvent) (r : Reg), s.pending = .transact t :: rest →
    t.fields.addr = r.addr →
    (t.fields.write = true ∧
        r ∈ [Reg.id, .status, .featCount, .stereoOfs, .phase, .rateSm, .depthSm, .smoothCoef, .rms, .zcr]) ∨
      (t.fields.write = false ∧ r ∈ [Reg.cmd, .stereoDeg]) →
    step s = .next { s with pending := rest, resp := .errAccess, rdata := 0#32 }) ∧
  Resp.errAccess.code = 2#2 ∧
  decode (assemble (.wr .id (.integer 0))) = .err .access ∧ decode (assemble (.rd .cmd)) = .err .access

/-- 60_exceptions.md R224. -/
def Obligations.ReservedCommandIsRefusedWithoutEffect : Prop :=
  (∀ (s : State) (t : TWord) (rest : List PortEvent), s.pending = .transact t :: rest →
    t.fields.write = true → t.fields.addr = Reg.cmd.addr →
    (t.fields.data.extractLsb' 4 28 ≠ 0#28 ∨ 5 ≤ (t.fields.data.extractLsb' 0 4).toNat) →
    step s = .next { s with pending := rest, resp := .errCmd, rdata := 0#32 }) ∧
  (∀ t : TWord, decode t = .err .cmd → t.fields.write = true ∧ t.fields.addr = Reg.cmd.addr) ∧
  Resp.errCmd.code = 3#2 ∧
  decode (assemble (.wr .cmd (.integer 5))) = .err .cmd ∧
  decode (assemble (.wr .cmd (.pattern 0x80000001#32))) = .err .cmd

/-- 00_scope.md R5, 30_encoding.md R76: a step runs the operation that the next transaction word names, in the state from
which that word has been taken. The second clause is the model's own, not a rule of the spec: that a word comes to the block
by `State.withFetchWord` (notes/assumptions/1.md, DESIGN CHOICE), and that `decodeTableWord` and it take a row's 48-bit
number as its low 41 bits (notes/assumptions/11.md, DESIGN CHOICE). -/
def Obligations.StepRunsTheDecodedOperation : Prop :=
  (∀ (s : State) (t : TWord) (rest : List PortEvent) (i : Instr),
    s.pending = .transact t :: rest → decode t = .op i → step s = exec i { s with pending := rest }) ∧
  ∀ (s : State) (nbits w : Nat) (i : Instr),
    decodeTableWord nbits w = some i → step (s.withFetchWord nbits w) = exec i s

/-- The model's form of the reset input and of a port on which nothing is presented (notes/assumptions/2.md and 3.md):
70_reset_and_hazards.md R241, R252. The state after `rst` has resp = OKAY and rdata = 0; these two values are the model's
choice (notes/assumptions/4.md, DESIGN CHOICE, unsafe), no rule of the spec. -/
def Obligations.ResetInputAndIdlePort : Prop :=
  (∀ (s : State) (rest : List PortEvent), s.pending = .rst :: rest →
    step s = .next { State.reset with nanDraw := s.nanDraw, pending := rest }) ∧
  ∀ s : State, s.pending = [] → step s = .next s

/-- 20_memory.md R61 to R63, 70_reset_and_hazards.md R250, R252: whatever two agents present, in every interleaving, every
event is accepted and the run goes on to its end; and the state after a sequence of events is that of the events one by
one, whatever the host presents later. -/
def Obligations.RunsTakeEveryEventInOrder : Prop :=
  (∀ (xs ys zs : List PortEvent) (s : State), Interleaves xs ys zs →
    ∃ t, Sys2Proof.core.run (xs.length + ys.length) { s with pending := zs } = .next t ∧ t.pending = []) ∧
  ∀ (xs ys : List PortEvent) (s t : State),
    Sys2Proof.core.run xs.length { s with pending := xs } = .next t →
    Sys2Proof.core.run xs.length { s with pending := xs ++ ys } = .next { t with pending := ys }

/-- 60_exceptions.md R221, R226: every operation completes with OKAY, whose code is 0, and every step goes on. -/
def Obligations.EveryOperationCompletes : Prop :=
  (∀ (i : Instr) (s : State), ∃ t, exec i s = .next t ∧ t.resp = .okay ∧ t.pending = s.pending ∧
    (i.isRead = false → t.rdata = 0#32)) ∧
  Resp.okay.code = 0#2 ∧
  ∀ s : State, ∃ t, step s = .next t ∧ t.pending = s.pending.tail

/-! ## Reads -/

/-- 42_engine_config.md R143, R145, R147, R149, R151, R153 to R158, with the reset values and examples they name, but for
the examples of R156 to R158 that rest on the reference EXP_F32 or on a PROCESS command. -/
def Obligations.EngineReads : Prop :=
  (ReadsAs .rdSampleRate .sampleRate 0x10#8 (fun s => s.fs) ∧ State.reset.fs = 0x473B8000#32 ∧
    ∀ (v : Word) (s : State), fGt v F_ZERO = false →
      ∃ t, exec (.wrSampleRate v) s = .next t ∧ t.fs = 0x473B8000#32) ∧
  ReadsAs .rdId .id 0x00#8 (fun _ => 0x54520100#32) ∧
  (ReadsAs .rdRateSm .rateSm 0x30#8 (fun s => s.smR.y) ∧ State.reset.smR.y = 0x40A00000#32) ∧
  (ReadsAs .rdDepthSm .depthSm 0x34#8 (fun s => s.smD.y) ∧ State.reset.smD.y = 0x00000000#32) ∧
  ReadsAs .rdSmoothCoef .smoothCoef 0x38#8 (fun s => s.smR.a) ∧
  (ReadsAs .rdPhase .phase 0x2C#8 (fun s => s.phase) ∧ State.reset.phase = 0x00000000#32) ∧
  (ReadsAs .rdRate .rate 0x14#8 (fun s => s.rateT) ∧ State.reset.rateT = 0x40A00000#32) ∧
  (ReadsAs .rdDepth .depth 0x18#8 (fun s => s.depthT) ∧ State.reset.depthT = 0x00000000#32) ∧
  (ReadsAs .rdWet .wet 0x1C#8 (fun s => s.wet) ∧ State.reset.wet = 0x3F800000#32) ∧
  (ReadsAs .rdStereoOfs .stereoOfs 0x24#8 (fun s => s.ofs) ∧
    (∀ d : Word, decode (Transaction.word ⟨true, 0x24#8, d⟩) = .err .access) ∧
    ∀ s : State, ∃ t, exec (.wrStereoDeg 0x42B40000#32) s = .next t ∧ t.ofs = 0x3E800000#32) ∧
  (ReadsAs .rdShape .shape 0x28#8 (fun s => s.shape.code.setWidth 32) ∧
    ∀ s : State, ∃ t, hostWrite .shape 0xFFFFFFFF#32 s = .next t ∧ t.shape.code.setWidth 32 = 0x00000003#32)

/-- 41_feature.md R128 to R131 and 10_state.md R34, R35: STATUS, FEAT_COUNT, RMS and ZCR as they read. -/
def Obligations.FeatureReads : Prop :=
  ReadsAs .rdStatus .status 0x04#8 (fun s => if s.win.length = 1024 then 1#32 else 0#32) ∧
  ReadsAs .rdFeatCount .featCount 0x0C#8 (fun s => (BitVec.ofNat 11 s.win.length).setWidth 32) ∧
  ReadsAs .rdRms .rms 0x48#8 (fun s => rmsOf s.win) ∧
  ReadsAs .rdZcr .zcr 0x4C#8 (fun s => zcrOf s.win) ∧
  (∀ s : State, s.readyO = true ↔ s.win.length = 1024) ∧
  rmsOf [0x3F000000#32, 0xBE800000#32, 0#32, 0#32, 0x3F000000#32] = 0x3EABBAE2#32 ∧
  zcrOf [0x3F000000#32, 0xBE800000#32, 0#32, 0#32, 0x3F000000#32] = 0x3F000000#32

/-- 43_engine_process.md R183 to R186: the data registers are stored and read bit for bit. -/
def Obligations.DataRegistersStoreEveryPattern : Prop :=
  ReadsAs .rdDataL .dataL 0x40#8 (fun s => s.dataL) ∧
  ReadsAs .rdDataR .dataR 0x44#8 (fun s => s.dataR) ∧
  WritesAs .wrDataL .dataL 0x40#8 (fun v s => { s with dataL := v }) ∧
  WritesAs .wrDataR .dataR 0x44#8 (fun v s => { s with dataR := v }) ∧
  asmPattern (.decimal false 1 4) = 0x3E800000#32 ∧ asmPattern (.decimal true 1 2) = 0xBF000000#32

/-- 20_memory.md R57: "Every read of a mapped readable register returns a function of the state and changes no state; two
reads of one register with no write between them return the same word". -/
def Obligations.ReadsChangeNothingAndRepeat : Prop :=
  ∀ (i : Instr) (s t : State), i.isRead = true → exec i s = .next t →
    SameElements s t ∧ t.nanDraw = s.nanDraw ∧ t.pending = s.pending ∧ exec i t = .next t

/-! ## Writes -/

/-- 42_engine_config.md R142: WR_SAMPLE_RATE with its final state. The example that rests on the reference EXP_F32 is not
part of the statement. -/
def Obligations.SampleRateWriteReseedsBothSmoothers : Prop :=
  WritesAs .wrSampleRate .sampleRate 0x10#8 (fun v s =>
    let fs := if fGt v F_ZERO then v else 0x473B8000#32
    { s with
      fs := fs
      smR := { y := s.rateT, tau := 0x3C23D70A#32, fs := fs, a := smCoef 0x3C23D70A#32 fs }
      smD := { y := s.depthT, tau := 0x3C23D70A#32, fs := fs, a := smCoef 0x3C23D70A#32 fs } }) ∧
  (∀ v : Word, fIsNaN v = true ∨ fIsZero v = true ∨ fSign v = true → fGt v F_ZERO = false) ∧
  (∀ v : Word, fIsNaN v = false → fIsZero v = false → fSign v = false → fGt v F_ZERO = true) ∧
  smCoef 0x3C23D70A#32 0x00000001#32 = F_ZERO ∧ smCoef 0x3C23D70A#32 0x7F800000#32 = F_ONE

/-- 42_engine_config.md R144. -/
def Obligations.RateWriteFloorsAtRateMin : Prop :=
  WritesAs .wrRate .rate 0x14#8 (fun v s => { s with rateT := if fGe v 0x3A83126F#32 then v else 0x3A83126F#32 }) ∧
  fGe 0x7F800000#32 0x3A83126F#32 = true ∧
  (∀ v : Word, fIsNaN v = true ∨ fIsZero v = true ∨ fSign v = true → fGe v 0x3A83126F#32 = false) ∧
  fOfRat true 3 1 = 0xC0400000#32 ∧
  ∀ s : State, ∃ t, exec (.wrRate 0xC0400000#32) s = .next t ∧ t.rateT = 0x3A83126F#32

/-- 42_engine_config.md R146, R148. -/
def Obligations.DepthAndWetWritesClamp : Prop :=
  WritesAs .wrDepth .depth 0x18#8 (fun v s => { s with depthT := clampD v F_ZERO F_ONE }) ∧
  WritesAs .wrWet .wet 0x1C#8 (fun v s => { s with wet := clampD v F_ZERO F_ONE }) ∧
  clampD 0x80000000#32 F_ZERO F_ONE = 0x80000000#32 ∧
  (∀ v : Word, fIsNaN v = true ∨ (fSign v = true ∧ fIsZero v = false) → clampD v F_ZERO F_ONE = F_ZERO) ∧
  (∀ v : Word, fGt v F_ONE = true → clampD v F_ZERO F_ONE = F_ONE) ∧
  fGt 0x7F800000#32 F_ONE = true ∧
  clampD 0x40000000#32 F_ZERO F_ONE = 0x3F800000#32 ∧ clampD 0x3FC00000#32 F_ZERO F_ONE = 0x3F800000#32

/-- 42_engine_config.md R150. -/
def Obligations.StereoDegreesBecomeAnOffset : Prop :=
  WritesAs .wrStereoDeg .stereoDeg 0x20#8 (fun v s => { s with ofs := fDiv none (clampD v F_ZERO 0x43340000#32) 0x43B40000#32 }) ∧
  (∀ d : Word, decode (Transaction.word ⟨false, 0x20#8, d⟩) = .err .access) ∧
  offsetOfDegrees 0x43340000#32 = 0x3F000000#32 ∧ offsetOfDegrees 0x42B40000#32 = 0x3E800000#32 ∧
  offsetOfDegrees 0x80000000#32 = 0x80000000#32 ∧
  (∀ v : Word, fIsNaN v = true ∨ (fSign v = true ∧ fIsZero v = false) → offsetOfDegrees v = F_ZERO) ∧
  (∀ v : Word, fGt v 0x43340000#32 = true → offsetOfDegrees v = 0x3F000000#32) ∧
  fGt 0x7F800000#32 0x43340000#32 = true ∧
  offsetOfDegrees 0x3F800000#32 = 0x3B360B61#32

/-- 42_engine_config.md R150, 10_state.md R26: the stored offset is in [-0.0, 0.5] whatever is written, and a larger angle
gives no smaller offset. -/
def Obligations.StereoOffsetInHalfCycleAndMonotone : Prop :=
  (∀ v : Word, fIn (offsetOfDegrees v) F_ZERO F_HALF = true) ∧
  ∀ v w : Word, fLe v w = true → fLe (offsetOfDegrees v) (offsetOfDegrees w) = true

/-- 30_encoding.md R73, R78 and 42_engine_config.md R152. -/
def Obligations.ShapeWriteTakesTwoBits : Prop :=
  (∀ d : Word, ∃ sh : Shape, decode (Transaction.word ⟨true, 0x28#8, d⟩) = .op (.wrShape sh) ∧
    sh.code = d.extractLsb' 0 2) ∧
  (∀ (sh : Shape) (s : State),
    exec (.wrShape sh) s = .next { s with shape := sh, resp := .okay, rdata := 0#32 }) ∧
  Shape.sine.code = 0#2 ∧ Shape.triangle.code = 1#2 ∧ Shape.square.code = 2#2 ∧ Shape.squareSoft.code = 3#2 ∧
  decode (Transaction.word ⟨true, 0x28#8, 4#32⟩) = .op (.wrShape .sine) ∧
  decode (Transaction.word ⟨true, 0x28#8, 0xFFFFFFFF#32⟩) = .op (.wrShape .squareSoft) ∧
  decode (Transaction.word ⟨true, 0x28#8, 1#32⟩) = .op (.wrShape .triangle)

/-- 20_memory.md R58: the writes to DATA_L, DATA_R, RATE, DEPTH, WET, STEREO_DEG and SHAPE, the commands FEAT_RESET and
NOP, and a SAMPLE_RATE write with no PROCESS command between, are idempotent. -/
def Obligations.SettersAreIdempotent : Prop :=
  ∀ (i : Instr) (s t : State), i.isRead = false → i.isProcess = false → i ≠ .cmdFeatPush →
    exec i s = .next t → exec i t = .next t

/-- 10_state.md R22 to R31: each element changes only through the operations its rule names. -/
def Obligations.ElementsHaveOnlyTheirWriters : Prop :=
  ∀ (i : Instr) (s t : State), exec i s = .next t →
    (t.fs ≠ s.fs → ∃ v, i = .wrSampleRate v) ∧
    (t.rateT ≠ s.rateT → ∃ v, i = .wrRate v) ∧
    (t.depthT ≠ s.depthT → ∃ v, i = .wrDepth v) ∧
    (t.wet ≠ s.wet → ∃ v, i = .wrWet v) ∧
    (t.ofs ≠ s.ofs → ∃ v, i = .wrStereoDeg v) ∧
    (t.shape ≠ s.shape → ∃ sh, i = .wrShape sh) ∧
    (t.phase ≠ s.phase → i.isProcess = true) ∧
    (t.smR ≠ s.smR ∨ t.smD ≠ s.smD → i.isProcess = true ∨ ∃ v, i = .wrSampleRate v) ∧
    (t.smR.a ≠ s.smR.a ∨ t.smR.tau ≠ s.smR.tau ∨ t.smR.fs ≠ s.smR.fs → ∃ v, i = .wrSampleRate v) ∧
    (t.smD.a ≠ s.smD.a ∨ t.smD.tau ≠ s.smD.tau ∨ t.smD.fs ≠ s.smD.fs → ∃ v, i = .wrSampleRate v) ∧
    (t.dataL ≠ s.dataL → i.isProcess = true ∨ ∃ v, i = .wrDataL v) ∧
    (t.dataR ≠ s.dataR → i = .cmdProcessStereo ∨ ∃ v, i = .wrDataR v) ∧
    (t.win ≠ s.win → i = .cmdFeatPush ∨ i = .cmdFeatReset)

/-! ## Commands -/

/-- 43_engine_process.md R182. -/
def Obligations.NopChangesNothing : Prop :=
  CommandsAs .cmdNop .nop 0#32 (fun s => s)

/-- 43_engine_process.md R179, R180: one mono frame, the steps of R179 written out over the functions `smNext`, `wave`,
`gain` and `mix`; DATA_R and everything else is left. Those functions are written out by statements of their own:
SmootherAtTheCoefficientEnds (R106), WaveformsInUnitInterval (R171 to R175), GainBounds (R176) and OutputsClampedUnlessNaN
(R177). `k` is the occasion of the free NaN choices. -/
def Obligations.MonoFrameResult : Prop :=
  CommandsAs .cmdProcessMono .processMono 1#32 (fun s =>
    let k := some s.nanDraw
    let rs := smNext k s.smR.a s.smR.y s.rateT
    let ds := smNext k s.smD.a s.smD.y s.depthT
    let q := fDiv k rs s.fs
    { s with
      smR := { s.smR with y := rs }
      smD := { s.smD with y := ds }
      dataL := mix k s.wet s.dataL (gain k ds (wave k s.shape s.phase))
      phase := frac (fAdd k s.phase (if fGe q 0x33800000#32 then q else 0x33800000#32))
      nanDraw := s.nanDraw + 1 })

/-- 43_engine_process.md R179, R181: one stereo frame, over the same functions as MonoFrameResult; the right lane differs
from the left in its sample and its phase. -/
def Obligations.StereoFrameResult : Prop :=
  CommandsAs .cmdProcessStereo .processStereo 2#32 (fun s =>
    let k := some s.nanDraw
    let rs := smNext k s.smR.a s.smR.y s.rateT
    let ds := smNext k s.smD.a s.smD.y s.depthT
    let q := fDiv k rs s.fs
    { s with
      smR := { s.smR with y := rs }
      smD := { s.smD with y := ds }
      dataL := mix k s.wet s.dataL (gain k ds (wave k s.shape s.phase))
      dataR := mix k s.wet s.dataR (gain k ds (wave k s.shape (frac (fAdd k s.phase s.ofs))))
      phase := frac (fAdd k s.phase (if fGe q 0x33800000#32 then q else 0x33800000#32))
      nanDraw := s.nanDraw + 1 })

/-- 43_engine_process.md R180, R181: a mono frame neither reads nor writes DATA_R and no output of it depends on OFS; in a
stereo frame neither lane's result depends on the other lane's input. -/
def Obligations.LanesAreIndependent : Prop :=
  (∀ (s t : State) (x o : Word), exec .cmdProcessMono s = .next t →
    exec .cmdProcessMono { s with dataR := x, ofs := o } = .next { t with dataR := x, ofs := o }) ∧
  (∀ (s t : State) (x : Word), exec .cmdProcessStereo s = .next t →
    ∃ u, exec .cmdProcessStereo { s with dataR := x } = .next u ∧ u.dataL = t.dataL ∧ u.phase = t.phase ∧
      u.smR = t.smR ∧ u.smD = t.smD) ∧
  ∀ (s t : State) (x : Word), exec .cmdProcessStereo s = .next t →
    ∃ u, exec .cmdProcessStereo { s with dataL := x } = .next u ∧ u.dataR = t.dataR

/-- 41_feature.md R126, with the fold of equal samples of R122 (below 2^127 in magnitude it is the sample itself, -0.0
included). Where READY is concerned the window is in its legal range (10_state.md R31). -/
def Obligations.FeaturePushAppendsAndEvicts : Prop :=
  CommandsAs .cmdFeatPush .featPush 3#32 (fun s =>
    { s with
      win := winPush s.win (fMul (some s.nanDraw) 0x3F000000#32 (fAdd (some s.nanDraw) s.dataL s.dataR))
      nanDraw := s.nanDraw + 1 }) ∧
  (∀ (win : List Word) (x : Word), win.length < 1024 → winPush win x = win ++ [x]) ∧
  (∀ (win : List Word) (x : Word), win.length = 1024 →
    winPush win x = win.drop 1 ++ [x] ∧ (winPush win x).length = 1024) ∧
  (∀ (s t : State), s.win.length ≤ 1024 → exec .cmdFeatPush s = .next t →
    (t.readyO = true ↔ 1023 ≤ s.win.length)) ∧
  (∀ k : Draw, mid k 0x3F400000#32 0x3E800000#32 = 0x3F000000#32) ∧
  ∀ (k : Draw) (x : Word), fCode x < 0x7F000000 → mid k x x = x

/-- 41_feature.md R127. -/
def Obligations.FeatureResetEmptiesTheWindow : Prop :=
  CommandsAs .cmdFeatReset .featReset 4#32 (fun s => { s with win := [] }) ∧
  ∀ s t : State, exec .cmdFeatReset s = .next t →
    exec .cmdFeatReset t = .next t ∧ t.readyO = false ∧ statusWord t = 0#32 ∧ featCountWord t = 0#32 ∧ rmsOf t.win = F_ZERO ∧ zcrOf t.win = F_ZERO

/-- 41_feature.md R121, R128 and 70_reset_and_hazards.md R243, R249: n pushes from an empty window leave min(n, 1024)
samples, and READY is 1 from the 1024th on. -/
def Obligations.PushesFillTheWindowOnce : Prop :=
  ∀ (n : Nat) (s : State), s.win = [] →
    ∃ t, hostRun (List.replicate n (.cmd .featPush)) s = .next t ∧ t.win.length = min n 1024 ∧
      (t.readyO = true ↔ 1024 ≤ n)

/-- 41_feature.md R121: no operation of the engine or of the port reads or writes the window but the six that use it. -/
def Obligations.EngineIgnoresTheWindow : Prop :=
  ∀ (i : Instr) (s t : State) (w : List Word), i.usesWindow = false → exec i s = .next t →
    t.win = s.win ∧ exec i { s with win := w } = .next { t with win := w }

/-! ## Arithmetic -/

/-- 00_scope.md R7: each sum, difference, product and quotient of finite values is the exact result rounded once, to nearest,
ties to even (Safety.lean `RoundsTo`): finite exactly below 2^128 - 2^103 in magnitude, the infinity of the exact sign from
there on. A product's or quotient's sign, of a zero too, is the exclusive or of the signs. R9, R13 and 30_encoding.md R82:
so is f32 of a fraction, which an assembler's decimal stands for, and of a whole number. Exact values are in units of
2^-149. -/
def Obligations.ArithmeticRoundsToNearestEven : Prop :=
  (∀ (k : Draw) (a b : Word), fIsFinite a = true → fIsFinite b = true →
    RoundsTo (fAdd k a b) (fVal a + fVal b) 1 ∧
    RoundsTo (fSub k a b) (fVal a - fVal b) 1 ∧
    (RoundsTo (fMul k a b) (fVal a * fVal b) (2 ^ 149) ∧ fSign (fMul k a b) = (fSign a != fSign b)) ∧
    (fIsZero b = false →
      RoundsTo (fDiv k a b) ((if fSign b then -fVal a else fVal a) * 2 ^ 149) (fMag b) ∧
      fSign (fDiv k a b) = (fSign a != fSign b))) ∧
  (∀ (neg : Bool) (num den : Nat), 0 < den →
    RoundsTo (fOfRat neg num den) (if neg then -(num * 2 ^ 149 : Int) else num * 2 ^ 149) den ∧
    fSign (fOfRat neg num den) = neg ∧ asmPattern (.decimal neg num den) = fOfRat neg num den) ∧
  ∀ n : Nat, RoundsTo (fOfNat n) (n * 2 ^ 149) 1 ∧ fSign (fOfNat n) = false

/-- 00_scope.md R8: SQRT_F32 of a positive finite value lies between the midpoints beside the exact root, so it is the
correctly rounded one (a square root is never a midpoint); and its special values. -/
def Obligations.SquareRootIsCorrectlyRounded : Prop :=
  (∀ (k : Draw) (a : Word), fIsFinite a = true → fSign a = false → fIsZero a = false →
    fSign (fSqrt k a) = false ∧ 0 < fCode (fSqrt k a) ∧ fCode (fSqrt k a) < INF_CODE ∧
    (codeMag (fCode (fSqrt k a) - 1) + codeMag (fCode (fSqrt k a))) ^ 2 ≤ 4 * (fMag a * 2 ^ 149) ∧
    4 * (fMag a * 2 ^ 149) ≤ (codeMag (fCode (fSqrt k a)) + codeMag (fCode (fSqrt k a) + 1)) ^ 2) ∧
  ∀ k : Draw, fSqrt k 0x80000000#32 = 0x80000000#32 ∧ fSqrt k 0x00000000#32 = 0x00000000#32 ∧
    fSqrt k 0x7F800000#32 = 0x7F800000#32 ∧
    ∀ a : Word, fSign a = true → fIsZero a = false → fIsNaN (fSqrt k a) = true

/-- 00_scope.md R7, R13: the special values the rules name, NaN operands, exact zero sums, comparisons, and the exactness
of small integers. -/
def Obligations.SpecialValuesOfArithmetic : Prop :=
  (∀ (k : Draw) (a b : Word), fIsNaN a = true ∨ fIsNaN b = true →
    fIsNaN (fAdd k a b) = true ∧ fIsNaN (fSub k a b) = true ∧ fIsNaN (fMul k a b) = true ∧ fIsNaN (fDiv k a b) = true ∧
    fLt a b = false ∧ fLe a b = false ∧ fGt a b = false ∧ fGe a b = false ∧ fEq a b = false) ∧
  (∀ k : Draw, fIsNaN (fSub k 0x7F800000#32 0x7F800000#32) = true ∧ fIsNaN (fMul k 0x00000000#32 0x7F800000#32) = true ∧
    fIsNaN (fDiv k 0x00000000#32 0x00000000#32) = true ∧
    fAdd k 0x80000000#32 0x80000000#32 = 0x80000000#32 ∧ fAdd k 0x00000000#32 0x80000000#32 = 0x00000000#32) ∧
  (∀ (k : Draw) (a : Word), fIsFinite a = true → fIsZero a = false →
    fAdd k a (fNeg a) = 0x00000000#32 ∧ fSub k a a = 0x00000000#32) ∧
  fEq 0x00000000#32 0x80000000#32 = true ∧
  ∀ n : Nat, n ≤ 2 ^ 24 → fIsFinite (fOfNat n) = true ∧ fVal (fOfNat n) = (n : Int) * 2 ^ 149

/-- 00_scope.md R8: the properties that every instance of SIN_F32, TANH_F32 and EXP_F32 has. -/
def Obligations.ElementaryFunctionProperties : Prop :=
  (∀ x : Word, fIsZero x = true → sinF32 x = x ∧ expF32 x = F_ONE) ∧
  (∀ x : Word, fIsFinite x = true → fIn (sinF32 x) F_NEG_ONE F_ONE = true) ∧
  (∀ x : Word, fIsNaN x = false → fIn (tanhF32 x) F_NEG_ONE F_ONE = true) ∧
  expF32 0xFF800000#32 = F_ZERO ∧
  (∀ x : Word, fLe x F_ZERO = true → fIn (expF32 x) F_ZERO F_ONE = true) ∧
  ∀ x : Word, fIsNaN x = true → fIsNaN (sinF32 x) = true ∧ fIsNaN (tanhF32 x) = true ∧ fIsNaN (expF32 x) = true

/-- 00_scope.md R14. -/
def Obligations.ClampKeepsOrReplaces : Prop :=
  ∀ v lo hi : Word,
    (fIsNaN v = true → clampD v lo hi = lo) ∧
    (fIsNaN v = false → fLt v lo = true → clampD v lo hi = lo) ∧
    (fIsNaN v = false → fLt v lo = false → fGt v hi = true → clampD v lo hi = hi) ∧
    (fLe lo v = true → fLe v hi = true → clampD v lo hi = v) ∧
    (fLe lo 0x00000000#32 = true → fLe 0x00000000#32 hi = true → clampD 0x80000000#32 lo hi = 0x80000000#32) ∧
    (fIsNaN lo = false → fIsFinite hi = true → clampD 0x7F800000#32 lo hi = hi) ∧
    (fIsFinite lo = true → clampD 0xFF800000#32 lo hi = lo)

/-- 00_scope.md R15: for x >= 0 the wrap removes exactly the whole part and lands in [+0.0, 1.0); below 1 it keeps x, in
[1, 2) it is x - 1.0; a value that is not finite gives +0.0. -/
def Obligations.WrapRemovesTheWholePart : Prop :=
  (∀ x : Word, fIsFinite x = true → fGe x F_ZERO = true →
    fVal (frac x) = fVal x % 2 ^ 149 ∧ isPhase (frac x) = true ∧
    (fLt x F_ONE = true → fSign x = false → frac x = x) ∧
    (∀ k : Draw, fGe x F_ONE = true → fLt x 0x40000000#32 = true → frac x = fSub k x F_ONE)) ∧
  ∀ x : Word, fIsFinite x = false → frac x = F_ZERO

/-! ## Smoother -/

/-- 40_smoother.md R106: the step written out, a * (y + EPS_SMOOTH) + (1.0 - a) * T with one rounding an operation, which
writes the output only; its corner cases (b) and (c): with a = 1 the output becomes y + EPS_SMOOTH whatever the finite
target, and an infinite target gives a NaN; with a = +0 a finite output becomes its target at once (a zero target gives a
zero), and from an infinite output the result is a NaN; and, at the coefficient 0x3F7F779C of its worked example, that
example and the targets that (a) lists. -/
def Obligations.SmootherAtTheCoefficientEnds : Prop :=
  (∀ (k : Draw) (m : Smoother) (target : Word),
    smNext k m.a m.y target =
      fAdd k (fMul k m.a (fAdd k m.y 0x1E3CE508#32)) (fMul k (fSub k 0x3F800000#32 m.a) target) ∧
    smProcess k m target = { m with y := smNext k m.a m.y target }) ∧
  (∀ (k : Draw) (y target : Word), fIsNaN y = false → fIsNaN target = false →
    (fIsFinite target = true → smNext k F_ONE y target = fAdd k y EPS_SMOOTH) ∧
    (fIsInf target = true → fIsNaN (smNext k F_ONE y target) = true) ∧
    (fIsFinite y = true → fIsZero target = false → smNext k F_ZERO y target = target) ∧
    (fIsFinite y = true → fIsZero target = true → fIsZero (smNext k F_ZERO y target) = true) ∧
    (fIsInf y = true → fIsNaN (smNext k F_ZERO y target) = true)) ∧
  ∀ k : Draw, smNext k 0x3F7F779C#32 0x00000000#32 0x3F800000#32 = 0x3B086400#32 ∧
    smNext k 0x3F7F779C#32 0x3F800000#32 0x3F800000#32 = 0x3F800000#32 ∧
    smNext k 0x3F7F779C#32 0x40A00000#32 0x40A00000#32 = 0x40A00000#32 ∧
    smNext k 0x3F7F779C#32 0x42000000#32 0x42000000#32 = 0x42000000#32 ∧
    smNext k 0x3F7F779C#32 0x42800000#32 0x42800000#32 = 0x42800000#32

/-- 40_smoother.md R102, 10_state.md R29: the coefficient written out, EXP_F32(-1.0 / (tau * fs)) with one rounding an
operation; a product of +inf gives 1 and a product of +0 gives +0; for tau > 0 and fs > 0 it is in [0, 1], for every instance
of EXP_F32; and the arguments of EXP_F32 that the worked examples of R102 and R104 name. -/
def Obligations.CoefficientInUnitInterval : Prop :=
  (∀ tau fs : Word,
    smCoef tau fs = expF32 (fDiv none 0xBF800000#32 (fMul none tau fs)) ∧
    (fMul none tau fs = 0x7F800000#32 → smCoef tau fs = 0x3F800000#32) ∧
    (fMul none tau fs = 0x00000000#32 → smCoef tau fs = 0x00000000#32)) ∧
  (smCoef 0x3C23D70A#32 0x473B8000#32 = expF32 0xBB088889#32 ∧
    smCoef 0x3C23D70A#32 0x43800000#32 = expF32 0xBEC80000#32) ∧
  ∀ tau fs : Word, fGt tau F_ZERO = true → fGt fs F_ZERO = true → fIn (smCoef tau fs) F_ZERO F_ONE = true

/-- 40_smoother.md R103, R104, R105: the configuration operations. -/
def Obligations.SmootherConfiguration : Prop :=
  ∀ (m : Smoother) (v : Word),
    smSetSampleRate m v =
      { m with fs := if fGt v F_ZERO then v else 0x473B8000#32,
               a := smCoef m.tau (if fGt v F_ZERO then v else 0x473B8000#32) } ∧
    smSetTimeConstant m v =
      { m with tau := if fGe v 0x358637BD#32 then v else 0x358637BD#32,
               a := smCoef (if fGe v 0x358637BD#32 then v else 0x358637BD#32) m.fs } ∧
    (fIsNaN v = true → (smSetTimeConstant m v).tau = 0x358637BD#32 ∧ (smSetSampleRate m v).fs = 0x473B8000#32) ∧
    (smSetTimeConstant m 0x3C23D70A#32).tau = 0x3C23D70A#32 ∧
    smReset m v = { m with y := v }

/-- 40_smoother.md R106, R187 (g): from an output and a target in [0, 1] a smoother with its coefficient in [0, 1] stays in
[0, 1]. -/
def Obligations.SmootherStaysInUnitInterval : Prop :=
  ∀ (k : Draw) (a y target : Word), fIn a F_ZERO F_ONE = true → fIn y F_ZERO F_ONE = true →
    fIn target F_ZERO F_ONE = true → fIn (smNext k a y target) F_ZERO F_ONE = true

/-! ## Waveforms, gain, mixer, phase -/

/-- 43_engine_process.md R171 to R175, R187 (b): each waveform written out, Square being exactly 1.0 where
SIN_F32(TWO_PI_F32 * p) >= 0 and +0.0 elsewhere; for every phase and every instance of SIN_F32 and TANH_F32 each waveform is
in [0, 1]; and the values at phase +0.0 that hold for every instance. -/
def Obligations.WaveformsInUnitInterval : Prop :=
  (∀ (k : Draw) (p : Word),
    wave k .sine p = fMul k 0x3F000000#32 (fAdd k 0x3F800000#32 (sinF32 (fMul k 0x40C90FDB#32 p))) ∧
    wave k .triangle p =
      fMul k 0x3F000000#32 (fAdd k
        (if fLt p 0x3F000000#32 then fSub k (fMul k 0x40800000#32 p) 0x3F800000#32
         else fSub k 0x40400000#32 (fMul k 0x40800000#32 p))
        0x3F800000#32) ∧
    wave k .square p = (if fGe (sinF32 (fMul k 0x40C90FDB#32 p)) 0x00000000#32 then 0x3F800000#32 else 0x00000000#32) ∧
    wave k .squareSoft p =
      fMul k 0x3F000000#32 (fAdd k 0x3F800000#32
        (tanhF32 (fMul k 0x40400000#32 (sinF32 (fMul k 0x40C90FDB#32 p)))))) ∧
  (∀ (k : Draw) (sh : Shape) (p : Word), isPhase p = true →
    fIn (wave k sh p) F_ZERO F_ONE = true ∧ (wave k .square p = F_ZERO ∨ wave k .square p = F_ONE)) ∧
  ∀ k : Draw, wave k .sine 0x00000000#32 = 0x3F000000#32 ∧ wave k .square 0x00000000#32 = 0x3F800000#32

/-- 43_engine_process.md R173 and 95_test_vectors.md section 2.5: the triangle's two ramps in exact terms, and its
values. Up to p = 0.5 the exact ramp is 2p and from there 2 - 2p; the rounded value is within one unit in the last place
of 1.0 of it. -/
def Obligations.TriangleFollowsItsRamps : Prop :=
  ∀ k : Draw,
    (∀ p : Word, isPhase p = true → fLt p F_HALF = true →
      |fVal (wave k .triangle p) - 2 * fVal p| ≤ 2 ^ 125) ∧
    (∀ p : Word, isPhase p = true → fGe p F_HALF = true →
      |fVal (wave k .triangle p) - (2 ^ 150 - 2 * fVal p)| ≤ 2 ^ 125) ∧
    wave k .triangle 0x00000000#32 = 0x00000000#32 ∧ wave k .triangle 0x3E000000#32 = 0x3E800000#32 ∧
    wave k .triangle 0x3EC00000#32 = 0x3F400000#32 ∧ wave k .triangle 0x3F000000#32 = 0x3F800000#32 ∧
    wave k .triangle 0x3F400000#32 = 0x3F000000#32 ∧ wave k .triangle 0x3F7FFFFF#32 = 0x34000000#32 ∧
    wave k .triangle 0x3EFFFFFF#32 = 0x3F7FFFFF#32

/-- 43_engine_process.md R176. -/
def Obligations.GainBounds : Prop :=
  (∀ (k : Draw) (d lfo : Word), gain k d lfo = fSub k F_ONE (fMul k d lfo)) ∧
  (∀ (k : Draw) (d lfo : Word), fIn d F_ZERO F_ONE = true → fIn lfo F_ZERO F_ONE = true →
    fIn (gain k d lfo) F_ZERO F_ONE = true ∧ (fLt d 0x33000000#32 = true → gain k d lfo = F_ONE)) ∧
  (∀ k : Draw, gain k F_ONE F_ONE = F_ZERO ∧ gain k 0x3F333333#32 0x3F5A827A#32 = 0x3ECE1622#32) ∧
  (∀ (k : Draw) (d : Word), fIsFinite d = true → gain k d F_ZERO = F_ONE) ∧
  ∀ (k : Draw) (d lfo : Word), fIsNaN d = true → fIsNaN (gain k d lfo) = true

/-- 43_engine_process.md R177, R184: the mixer and its clamp written out for every wet mix, input and gain; what a NaN input
and an infinite input give; "the output is never outside [-1, 1] unless it is a NaN", for every input, gain and wet mix, and
so for DATA_L and DATA_R after every PROCESS command; with the values that R177 names. -/
def Obligations.OutputsClampedUnlessNaN : Prop :=
  (∀ (k : Draw) (wet x g : Word),
    let t6 := fAdd k (fMul k (fSub k 0x3F800000#32 wet) x) (fMul k wet (fMul k (fAdd k x 0x1E3CE508#32) g))
    mix k wet x g =
      if fLt t6 0xBF800000#32 then 0xBF800000#32 else if fGt t6 0x3F800000#32 then 0x3F800000#32 else t6) ∧
  (∀ (k : Draw) (wet x g : Word),
    (fIsNaN x = true → fIsNaN (mix k wet x g) = true) ∧
    (fIsInf x = true → fGt wet F_ZERO = true → fLt wet F_ONE = true → fGt g F_ZERO = true →
      mix k wet x g = if fSign x then F_NEG_ONE else F_ONE) ∧
    (fIsInf x = true → fIsZero wet = true ∨ wet = F_ONE ∨ fIsZero g = true → fIsNaN (mix k wet x g) = true) ∧
    (fIsNaN (mix k wet x g) = true ∨ fIn (mix k wet x g) F_NEG_ONE F_ONE = true)) ∧
  (∀ k : Draw, mix k F_ONE F_ZERO F_ONE = 0x1E3CE508#32 ∧ mix k F_HALF F_HALF F_HALF = 0x3EC00000#32 ∧
    mix k 0x3F400000#32 0x3E99999A#32 0x3E800000#32 = 0x3E066667#32 ∧
    mix k F_ONE 0x3F666666#32 0x40000000#32 = F_ONE) ∧
  ∀ s t : State,
    (exec .cmdProcessMono s = .next t → fIsNaN t.dataL = true ∨ fIn t.dataL F_NEG_ONE F_ONE = true) ∧
    (exec .cmdProcessStereo s = .next t →
      (fIsNaN t.dataL = true ∨ fIn t.dataL F_NEG_ONE F_ONE = true) ∧
      (fIsNaN t.dataR = true ∨ fIn t.dataR F_NEG_ONE F_ONE = true))

/-- 43_engine_process.md R187 (d), 90_conflicts.md C6: with WET = +0.0 and a gain in [+0.0, 1] the output is the clamped
input, except that -0.0 gives +0.0 and an infinite input a NaN. -/
def Obligations.WetZeroPassesTheInput : Prop :=
  ∀ (k : Draw) (x g : Word), fSign g = false → fLe g F_ONE = true →
    (fIsFinite x = true → x ≠ 0x80000000#32 → mix k F_ZERO x g = clampOut x) ∧
    mix k F_ZERO 0x80000000#32 g = F_ZERO ∧
    (fIsInf x = true → fIsNaN (mix k F_ZERO x g) = true)

/-- 43_engine_process.md R187 (c), 90_conflicts.md C8: with WET = 1 and gain 1 (what DEPTH = 0 gives) the output of a
finite input is the clamped sum of input and EPS_MIX, which is the clamped input itself from 2^-41 on. -/
def Obligations.WetOneUnitGainAddsEpsilonOnly : Prop :=
  ∀ (k : Draw) (x : Word), fIsFinite x = true →
    mix k F_ONE x F_ONE = clampOut (fAdd k x EPS_MIX) ∧
    (2 ^ 108 ≤ fMag x → mix k F_ONE x F_ONE = clampOut x)

/-- 43_engine_process.md R178. 0x33000000 is 2^-25, the next smaller power of two: it and everything below it is absorbed
at the phase 0.5. -/
def Obligations.IncrementGuaranteesProgress : Prop :=
  (∀ (k : Draw) (fs rs : Word),
    phaseInc k fs rs = (if fGe (fDiv k rs fs) 0x33800000#32 then fDiv k rs fs else 0x33800000#32) ∧
    fGe (phaseInc k fs rs) INC_MIN = true ∧
    (fIsNaN (fDiv k rs fs) = true → phaseInc k fs rs = INC_MIN)) ∧
  (∀ (k : Draw) (p q : Word), isPhase p = true → fGe q INC_MIN = true → fLt p (fAdd k p q) = true) ∧
  isPhase 0x3F000000#32 = true ∧
  (∀ (k : Draw) (q : Word), fLe F_ZERO q = true → fLe q 0x33000000#32 = true →
    fAdd k 0x3F000000#32 q = 0x3F000000#32) ∧
  (∀ (k : Draw) (p : Word), isPhase p = true → frac (fAdd k p 0x7F800000#32) = F_ZERO) ∧
  ∀ k : Draw, fDiv k RATE_MIN FS_DEFAULT = 0x32B2F4FD#32 ∧ phaseInc k FS_DEFAULT RATE_MIN = INC_MIN ∧
    phaseInc k 0x00000001#32 0x40A00000#32 = 0x7F800000#32 ∧ phaseInc k FS_DEFAULT 0x7F800000#32 = 0x7F800000#32 ∧
    phaseInc k FS_DEFAULT 0x40A00000#32 = 0x38DA740E#32

/-- 43_engine_process.md R187 (e): with OFS = +0.0, a legal phase and equal inputs, a stereo frame leaves equal outputs,
bit for bit, NaNs included. -/
def Obligations.StereoRoundTripIdentity : Prop :=
  ∀ s t : State, isPhase s.phase = true → s.ofs = F_ZERO → s.dataL = s.dataR →
    exec .cmdProcessStereo s = .next t → t.dataL = t.dataR

/-! ## Features -/

/-- 41_feature.md R123, R125: the sign class, in which both zeros are non-negative and a NaN is negative; the count of
adjacent pairs that differ in it; ZCR is that count over the number of pairs, one division of whole numbers, and +0.0 below
two samples. It is in [0, 1], +0.0 where no adjacent pair changes its sign class, and exactly 1.0 where every pair does. -/
def Obligations.ZeroCrossingRateInUnitInterval : Prop :=
  (∀ x : Word, nonneg x = true ↔ fIsNaN x = false ∧ (fSign x = false ∨ fIsZero x = true)) ∧
  (∀ win : List Word,
    crossings win =
      (List.range (win.length - 1)).countP (fun i => nonneg (win.getD i 0#32) != nonneg (win.getD (i + 1) 0#32)) ∧
    zcrOf win =
      if win.length < 2 then 0x00000000#32 else fDiv none (fOfNat (crossings win)) (fOfNat (win.length - 1))) ∧
  ∀ win : List Word, win.length ≤ 1024 →
    fIn (zcrOf win) F_ZERO F_ONE = true ∧
    (crossings win = 0 → zcrOf win = F_ZERO) ∧
    (2 ≤ win.length → crossings win = win.length - 1 → zcrOf win = F_ONE) ∧
    crossings win ≤ win.length - 1

/-- 41_feature.md R124: RMS is the root of the mean of the squares, the sum taken oldest first with one rounding a multiply
and one an add, then divided by f32(L), and +0.0 for an empty window. It is a NaN exactly where the window holds one, is
never negative, and is +inf where the sum is, so where an element is infinite and none is a NaN. -/
def Obligations.RootMeanSquareSigns : Prop :=
  (∀ win : List Word,
    rmsOf win =
      if win = [] then 0x00000000#32
      else fSqrt none (fDiv none
        (win.foldl (fun acc x => fAdd none acc (fMul none x x)) 0x00000000#32) (fOfNat win.length))) ∧
  ∀ win : List Word, win.length ≤ 1024 →
    (fIsNaN (rmsOf win) = true ↔ ∃ x ∈ win, fIsNaN x = true) ∧
    (fIsNaN (rmsOf win) = true ∨ fSign (rmsOf win) = false) ∧
    (win.foldl (fun acc x => fAdd none acc (fMul none x x)) 0x00000000#32 = 0x7F800000#32 →
      rmsOf win = 0x7F800000#32) ∧
    ((∀ x ∈ win, fIsNaN x = false) → (∃ x ∈ win, fIsInf x = true) → rmsOf win = 0x7F800000#32)

/-! ## Reset and invariants -/

/-- 70_reset_and_hazards.md R241, 10_state.md R37: the reset value of every element, and the end state that a write of the
default sample rate would give from the reset targets. The values of `resp` and `rdata` at reset are the model's choice
(notes/assumptions/4.md) and are not stated. -/
def Obligations.ResetValues : Prop :=
  State.reset.fs = 0x473B8000#32 ∧ State.reset.rateT = 0x40A00000#32 ∧ State.reset.depthT = 0#32 ∧
  State.reset.wet = 0x3F800000#32 ∧ State.reset.ofs = 0#32 ∧ State.reset.shape = .sine ∧ State.reset.phase = 0#32 ∧
  State.reset.dataL = 0#32 ∧ State.reset.dataR = 0#32 ∧ State.reset.win = [] ∧
  State.reset.smR = ⟨0x40A00000#32, 0x3C23D70A#32, 0x473B8000#32, expF32 0xBB088889#32⟩ ∧
  State.reset.smD = ⟨0#32, 0x3C23D70A#32, 0x473B8000#32, expF32 0xBB088889#32⟩ ∧
  State.reset.readyO = false ∧ rmsOf State.reset.win = 0#32 ∧ zcrOf State.reset.win = 0#32 ∧
  ∃ t, exec (.wrSampleRate 0x473B8000#32) State.reset = .next t ∧ SameElements State.reset t

/-- 10_state.md R32: the invariants hold at reset. -/
def Obligations.ResetKeepsTheInvariants : Prop :=
  State.reset.Inv

/-- 10_state.md R32: every step keeps the invariants, whatever the host presents. -/
def Obligations.EveryStepKeepsTheInvariants : Prop :=
  ∀ s t : State, s.Inv → step s = .next t → t.Inv

/-- 10_state.md R29, R32, 43_engine_process.md R176, R179: with the invariants, a smoothed depth in [0, 1] stays in [0, 1]
through every step, and then the gains of the next frame are in [0, 1], the left lane's at PHASE and the right lane's at
frac(PHASE + OFS). -/
def Obligations.SmoothedDepthAndGainStayInUnitInterval : Prop :=
  (∀ s t : State, s.Inv → fIn s.smD.y F_ZERO F_ONE = true → step s = .next t → fIn t.smD.y F_ZERO F_ONE = true) ∧
  ∀ s : State, s.Inv → fIn s.smD.y F_ZERO F_ONE = true →
    fIn (gain s.draw (nextDepth s).y (wave s.draw s.shape s.phase)) F_ZERO F_ONE = true ∧
    fIn (gain s.draw (nextDepth s).y (wave s.draw s.shape (phaseR s))) F_ZERO F_ONE = true

/-! ## Host sequences -/

/-- 44_host_sequences.md R202: the no-op cases issue no transaction; a frame goes out and comes back through the data
registers; the loop takes the frames in order, each one's outputs in place of its inputs, channels from the third on left as
they are under STEREO_FIRST_TWO; and every call completes and keeps the buffer's length. For a buffer that holds fewer values
than the frames need, of which R202 says nothing, that last clause is the model's choice (notes/assumptions/17.md, DESIGN
CHOICE) and no rule of the spec. -/
def Obligations.BufferFramesGoThroughTheDataRegisters : Prop :=
  (∀ (m : HostMultichannel) (buf : Option (List Word)) (frames : Nat) (ch : Int) (s : State),
    buf = none ∨ ch < 1 → hostProcessBuffer m buf frames ch s = .next (s, buf)) ∧
  (∀ (m : HostMultichannel) (b : List Word) (ch : Int) (s : State),
    hostProcessBuffer m (some b) 0 ch s = .next (s, some b)) ∧
  (∀ (b : List Word) (frames : Nat) (ch : Int) (s : State), 2 < ch →
    hostProcessBuffer .refuse (some b) frames ch s = .next (s, some b)) ∧
  (∀ (x : Word) (s : State), ∃ t, exec .cmdProcessMono { s with dataL := x, resp := .okay, rdata := 0#32 } = .next t ∧
    hostProcessFrameMono x s = .next ({ t with rdata := t.dataL }, t.dataL)) ∧
  (∀ (l r : Word) (s : State),
    ∃ t, exec .cmdProcessStereo { s with dataL := l, dataR := r, resp := .okay, rdata := 0#32 } = .next t ∧
      hostProcessFrameStereo l r s = .next ({ t with rdata := t.dataR }, t.dataL, t.dataR)) ∧
  (∀ (m : HostMultichannel) (n : Nat) (x y : Word) (rest out : List Word) (s t u : State),
    hostProcessFrameMono x s = .next (t, y) → hostProcessBuffer m (some rest) n 1 t = .next (u, some out) →
    hostProcessBuffer m (some (x :: rest)) (n + 1) 1 s = .next (u, some (y :: out))) ∧
  (∀ (m : HostMultichannel) (n ch : Nat) (l r y z : Word) (others rest out : List Word) (s t u : State),
    ch = 2 ∨ (2 < ch ∧ m = .stereoFirstTwo) → others.length = ch - 2 →
    hostProcessFrameStereo l r s = .next (t, y, z) → hostProcessBuffer m (some rest) n ch t = .next (u, some out) →
    hostProcessBuffer m (some (l :: r :: (others ++ rest))) (n + 1) ch s =
      .next (u, some (y :: z :: (others ++ out)))) ∧
  ∀ (m : HostMultichannel) (buf : Option (List Word)) (frames : Nat) (ch : Int) (s : State),
    ∃ u out, hostProcessBuffer m buf frames ch s = .next (u, out) ∧ out.map List.length = buf.map List.length

/-- 44_host_sequences.md R205, R203: whatever a Controller returns, after the control step RATE holds the floored rate and
DEPTH the clamped depth, no NaN among them, the window is empty and the engine is otherwise as it was; from legal
parameters the default Controller changes nothing but the window; and PUSH_FRAME writes both data registers, appends their
fold, and runs the control step exactly where that push leaves the window full. -/
def Obligations.ControllerValuesAreClamped : Prop :=
  (∀ (c : Controller) (t : BitVec 64) (s : State),
    ∃ u, hostControlFrame c t s = .next u ∧
      u.rateT = rateFloor (c t (rmsOf s.win) (zcrOf s.win) s.rateT s.depthT).1 ∧
      u.depthT = clampD (c t (rmsOf s.win) (zcrOf s.win) s.rateT s.depthT).2 F_ZERO F_ONE ∧
      fIsNaN u.rateT = false ∧ fIsNaN u.depthT = false ∧ u.win = [] ∧
      u.fs = s.fs ∧ u.wet = s.wet ∧ u.ofs = s.ofs ∧ u.shape = s.shape ∧ u.phase = s.phase ∧ u.smR = s.smR ∧
      u.smD = s.smD ∧ u.dataL = s.dataL ∧ u.dataR = s.dataR) ∧
  (∀ (t : BitVec 64) (s : State), fGe s.rateT RATE_MIN = true → fIn s.depthT F_ZERO F_ONE = true →
    ∃ u, hostControlFrame noController t s = .next u ∧ SameElements { s with win := [] } u) ∧
  ∀ (c : Controller) (t : BitVec 64) (l r : Word) (s : State), s.win.length ≤ 1024 →
    let k := some s.nanDraw
    let v : State :=
      { s with
        dataL := l
        dataR := r
        win := winPush s.win (fMul k 0x3F000000#32 (fAdd k l r))
        nanDraw := s.nanDraw + 1
        resp := .okay }
    (s.win.length < 1023 → hostPushFrame c t l r s = .next { v with rdata := 0#32 }) ∧
    (1023 ≤ s.win.length → hostPushFrame c t l r s = hostControlFrame c t { v with rdata := 1#32 })

/-- 44_host_sequences.md R206, R207: shape names without regard to ASCII case, and SET_SHAPE_NAME as the write of the parsed
shape; a recognised division writes RATE with f32(Hz), an unrecognised one issues nothing, whatever the BPM, and a BPM of 0 or
below leaves RATE_MIN; and the tempo table. R207 leaves the precision of Hz open: that `tempoRate` is the exact
(BPM / 60) / beatsPerCycle rounded once is the model's choice (notes/assumptions/16.md) and no rule of the spec; the rates of
R207's table and example hold in binary32 and in every wider precision, as each of their steps is exact. -/
def Obligations.ShapeNamesAndTempo : Prop :=
  (∀ name : List Char, parseShape (name.map asciiLower) = parseShape name) ∧
  parseShape "SINE".toList = .sine ∧ parseShape "Triangle".toList = .triangle ∧
  parseShape "sQuare-soft".toList = .squareSoft ∧ parseShape "foo".toList = .sine ∧
  parseShape "square".toList = .square ∧
  (∀ (name : List Char) (s : State), hostSetShapeName name s = exec (.wrShape (parseShape name)) s) ∧
  (∀ (neg : Bool) (num den : Nat) (s : State), hostTempoSync neg num den none s = .next s ∧
    ∀ d : NoteDivision, hostTempoSync neg num den (some d) s = exec (.wrRate (tempoRate neg num den d)) s) ∧
  (∀ (neg : Bool) (num den : Nat) (d : NoteDivision) (s : State), neg = true ∨ num = 0 →
    ∃ t, hostTempoSync neg num den (some d) s = .next t ∧ t.rateT = 0x3A83126F#32) ∧
  (∀ (neg : Bool) (num den : Nat) (d : NoteDivision), 0 < den →
    RoundsTo (tempoRate neg num den d) (if neg then -(4 * num * 2 ^ 149 : Int) else 4 * num * 2 ^ 149)
      (60 * den * d.quarterBeats)) ∧
  tempoRate false 120 1 .whole = 0x3F000000#32 ∧ tempoRate false 120 1 .half = 0x3F800000#32 ∧
  tempoRate false 120 1 .quarter = 0x40000000#32 ∧ tempoRate false 120 1 .eighth = 0x40800000#32 ∧
  tempoRate false 120 1 .sixteenth = 0x41000000#32 ∧ tempoRate false 90 1 .eighth = 0x40400000#32

/-- 70_reset_and_hazards.md R242: after the boot sequence, with SAMPLE_RATE last, both smoothers start at the configured
targets and the phase, the window and the data registers are as they were. The host's
integer sample rate is a natural number, the model's choice (notes/assumptions/18.md). -/
def Obligations.BootSeedsTheSmoothers : Prop :=
  ∀ (rate depth wet degrees : Word) (sh : Shape) (fs : Nat) (s : State),
    ∃ t, hostRun (bootLines rate depth wet degrees sh fs) s = .next t ∧
      t.rateT = rateFloor rate ∧ t.depthT = clampD depth F_ZERO F_ONE ∧ t.wet = clampD wet F_ZERO F_ONE ∧
      t.ofs = offsetOfDegrees degrees ∧ t.shape = sh ∧ t.fs = positiveOrDefault (fOfNat fs) ∧
      t.smR.y = t.rateT ∧ t.smD.y = t.depthT ∧ t.smR.a = smCoef TAU t.fs ∧ t.smD.a = smCoef TAU t.fs ∧
      t.phase = s.phase ∧ t.win = s.win ∧ t.dataL = s.dataL ∧ t.dataR = s.dataR
end

