-- ==== Sys2Proof/Laws/Float.lean ====
section
/-! SUPPORT. Lemmas about binary32 encodings and the one rounding `roundMag`: rounding is monotone, exact on what is
representable, and so stays between representable bounds. -/

set_option Elab.async false

namespace Sys2Proof.Machine

/-! ## Encodings -/

theorem fCode_lt (w : Word) : fCode w < 2 ^ 31 := by
  unfold fCode; omega

theorem toNat_eq_sign_code (w : Word) : w.toNat = (if fSign w then 2 ^ 31 else 0) + fCode w := by
  have := w.isLt
  unfold fSign fCode
  by_cases h : 2 ^ 31 ≤ w.toNat
  · simp only [h, decide_true, if_true]; omega
  · simp only [h, decide_false, Bool.false_eq_true, if_false]; omega

theorem word_ext {a b : Word} (hs : fSign a = fSign b) (hc : fCode a = fCode b) : a = b := by
  apply BitVec.eq_of_toNat_eq
  rw [toNat_eq_sign_code a, toNat_eq_sign_code b, hs, hc]

theorem toNat_ofNat_sign (neg : Bool) {c : Nat} (h : c < 2 ^ 31) :
    (BitVec.ofNat 32 ((if neg then 2 ^ 31 else 0) + c)).toNat = (if neg then 2 ^ 31 else 0) + c := by
  rw [BitVec.toNat_ofNat]
  apply Nat.mod_eq_of_lt
  split <;> omega

theorem fSign_ofNat (neg : Bool) {c : Nat} (h : c < 2 ^ 31) :
    fSign (BitVec.ofNat 32 ((if neg then 2 ^ 31 else 0) + c)) = neg := by
  unfold fSign
  rw [toNat_ofNat_sign neg h]
  cases neg
  · simp; omega
  · simp

theorem fCode_ofNat (neg : Bool) {c : Nat} (h : c < 2 ^ 31) :
    fCode (BitVec.ofNat 32 ((if neg then 2 ^ 31 else 0) + c)) = c := by
  unfold fCode
  rw [toNat_ofNat_sign neg h]
  cases neg <;> simp <;> omega

theorem min_inf_lt (c : Nat) : min c INF_CODE < 2 ^ 31 := by
  unfold INF_CODE; omega

@[simp] theorem fSign_fPack (neg : Bool) (c : Nat) : fSign (fPack neg c) = neg :=
  fSign_ofNat neg (min_inf_lt c)

@[simp] theorem fCode_fPack (neg : Bool) (c : Nat) : fCode (fPack neg c) = min c INF_CODE :=
  fCode_ofNat neg (min_inf_lt c)

@[simp] theorem fSign_fInf (neg : Bool) : fSign (fInf neg) = neg :=
  fSign_ofNat neg (by decide)

@[simp] theorem fCode_fInf (neg : Bool) : fCode (fInf neg) = INF_CODE :=
  fCode_ofNat neg (by decide)

@[simp] theorem fSign_fNeg (w : Word) : fSign (fNeg w) = !fSign w := by
  unfold fNeg
  have h := fSign_ofNat (!fSign w) (fCode_lt w)
  cases hs : fSign w <;> simp [hs] at h ⊢ <;> exact h

@[simp] theorem fCode_fNeg (w : Word) : fCode (fNeg w) = fCode w := by
  unfold fNeg
  have h := fCode_ofNat (!fSign w) (fCode_lt w)
  cases hs : fSign w <;> simp [hs] at h ⊢ <;> exact h

/-- A word is no NaN exactly where its code is at most infinity's. -/
theorem fIsNaN_eq (w : Word) : fIsNaN w = decide (INF_CODE < fCode w) := by
  have := fCode_lt w
  unfold fIsNaN fExp fFrac INF_CODE
  rw [Bool.eq_iff_iff]
  simp
  omega

theorem fIsInf_eq (w : Word) : fIsInf w = decide (fCode w = INF_CODE) := by
  have := fCode_lt w
  unfold fIsInf fExp fFrac INF_CODE
  rw [Bool.eq_iff_iff]
  simp
  omega

theorem fIsFinite_eq (w : Word) : fIsFinite w = decide (fCode w < INF_CODE) := by
  have := fCode_lt w
  unfold fIsFinite fExp INF_CODE
  rw [Bool.eq_iff_iff]
  simp
  omega

theorem fIsZero_eq (w : Word) : fIsZero w = decide (fCode w = 0) := by
  unfold fIsZero
  rw [Bool.eq_iff_iff]
  simp

theorem fPack_self {w : Word} (h : fCode w ≤ INF_CODE) : fPack (fSign w) (fCode w) = w :=
  word_ext (by simp) (by simp [h])

@[simp] theorem fIsNaN_fPack (neg : Bool) (c : Nat) : fIsNaN (fPack neg c) = false := by
  rw [fIsNaN_eq]; simp

@[simp] theorem fIsNaN_someNaN (w : Word) : fIsNaN (someNaN w) = true := by
  unfold someNaN
  split
  · assumption
  · decide

@[simp] theorem fIsNaN_nanResult (k : Draw) (op : FpOp) (a b : Word) : fIsNaN (nanResult k op a b) = true :=
  fIsNaN_someNaN _

/-! ## Magnitudes -/

theorem codeMag_small {c : Nat} (h : c < 2 ^ 23) : codeMag c = c := by
  unfold codeMag; rw [if_pos (by omega)]

/-- The magnitude of the code in binade `e` (above the lowest) with fraction `f`. -/
theorem codeMag_binade (e f : Nat) (hf : f < 2 ^ 23) : codeMag ((e + 1) * 2 ^ 23 + f) = (2 ^ 23 + f) * 2 ^ e := by
  unfold codeMag
  have h1 : ((e + 1) * 2 ^ 23 + f) / 2 ^ 23 = e + 1 := by omega
  have h2 : ((e + 1) * 2 ^ 23 + f) % 2 ^ 23 = f := by omega
  rw [h1, h2, if_neg (by omega)]
  simp

/-- Every code is small or in a binade. -/
theorem code_cases (c : Nat) : c < 2 ^ 23 ∨ ∃ e f, f < 2 ^ 23 ∧ c = (e + 1) * 2 ^ 23 + f := by
  by_cases h : c < 2 ^ 23
  · exact .inl h
  · refine .inr ⟨c / 2 ^ 23 - 1, c % 2 ^ 23, ?_, ?_⟩ <;> omega

/-- `s` binades and a significand of at most 24 bits, 2^24 carrying into the exponent. -/
theorem codeMag_significand (s r : Nat) (hr : r ≤ 2 ^ 24) (hs : s = 0 ∨ 2 ^ 23 ≤ r) :
    codeMag (s * 2 ^ 23 + r) = r * 2 ^ s := by
  rcases Nat.lt_or_ge r (2 ^ 23) with h | h
  · have : s = 0 := by omega
    subst this
    simp only [Nat.zero_mul, Nat.zero_add, pow_zero, Nat.mul_one, codeMag_small h]
  · rcases Nat.lt_or_ge r (2 ^ 24) with h' | h'
    · have := codeMag_binade s (r - 2 ^ 23) (by omega)
      rw [show (s + 1) * 2 ^ 23 + (r - 2 ^ 23) = s * 2 ^ 23 + r by omega] at this
      rw [this, Nat.add_sub_cancel' h]
    · have hr' : r = 2 ^ 24 := by omega
      subst hr'
      have := codeMag_binade (s + 1) 0 (by omega)
      rw [show (s + 1 + 1) * 2 ^ 23 + 0 = s * 2 ^ 23 + 2 ^ 24 by omega] at this
      rw [this, pow_succ]; ring

theorem codeMag_lt_succ (c : Nat) : codeMag c < codeMag (c + 1) := by
  rcases code_cases c with h | ⟨e, f, hf, rfl⟩
  · have h0 := codeMag_small h
    have h1 := codeMag_significand 0 (c + 1) (by omega) (.inl rfl)
    simp at h1
    omega
  · have h1 := codeMag_significand e (2 ^ 23 + f + 1) (by omega) (.inr (by omega))
    rw [codeMag_binade e f hf, show (e + 1) * 2 ^ 23 + f + 1 = e * 2 ^ 23 + (2 ^ 23 + f + 1) by omega, h1]
    exact Nat.mul_lt_mul_of_pos_right (by omega) (by positivity)

theorem codeMag_strictMono : StrictMono codeMag :=
  strictMono_nat_of_lt_succ codeMag_lt_succ

@[simp] theorem codeMag_le {a b : Nat} : codeMag a ≤ codeMag b ↔ a ≤ b :=
  codeMag_strictMono.le_iff_le

@[simp] theorem codeMag_lt {a b : Nat} : codeMag a < codeMag b ↔ a < b :=
  codeMag_strictMono.lt_iff_lt

@[simp] theorem codeMag_inj {a b : Nat} : codeMag a = codeMag b ↔ a = b :=
  codeMag_strictMono.injective.eq_iff

@[simp] theorem codeMag_zero : codeMag 0 = 0 := rfl

theorem codeMag_pos {c : Nat} (h : 0 < c) : 0 < codeMag c := by
  simpa using codeMag_strictMono h

/-! ## Rounding -/

theorem roundHalfEven_ge (n d : Nat) : n / d ≤ roundHalfEven n d := by
  unfold roundHalfEven; split <;> [skip; split] <;> omega

theorem roundHalfEven_le (n d : Nat) : roundHalfEven n d ≤ n / d + 1 := by
  unfold roundHalfEven; split <;> [skip; split] <;> omega

theorem roundHalfEven_mono {n d n' d' : Nat} (hd : 0 < d) (hd' : 0 < d') (h : n * d' ≤ n' * d) :
    roundHalfEven n d ≤ roundHalfEven n' d' := by
  have hq : n / d ≤ n' / d' := by
    rw [Nat.le_div_iff_mul_le hd']
    have h1 : n / d * d ≤ n := Nat.div_mul_le_self n d
    have h2 : n / d * d' * d ≤ n' * d := by
      calc n / d * d' * d = n / d * d * d' := by ring
        _ ≤ n * d' := Nat.mul_le_mul_right _ h1
        _ ≤ n' * d := h
    exact Nat.le_of_mul_le_mul_right h2 hd
  rcases Nat.lt_or_ge (n / d) (n' / d') with hlt | hge
  · exact (roundHalfEven_le n d).trans (le_trans hlt (roundHalfEven_ge n' d'))
  · have he : n / d = n' / d' := le_antisymm hq hge
    have hn := Nat.div_add_mod n d
    have hn' := Nat.div_add_mod n' d'
    have hr : n % d * d' ≤ n' % d' * d := by
      rw [← hn, ← hn', ← he] at h
      nlinarith
    unfold roundHalfEven
    rw [← he]
    have key : ∀ x y : Nat, x * d' ≤ y * d → (d ≤ 2 * x → d' ≤ 2 * y) ∧ (d < 2 * x → d' < 2 * y) := by
      intro x y hxy
      constructor
      · intro hx
        have : d * d' ≤ 2 * y * d := by nlinarith
        rw [mul_comm d d'] at this
        exact Nat.le_of_mul_le_mul_right this hd
      · intro hx
        have : d * d' < 2 * y * d := by nlinarith
        rw [mul_comm d d'] at this
        exact Nat.lt_of_mul_lt_mul_right this
    obtain ⟨k1, k2⟩ := key _ _ hr
    split
    · split <;> [skip; split] <;> omega
    · split
      · rw [if_neg (by omega), if_pos (by omega)]
      · rw [if_neg (by omega)]
        split <;> omega

theorem roundHalfEven_exact {r d : Nat} (hd : 0 < d) : roundHalfEven (r * d) d = r := by
  unfold roundHalfEven
  simp [Nat.mul_div_cancel _ hd, hd]

/-- The number of low bits rounded away. -/
theorem shift_spec {p n d : Nat} (hp : 0 < p) (hd : 0 < d) :
    n < d * 2 ^ (Nat.log2 (n / d) + 1 - p) * 2 ^ p ∧
      (0 < Nat.log2 (n / d) + 1 - p → d * 2 ^ (Nat.log2 (n / d) + 1 - p) * 2 ^ (p - 1) ≤ n) := by
  have hlt : n / d < 2 ^ (Nat.log2 (n / d) + 1) := Nat.lt_log2_self
  constructor
  · have h1 : n < 2 ^ (Nat.log2 (n / d) + 1) * d := (Nat.div_lt_iff_lt_mul hd).1 hlt
    have h2 : (2 : Nat) ^ (Nat.log2 (n / d) + 1) ≤ 2 ^ (Nat.log2 (n / d) + 1 - p) * 2 ^ p := by
      rw [← pow_add]; exact Nat.pow_le_pow_right (by omega) (by omega)
    calc n < 2 ^ (Nat.log2 (n / d) + 1) * d := h1
      _ ≤ 2 ^ (Nat.log2 (n / d) + 1 - p) * 2 ^ p * d := Nat.mul_le_mul_right _ h2
      _ = d * 2 ^ (Nat.log2 (n / d) + 1 - p) * 2 ^ p := by ring
  · intro hs
    have hne : n / d ≠ 0 := by
      intro h0; rw [h0] at hs; simp at hs; omega
    have h1 : 2 ^ Nat.log2 (n / d) ≤ n / d := Nat.log2_self_le hne
    have h2 : 2 ^ Nat.log2 (n / d) * d ≤ n := (Nat.le_div_iff_mul_le hd).1 h1
    have h3 : (2 : Nat) ^ (Nat.log2 (n / d) + 1 - p) * 2 ^ (p - 1) = 2 ^ Nat.log2 (n / d) := by
      rw [← pow_add]; congr 1; omega
    calc d * 2 ^ (Nat.log2 (n / d) + 1 - p) * 2 ^ (p - 1)
        = (2 ^ (Nat.log2 (n / d) + 1 - p) * 2 ^ (p - 1)) * d := by ring
      _ = 2 ^ Nat.log2 (n / d) * d := by rw [h3]
      _ ≤ n := h2

/-- The significand of a rounding: at most 2^p, and at least 2^(p-1) where bits were rounded away. -/
theorem significand_bounds {p n d : Nat} (hp : 0 < p) (hd : 0 < d) :
    roundHalfEven n (d * 2 ^ (Nat.log2 (n / d) + 1 - p)) ≤ 2 ^ p ∧
      (0 < Nat.log2 (n / d) + 1 - p → 2 ^ (p - 1) ≤ roundHalfEven n (d * 2 ^ (Nat.log2 (n / d) + 1 - p))) := by
  obtain ⟨h1, h2⟩ := shift_spec (n := n) hp hd
  have hD : 0 < d * 2 ^ (Nat.log2 (n / d) + 1 - p) := by positivity
  constructor
  · have := roundHalfEven_mono (n := n) (n' := 2 ^ p * (d * 2 ^ (Nat.log2 (n / d) + 1 - p))) hD hD
      (Nat.mul_le_mul_right _ (by rw [mul_comm]; exact h1.le))
    rwa [roundHalfEven_exact hD] at this
  · intro hs
    have := roundHalfEven_mono (n := 2 ^ (p - 1) * (d * 2 ^ (Nat.log2 (n / d) + 1 - p))) (n' := n) hD hD
      (Nat.mul_le_mul_right _ (by rw [mul_comm]; exact h2 hs))
    rwa [roundHalfEven_exact hD] at this

/-- Rounding is monotone in the rounded fraction. -/
theorem roundMag_mono {p n d n' d' : Nat} (hp : 0 < p) (hd : 0 < d) (hd' : 0 < d') (h : n * d' ≤ n' * d) :
    roundMag p n d ≤ roundMag p n' d' := by
  have hq : n / d ≤ n' / d' := by
    rw [Nat.le_div_iff_mul_le hd']
    have h1 : n / d * d ≤ n := Nat.div_mul_le_self n d
    have h2 : n / d * d' * d ≤ n' * d := by
      calc n / d * d' * d = n / d * d * d' := by ring
        _ ≤ n * d' := Nat.mul_le_mul_right _ h1
        _ ≤ n' * d := h
    exact Nat.le_of_mul_le_mul_right h2 hd
  have hlog : Nat.log2 (n / d) ≤ Nat.log2 (n' / d') := by
    rw [Nat.log2_eq_log_two, Nat.log2_eq_log_two]; exact Nat.log_mono_right hq
  obtain ⟨b1, -⟩ := significand_bounds (n := n) hp hd
  obtain ⟨-, b2⟩ := significand_bounds (n := n') hp hd'
  unfold roundMag
  rcases Nat.lt_or_ge (Nat.log2 (n / d) + 1 - p) (Nat.log2 (n' / d') + 1 - p) with hlt | hge
  · have b2' := b2 (by omega)
    have hpow : (2 : Nat) ^ p = 2 * 2 ^ (p - 1) := by
      rw [← pow_succ']; congr 1; omega
    have h3 : (Nat.log2 (n / d) + 1 - p + 1) * 2 ^ (p - 1) ≤ (Nat.log2 (n' / d') + 1 - p) * 2 ^ (p - 1) :=
      Nat.mul_le_mul_right _ (by omega)
    rw [Nat.add_mul, Nat.one_mul] at h3
    omega
  · have he : Nat.log2 (n' / d') + 1 - p = Nat.log2 (n / d) + 1 - p := by omega
    rw [he]
    refine Nat.add_le_add_left (roundHalfEven_mono (by positivity) (by positivity) ?_) _
    calc n * (d' * 2 ^ (Nat.log2 (n / d) + 1 - p)) = n * d' * 2 ^ (Nat.log2 (n / d) + 1 - p) := by ring
      _ ≤ n' * d * 2 ^ (Nat.log2 (n / d) + 1 - p) := Nat.mul_le_mul_right _ h
      _ = n' * (d * 2 ^ (Nat.log2 (n / d) + 1 - p)) := by ring

/-- A number of units is representable where the bits that would be rounded away are 0; then rounding is exact. -/
theorem codeMag_roundMag_of_dvd {v : Nat} (h : 2 ^ (Nat.log2 v + 1 - 24) ∣ v) : codeMag (roundMag 24 v 1) = v := by
  obtain ⟨b1, b2⟩ := significand_bounds (p := 24) (n := v) (d := 1) (by omega) (by omega)
  obtain ⟨m, hm⟩ := h
  unfold roundMag
  simp only [Nat.div_one, Nat.one_mul] at b1 b2 ⊢
  have hr : roundHalfEven v (2 ^ (Nat.log2 v + 1 - 24)) = m := by
    rw [show roundHalfEven v (2 ^ (Nat.log2 v + 1 - 24)) =
      roundHalfEven (m * 2 ^ (Nat.log2 v + 1 - 24)) (2 ^ (Nat.log2 v + 1 - 24)) by rw [mul_comm, ← hm]]
    exact roundHalfEven_exact (by positivity)
  rw [hr] at b1 b2 ⊢
  rw [codeMag_significand _ _ b1 (by
    rcases Nat.eq_zero_or_pos (Nat.log2 v + 1 - 24) with h0 | h0
    · exact .inl h0
    · exact .inr (b2 h0))]
  rw [mul_comm, ← hm]

/-- What is representable: m * 2^e with m below 2^24. -/
theorem codeMag_roundMag_of_short {v m e : Nat} (hm : m < 2 ^ 24) (hv : v = m * 2 ^ e) :
    codeMag (roundMag 24 v 1) = v := by
  apply codeMag_roundMag_of_dvd
  rcases Nat.eq_zero_or_pos v with h0 | h0
  · simp [h0]
  · have hlog : Nat.log2 v + 1 - 24 ≤ e := by
      have h1 : 2 ^ Nat.log2 v ≤ v := Nat.log2_self_le (by omega)
      have h2 : v < 2 ^ (24 + e) := by
        rw [hv, pow_add]; exact Nat.mul_lt_mul_of_pos_right hm (by positivity)
      have h3 := (Nat.pow_lt_pow_iff_right (by omega : 1 < 2)).1 (lt_of_le_of_lt h1 h2)
      omega
    have h5 : 2 ^ (Nat.log2 v + 1 - 24) ∣ m * 2 ^ e := Dvd.dvd.mul_left (pow_dvd_pow 2 hlog) m
    rwa [← hv] at h5

theorem codeMag_short (c : Nat) : ∃ m e, m < 2 ^ 24 ∧ codeMag c = m * 2 ^ e ∧ (c ≤ INF_CODE → e ≤ 254) := by
  rcases code_cases c with h | ⟨e, f, hf, rfl⟩
  · exact ⟨c, 0, by omega, by simp [codeMag_small h], by omega⟩
  · exact ⟨2 ^ 23 + f, e, by omega, codeMag_binade e f hf, by unfold INF_CODE; omega⟩

/-- Rounding the value of a code gives the code. -/
theorem roundMag_codeMag_mul (c : Nat) {d : Nat} (hd : 0 < d) : roundMag 24 (codeMag c * d) d = c := by
  obtain ⟨m, e, hm, hv, -⟩ := codeMag_short c
  have h1 : roundMag 24 (codeMag c) 1 = c := by
    have := codeMag_roundMag_of_short hm hv
    rwa [codeMag_inj] at this
  apply le_antisymm
  · calc roundMag 24 (codeMag c * d) d ≤ roundMag 24 (codeMag c) 1 :=
        roundMag_mono (by omega) hd (by omega) (by omega)
      _ = c := h1
  · calc c = roundMag 24 (codeMag c) 1 := h1.symm
      _ ≤ roundMag 24 (codeMag c * d) d := roundMag_mono (by omega) (by omega) hd (by omega)

@[simp] theorem roundMag_codeMag (c : Nat) : roundMag 24 (codeMag c) 1 = c := by
  simpa using roundMag_codeMag_mul c (d := 1) (by omega)

/-- A fraction at most the value of a code rounds to at most the code. -/
theorem roundMag_le {n d c : Nat} (hd : 0 < d) (h : n ≤ codeMag c * d) : roundMag 24 n d ≤ c := by
  have := roundMag_mono (p := 24) (by omega) hd hd (Nat.mul_le_mul_right d h)
  rwa [roundMag_codeMag_mul c hd] at this

/-- A fraction at least the value of a code rounds to at least the code. -/
theorem le_roundMag {n d c : Nat} (hd : 0 < d) (h : codeMag c * d ≤ n) : c ≤ roundMag 24 n d := by
  have := roundMag_mono (p := 24) (by omega) hd hd (Nat.mul_le_mul_right d h)
  rwa [roundMag_codeMag_mul c hd] at this

@[simp] theorem roundMag_zero (d : Nat) : roundMag 24 0 d = 0 := by
  rcases Nat.eq_zero_or_pos d with h | h
  · subst h; decide
  · have := roundMag_le (n := 0) (c := 0) h (by simp)
    omega

end Sys2Proof.Machine
end

