-- ==== Sys2Proof/Laws/Rounding.lean ====
section
/-! SUPPORT. What `roundMag` and `isqrt` do: the rounded code is the nearest one, the error of a rounding, the spacing of
magnitudes, the integer square root. -/

set_option Elab.async false

namespace Sys2Proof.Machine

/-- Rounding to a whole number errs by at most half, and by exactly half only towards an even number. -/
theorem roundHalfEven_half {n d : Nat} (hd : 0 < d) :
    2 * (n : Int) ≤ 2 * (roundHalfEven n d * d : Nat) + d ∧ 2 * ((roundHalfEven n d * d : Nat) : Int) ≤ 2 * n + d ∧
    (2 * (n : Int) = 2 * (roundHalfEven n d * d : Nat) + d ∨ 2 * ((roundHalfEven n d * d : Nat) : Int) = 2 * n + d → roundHalfEven n d % 2 = 0) := by
  have h1 := Nat.div_add_mod n d
  have h2 := Nat.mod_lt n hd
  have e : n / d * d + n % d = n := by rw [Nat.mul_comm]; exact h1
  unfold roundHalfEven
  generalize n / d = q at *
  generalize n % d = r at *
  split
  · generalize q * d = x at *; refine ⟨by omega, by omega, fun h => by omega⟩
  · split
    · rw [Nat.add_mul, Nat.one_mul]; generalize q * d = x at *; refine ⟨by omega, by omega, fun h => by omega⟩
    · rcases Nat.mod_two_eq_zero_or_one q with h | h
      · rw [h, Nat.add_zero]; generalize q * d = x at *; refine ⟨by omega, by omega, fun _ => by first | rfl | omega⟩
      · rw [h, Nat.add_mul, Nat.one_mul]; generalize q * d = x at *; refine ⟨by omega, by omega, fun _ => by omega⟩

/-- The next magnitude above a significand of a shift `s` is at least 2^s away. -/
theorem spacing_up (s m : Nat) (hm : m ≤ 2^24) (h : s = 0 ∨ 2^23 ≤ m) : m * 2^s + 2^s ≤ codeMag (s * 2^23 + m + 1) := by
  by_cases hlt : m < 2^24
  · rw [show s * 2^23 + m + 1 = s * 2^23 + (m+1) by omega, codeMag_significand s (m+1) (by omega) (by omega)]
    rw [Nat.add_mul, Nat.one_mul]
  · have : m = 2^24 := by omega
    subst this
    rw [show s * 2^23 + 2^24 + 1 = (s+1) * 2^23 + (2^23+1) by omega, codeMag_significand (s+1) (2^23+1) (by omega) (by omega)]
    calc 2^24 * 2^s + 2^s = 16777217 * 2^s := by ring
      _ ≤ 16777218 * 2^s := Nat.mul_le_mul_right _ (by omega)
      _ = (2^23+1) * 2^(s+1) := by ring

/-- The next magnitude below a significand that is not the least of its shift. -/
theorem spacing_down (s m : Nat) (hm : m ≤ 2^24) (h : s = 0 ∨ 2^23 < m) (h1 : 0 < m) : codeMag (s * 2^23 + m - 1) = (m - 1) * 2^s := by
  rw [show s * 2^23 + m - 1 = s * 2^23 + (m-1) by omega, codeMag_significand s (m-1) (by omega) (by omega)]

/-- The next magnitude below the least significand of a shift is half a step away. -/
theorem spacing_edge (s : Nat) : codeMag ((s+1) * 2^23 + 2^23 - 1) * 2 + 2^(s+1) = 2 * (2^23 * 2^(s+1)) := by
  rw [show (s+1) * 2^23 + 2^23 - 1 = s * 2^23 + (2^24-1) by omega, codeMag_significand s (2^24-1) (by omega) (by omega)]
  rw [pow_succ]; ring

/-- `roundMag` gives the code nearest to the fraction; where another code is as near, the given one is even. -/
theorem roundMag_nearest {n d : Nat} (hd : 0 < d) {c : Nat} (hc : c ≠ roundMag 24 n d) :
    |(n : Int) - (codeMag (roundMag 24 n d) * d : Nat)| ≤ |(n : Int) - (codeMag c * d : Nat)| ∧
    (|(n : Int) - (codeMag (roundMag 24 n d) * d : Nat)| = |(n : Int) - (codeMag c * d : Nat)| → roundMag 24 n d % 2 = 0) := by
  obtain ⟨b1, b2⟩ := significand_bounds (p := 24) (n := n) (by omega) hd
  obtain ⟨-, b3⟩ := shift_spec (p := 24) (n := n) (by omega) hd
  have hr : roundMag 24 n d = (Nat.log2 (n / d) + 1 - 24) * 2 ^ 23 + roundHalfEven n (d * 2 ^ (Nat.log2 (n / d) + 1 - 24)) := rfl
  generalize Nat.log2 (n / d) + 1 - 24 = s at *
  have hD : 0 < d * 2^s := by positivity
  obtain ⟨a1, a2, a3⟩ := roundHalfEven_half (n := n) hD
  generalize roundHalfEven n (d * 2 ^ s) = m at *
  have hsm : s = 0 ∨ 2^23 ≤ m := by rcases Nat.eq_zero_or_pos s with h | h; exact .inl h; exact .inr (b2 h)
  have hR : codeMag (roundMag 24 n d) * d = m * (d * 2^s) := by
    rw [hr, codeMag_significand s m b1 hsm]; ring
  have hpar : m % 2 = 0 → roundMag 24 n d % 2 = 0 := by rw [hr]; omega
  rw [hR]
  rcases lt_or_gt_of_ne hc with hlt | hgt
  · -- c below
    have hc' : codeMag c * d ≤ codeMag (roundMag 24 n d - 1) * d := Nat.mul_le_mul_right _ (codeMag_le.2 (by omega))
    by_cases hedge : s = 0 ∨ 2^23 < m
    · have hm0 : 0 < m := by
        rcases hedge with h | h
        · subst h; rw [hr] at hlt; omega
        · omega
      have h1 : codeMag (roundMag 24 n d - 1) * d + d * 2^s = m * (d * 2^s) := by
        rw [hr, spacing_down s m b1 hedge hm0]
        obtain ⟨k, rfl⟩ : ∃ k, m = k + 1 := ⟨m - 1, by omega⟩
        simp only [Nat.add_sub_cancel]; ring
      generalize m * (d * 2^s) = x at *
      generalize codeMag c * d = y at *
      generalize codeMag (roundMag 24 n d - 1) * d = z at *
      generalize d * 2^s = w at *
      constructor
      · rcases abs_cases ((n:Int) - (x:Nat)) with ⟨e1, e2⟩ | ⟨e1, e2⟩ <;> rcases abs_cases ((n:Int) - (y:Nat)) with ⟨f1, f2⟩ | ⟨f1, f2⟩ <;> omega
      · intro h; apply hpar; apply a3
        rcases abs_cases ((n:Int) - (x:Nat)) with ⟨e1, e2⟩ | ⟨e1, e2⟩ <;> rcases abs_cases ((n:Int) - (y:Nat)) with ⟨f1, f2⟩ | ⟨f1, f2⟩ <;> omega
    · have hs0 : 0 < s := by omega
      obtain ⟨t, rfl⟩ : ∃ t, s = t + 1 := ⟨s - 1, by omega⟩
      have hm : m = 2^23 := by omega
      have b3' := b3 hs0
      have h1 : codeMag (roundMag 24 n d - 1) * d * 2 + d * 2^(t+1) = 2 * (m * (d * 2^(t+1))) := by
        have := spacing_edge t
        rw [hr, hm]
        have h2 := congrArg (· * d) this
        rw [Nat.add_mul] at h2
        calc _ = codeMag ((t + 1) * 2 ^ 23 + 2 ^ 23 - 1) * 2 * d + 2^(t+1) * d := by ring
          _ = _ := by rw [h2]; ring
      have b4 : m * (d * 2^(t+1)) ≤ n := by rw [hm]; calc _ = d * 2 ^ (t + 1) * 2 ^ 23 := by ring
                                                _ ≤ n := b3'
      generalize m * (d * 2^(t+1)) = x at *
      generalize codeMag c * d = y at *
      generalize codeMag (roundMag 24 n d - 1) * d = z at *
      generalize d * 2^(t+1) = w at *
      constructor
      · rcases abs_cases ((n:Int) - (x:Nat)) with ⟨e1, e2⟩ | ⟨e1, e2⟩ <;> rcases abs_cases ((n:Int) - (y:Nat)) with ⟨f1, f2⟩ | ⟨f1, f2⟩ <;> omega
      · intro h
        rcases abs_cases ((n:Int) - (x:Nat)) with ⟨e1, e2⟩ | ⟨e1, e2⟩ <;> rcases abs_cases ((n:Int) - (y:Nat)) with ⟨f1, f2⟩ | ⟨f1, f2⟩ <;> omega
  · have hc' : codeMag (roundMag 24 n d + 1) * d ≤ codeMag c * d := Nat.mul_le_mul_right _ (codeMag_le.2 (by omega))
    have h1 : m * (d * 2^s) + d * 2^s ≤ codeMag (roundMag 24 n d + 1) * d := by
      have := Nat.mul_le_mul_right d (spacing_up s m b1 hsm)
      rw [← hr] at this
      calc _ = (m * 2 ^ s + 2 ^ s) * d := by ring
        _ ≤ _ := this
    generalize m * (d * 2^s) = x at *
    generalize codeMag c * d = y at *
    generalize codeMag (roundMag 24 n d + 1) * d = z at *
    generalize d * 2^s = w at *
    constructor
    · rcases abs_cases ((n:Int) - (x:Nat)) with ⟨e1, e2⟩ | ⟨e1, e2⟩ <;> rcases abs_cases ((n:Int) - (y:Nat)) with ⟨f1, f2⟩ | ⟨f1, f2⟩ <;> omega
    · intro h; apply hpar; apply a3
      rcases abs_cases ((n:Int) - (x:Nat)) with ⟨e1, e2⟩ | ⟨e1, e2⟩ <;> rcases abs_cases ((n:Int) - (y:Nat)) with ⟨f1, f2⟩ | ⟨f1, f2⟩ <;> omega

/-- The error of a rounding: at most half a step of the shift `s` that the fraction needs. -/
theorem roundMag_error {n d s : Nat} (hd : 0 < d) (h : n < d * 2^(24 + s)) :
    2 * (codeMag (roundMag 24 n d) * d) ≤ 2 * n + d * 2^s ∧ 2 * n ≤ 2 * (codeMag (roundMag 24 n d) * d) + d * 2^s := by
  obtain ⟨b1, b2⟩ := significand_bounds (p := 24) (n := n) (by omega) hd
  have hlog : Nat.log2 (n / d) + 1 - 24 ≤ s := by
    by_cases h0 : n / d = 0
    · rw [h0]; simp [Nat.log2_zero]
    · have : n / d < 2^(24+s) := (Nat.div_lt_iff_lt_mul hd).2 (by rwa [Nat.mul_comm] at h)
      have := (Nat.log2_lt h0).2 this
      omega
  have hr : roundMag 24 n d = (Nat.log2 (n / d) + 1 - 24) * 2 ^ 23 + roundHalfEven n (d * 2 ^ (Nat.log2 (n / d) + 1 - 24)) := rfl
  generalize Nat.log2 (n / d) + 1 - 24 = t at *
  have hD : 0 < d * 2^t := by positivity
  obtain ⟨a1, a2, -⟩ := roundHalfEven_half (n := n) hD
  generalize roundHalfEven n (d * 2 ^ t) = m at *
  have htm : t = 0 ∨ 2^23 ≤ m := by rcases Nat.eq_zero_or_pos t with h | h; exact .inl h; exact .inr (b2 h)
  have hR : codeMag (roundMag 24 n d) * d = m * (d * 2^t) := by
    rw [hr, codeMag_significand t m b1 htm]; ring
  have hle : d * 2^t ≤ d * 2^s := Nat.mul_le_mul_left _ (Nat.pow_le_pow_right (by omega) hlog)
  rw [hR]
  constructor <;> omega

theorem isqrtFrom_spec (n : Nat) : ∀ k r, r * r ≤ n → n < (r + 2^k) * (r + 2^k) → isqrtFrom n k r * isqrtFrom n k r ≤ n ∧ n < (isqrtFrom n k r + 1) * (isqrtFrom n k r + 1)
  | 0, r, h1, h2 => ⟨h1, by simpa [isqrtFrom] using h2⟩
  | k+1, r, h1, h2 => by
    unfold isqrtFrom
    split
    · next h => exact isqrtFrom_spec n k _ h (by rw [show r + 2^k + 2^k = r + 2^(k+1) by rw [pow_succ]; omega]; exact h2)
    · next h => exact isqrtFrom_spec n k _ h1 (by omega)

/-- The integer square root. -/
theorem isqrt_spec {n : Nat} (h : n < 2^428) : isqrt n * isqrt n ≤ n ∧ n < (isqrt n + 1) * (isqrt n + 1) :=
  isqrtFrom_spec n 214 0 (by omega) (by rw [Nat.zero_add, ← pow_add]; exact h)

theorem codeMag_even {c : Nat} (h : 2 * 2^23 ≤ c) : codeMag c % 2 = 0 := by
  rcases code_cases c with h' | ⟨e, f, hf, rfl⟩
  · omega
  · rw [codeMag_binade e f hf]
    obtain ⟨t, rfl⟩ : ∃ t, e = t + 1 := ⟨e - 1, by omega⟩
    rw [pow_succ 2 t, ← Nat.mul_assoc, Nat.mul_mod_left]

/-- From binade `e` on, neighbouring magnitudes are at least 2^(e-1) apart. -/
theorem codeMag_gap_ge {c e : Nat} (h : e * 2^23 ≤ c) (he : 1 ≤ e) : codeMag c + 2^(e-1) ≤ codeMag (c+1) := by
  rcases code_cases c with h' | ⟨x, f, hf, rfl⟩
  · omega
  · have := spacing_up x (2^23 + f) (by omega) (by omega)
    rw [codeMag_binade x f hf]
    rw [show x * 2^23 + (2^23 + f) + 1 = (x+1) * 2^23 + f + 1 by omega] at this
    have : 2^(e-1) ≤ 2^x := Nat.pow_le_pow_right (by omega) (by omega)
    omega

/-- Below 1.0, neighbouring magnitudes are at most 2^-24 apart. -/
theorem codeMag_gap_le_of_lt_one {c : Nat} (h : c < 0x3F800000) : codeMag (c+1) ≤ codeMag c + 2^125 := by
  rcases code_cases c with h' | ⟨x, f, hf, rfl⟩
  · rw [codeMag_small h']
    have := codeMag_significand 0 (c+1) (by omega) (.inl rfl)
    simp only [Nat.zero_mul, Nat.zero_add, pow_zero, Nat.mul_one] at this
    omega
  · rw [codeMag_binade x f hf, show (x + 1) * 2 ^ 23 + f + 1 = x * 2^23 + (2^23 + f + 1) by omega, codeMag_significand x (2^23+f+1) (by omega) (by omega)]
    have : 2^x ≤ 2^125 := Nat.pow_le_pow_right (by omega) (by omega)
    rw [Nat.add_mul _ 1]; omega

end Sys2Proof.Machine
end

