-- ==== Sys2Proof/Laws/Values.lean ====
section
/-! SUPPORT. Lemmas about values, comparisons and the operations: what each operation answers on finite operands, and that
it keeps to representable bounds. -/

set_option Elab.async false

namespace Sys2Proof.Machine

/-! ## Values -/

@[simp] theorem fMag_fPack (neg : Bool) (c : Nat) : fMag (fPack neg c) = codeMag (min c INF_CODE) := by
  simp [fMag]

theorem fVal_fPack (neg : Bool) (c : Nat) :
    fVal (fPack neg c) = if neg then -(codeMag (min c INF_CODE) : Int) else (codeMag (min c INF_CODE) : Int) := by
  simp [fVal]

@[simp] theorem fVal_fNeg (w : Word) : fVal (fNeg w) = -fVal w := by
  unfold fVal fMag
  cases h : fSign w <;> simp [h]

theorem natAbs_fVal (w : Word) : (fVal w).natAbs = fMag w := by
  unfold fVal; split <;> simp

theorem fVal_of_pos {w : Word} (h : fSign w = false) : fVal w = fMag w := by
  simp [fVal, h]

theorem fVal_of_neg {w : Word} (h : fSign w = true) : fVal w = -(fMag w : Int) := by
  simp [fVal, h]

theorem fMag_eq_zero {w : Word} : fMag w = 0 ↔ fCode w = 0 := by
  unfold fMag
  rw [← codeMag_inj (a := fCode w) (b := 0), codeMag_zero]

theorem fVal_eq_zero {w : Word} : fVal w = 0 ↔ fCode w = 0 := by
  rw [← fMag_eq_zero, ← natAbs_fVal]; omega

/-- A value that is no zero fixes its word. -/
theorem word_of_fVal {a b : Word} (h : fVal a = fVal b) (h0 : fVal a ≠ 0) : a = b := by
  have hm : fMag a = fMag b := by rw [← natAbs_fVal, ← natAbs_fVal, h]
  have hp : fMag a ≠ 0 := by rw [← natAbs_fVal]; omega
  apply word_ext
  · rw [fVal, fVal] at h
    cases ha : fSign a <;> cases hb : fSign b <;> simp only [ha, hb, if_true, Bool.false_eq_true, if_false] at h <;>
      first | rfl | omega
  · exact codeMag_inj.1 hm

/-! ## Classes -/

theorem not_nan_of_code {w : Word} (h : fCode w ≤ INF_CODE) : fIsNaN w = false := by
  rw [fIsNaN_eq]; simpa using h

theorem code_le_of_not_nan {w : Word} (h : fIsNaN w = false) : fCode w ≤ INF_CODE := by
  rw [fIsNaN_eq] at h; simpa using h

theorem code_lt_of_finite {w : Word} (h : fIsFinite w = true) : fCode w < INF_CODE := by
  rw [fIsFinite_eq] at h; simpa using h

theorem finite_of_code {w : Word} (h : fCode w < INF_CODE) : fIsFinite w = true := by
  rw [fIsFinite_eq]; simpa using h

theorem not_nan_of_finite {w : Word} (h : fIsFinite w = true) : fIsNaN w = false :=
  not_nan_of_code (code_lt_of_finite h).le

theorem not_inf_of_finite {w : Word} (h : fIsFinite w = true) : fIsInf w = false := by
  rw [fIsInf_eq]; simpa using (code_lt_of_finite h).ne

theorem finite_or_inf {w : Word} (h : fIsNaN w = false) : fIsFinite w = true ∨ fIsInf w = true := by
  rw [fIsFinite_eq, fIsInf_eq]
  have := code_le_of_not_nan h
  simp; omega

theorem fMag_inf {w : Word} (h : fIsInf w = true) : fMag w = 2 ^ 277 := by
  rw [fIsInf_eq] at h
  unfold fMag
  rw [of_decide_eq_true h]
  decide +kernel

theorem fMag_lt_of_finite {w : Word} (h : fIsFinite w = true) : fMag w < 2 ^ 277 := by
  have h1 : codeMag INF_CODE = 2 ^ 277 := by decide +kernel
  rw [← h1]
  exact codeMag_lt.2 (code_lt_of_finite h)

/-! ## Comparisons -/

theorem fLe_iff {a b : Word} : fLe a b = true ↔ fIsNaN a = false ∧ fIsNaN b = false ∧ fVal a ≤ fVal b := by
  unfold fLe; simp [and_assoc]

theorem fLt_iff {a b : Word} : fLt a b = true ↔ fIsNaN a = false ∧ fIsNaN b = false ∧ fVal a < fVal b := by
  unfold fLt; simp [and_assoc]

theorem fGe_iff {a b : Word} : fGe a b = true ↔ fIsNaN a = false ∧ fIsNaN b = false ∧ fVal b ≤ fVal a := by
  unfold fGe; rw [fLe_iff]; tauto

theorem fGt_iff {a b : Word} : fGt a b = true ↔ fIsNaN a = false ∧ fIsNaN b = false ∧ fVal b < fVal a := by
  unfold fGt; rw [fLt_iff]; tauto

theorem fLt_eq_false_iff {a b : Word} : fLt a b = false ↔ fIsNaN a = true ∨ fIsNaN b = true ∨ fVal b ≤ fVal a := by
  rw [← Bool.not_eq_true, fLt_iff]
  cases fIsNaN a <;> cases fIsNaN b <;> simp

theorem fGe_eq_false_iff {a b : Word} : fGe a b = false ↔ fIsNaN a = true ∨ fIsNaN b = true ∨ fVal a < fVal b := by
  rw [← Bool.not_eq_true, fGe_iff]
  cases fIsNaN a <;> cases fIsNaN b <;> simp

/-! ## Rounding a whole number of units -/

theorem fIsNaN_fOfInt (z : Bool) (v : Int) : fIsNaN (fOfInt z v) = false := by
  unfold fOfInt; split <;> simp

theorem fSign_fOfInt {z : Bool} {v : Int} (h : v ≠ 0) : fSign (fOfInt z v) = decide (v < 0) := by
  unfold fOfInt; rw [if_neg h]; simp

theorem fCode_fOfInt (z : Bool) (v : Int) : fCode (fOfInt z v) = min (roundMag 24 v.natAbs 1) INF_CODE := by
  unfold fOfInt
  split
  · next h => subst h; simp
  · simp

/-- The value of a finite or infinite word rounds to itself. -/
theorem fOfInt_fVal {w : Word} (h : fIsNaN w = false) (h0 : fVal w ≠ 0) (z : Bool) : fOfInt z (fVal w) = w := by
  apply word_ext
  · rw [fSign_fOfInt h0]
    cases hs : fSign w
    · have := fVal_of_pos hs; simp; omega
    · have := fVal_of_neg hs; simp; omega
  · rw [fCode_fOfInt, natAbs_fVal]
    simpa [fMag] using code_le_of_not_nan h

theorem fOfInt_zero (z : Bool) : fOfInt z 0 = fPack z 0 := rfl

theorem roundMag_pos {n d : Nat} (hd : 0 < d) (h : d ≤ n) : 0 < roundMag 24 n d :=
  le_roundMag (c := 1) hd (by rw [codeMag_small (by omega)]; omega)

/-- Rounding keeps below a word that the exact value is below. -/
theorem fVal_fOfInt_le {z : Bool} {v : Int} {c : Word} (hc : fIsNaN c = false) (h : v ≤ fVal c) :
    fVal (fOfInt z v) ≤ fVal c := by
  have hcode := code_le_of_not_nan hc
  by_cases hv : v = 0
  · subst hv
    rw [fOfInt_zero, fVal_fPack]; simpa using h
  · have hs := fSign_fOfInt (z := z) hv
    have hcd := fCode_fOfInt z v
    rcases lt_or_gt_of_ne hv with hneg | hpos
    · rw [fVal_of_neg (w := fOfInt z v) (by rw [hs]; simpa using hneg), show fMag (fOfInt z v) = codeMag (min (roundMag 24 v.natAbs 1) INF_CODE) by rw [fMag, hcd]]
      cases hsc : fSign c
      · rw [fVal_of_pos hsc]; omega
      · rw [fVal_of_neg hsc] at h ⊢
        have h1 : codeMag (fCode c) * 1 ≤ v.natAbs := by unfold fMag at h; omega
        have h2 : fCode c ≤ min (roundMag 24 v.natAbs 1) INF_CODE := le_min (le_roundMag (by omega) h1) hcode
        have h3 := codeMag_le.2 h2
        unfold fMag
        omega
    · rw [fVal_of_pos (w := fOfInt z v) (by rw [hs]; simp; omega), show fMag (fOfInt z v) = codeMag (min (roundMag 24 v.natAbs 1) INF_CODE) by rw [fMag, hcd]]
      have hsc : fSign c = false := by
        cases hsc : fSign c
        · rfl
        · rw [fVal_of_neg hsc] at h; omega
      rw [fVal_of_pos hsc] at h ⊢
      have h1 : v.natAbs ≤ codeMag (fCode c) * 1 := by unfold fMag at h; omega
      have h2 := codeMag_le.2 (le_trans (min_le_left _ INF_CODE) (roundMag_le (by omega) h1))
      unfold fMag
      omega

/-- Rounding keeps above a word that the exact value is above. -/
theorem le_fVal_fOfInt {z : Bool} {v : Int} {c : Word} (hc : fIsNaN c = false) (h : fVal c ≤ v) :
    fVal c ≤ fVal (fOfInt z v) := by
  have hcode := code_le_of_not_nan hc
  by_cases hv : v = 0
  · subst hv
    rw [fOfInt_zero, fVal_fPack]; simpa using h
  · have hs := fSign_fOfInt (z := z) hv
    have hcd := fCode_fOfInt z v
    rcases lt_or_gt_of_ne hv with hneg | hpos
    · rw [fVal_of_neg (w := fOfInt z v) (by rw [hs]; simpa using hneg), show fMag (fOfInt z v) = codeMag (min (roundMag 24 v.natAbs 1) INF_CODE) by rw [fMag, hcd]]
      have hsc : fSign c = true := by
        cases hsc : fSign c
        · rw [fVal_of_pos hsc] at h; omega
        · rfl
      rw [fVal_of_neg hsc] at h ⊢
      have h1 : v.natAbs ≤ codeMag (fCode c) * 1 := by unfold fMag at h; omega
      have h2 := codeMag_le.2 (le_trans (min_le_left _ INF_CODE) (roundMag_le (by omega) h1))
      unfold fMag
      omega
    · rw [fVal_of_pos (w := fOfInt z v) (by rw [hs]; simp; omega), show fMag (fOfInt z v) = codeMag (min (roundMag 24 v.natAbs 1) INF_CODE) by rw [fMag, hcd]]
      cases hsc : fSign c
      · rw [fVal_of_pos hsc] at h ⊢
        have h1 : codeMag (fCode c) * 1 ≤ v.natAbs := by unfold fMag at h; omega
        have h2 : fCode c ≤ min (roundMag 24 v.natAbs 1) INF_CODE := le_min (le_roundMag (by omega) h1) hcode
        have h3 := codeMag_le.2 h2
        unfold fMag
        omega
      · rw [fVal_of_neg hsc]; omega

/-! ## The operations on operands that are no NaN -/

theorem fAdd_of_core {k : Draw} {a b w : Word} (h : fAddCore a b = some w) : fAdd k a b = w := by
  simp [fAdd, h]

theorem fSub_of_core {k : Draw} {a b w : Word} (h : fAddCore a (fNeg b) = some w) : fSub k a b = w := by
  simp [fSub, h]

theorem fMul_of_core {k : Draw} {a b w : Word} (h : fMulCore a b = some w) : fMul k a b = w := by
  simp [fMul, h]

theorem fDiv_of_core {k : Draw} {a b w : Word} (h : fDivCore a b = some w) : fDiv k a b = w := by
  simp [fDiv, h]

theorem fSqrt_of_core {k : Draw} {a w : Word} (h : fSqrtCore a = some w) : fSqrt k a = w := by
  simp [fSqrt, h]

theorem fAdd_nan_of_core {k : Draw} {a b : Word} (h : fAddCore a b = none) : fIsNaN (fAdd k a b) = true := by
  simp [fAdd, h]

theorem fMul_nan_of_core {k : Draw} {a b : Word} (h : fMulCore a b = none) : fIsNaN (fMul k a b) = true := by
  simp [fMul, h]

theorem fAddCore_finite {a b : Word} (ha : fIsFinite a = true) (hb : fIsFinite b = true) :
    fAddCore a b = some (fOfInt (fSign a && fSign b) (fVal a + fVal b)) := by
  simp [fAddCore, not_nan_of_finite ha, not_nan_of_finite hb, not_inf_of_finite ha, not_inf_of_finite hb]

theorem fAdd_finite {k : Draw} {a b : Word} (ha : fIsFinite a = true) (hb : fIsFinite b = true) :
    fAdd k a b = fOfInt (fSign a && fSign b) (fVal a + fVal b) :=
  fAdd_of_core (fAddCore_finite ha hb)

@[simp] theorem fIsFinite_fNeg (w : Word) : fIsFinite (fNeg w) = fIsFinite w := by
  simp [fIsFinite_eq]

@[simp] theorem fIsNaN_fNeg (w : Word) : fIsNaN (fNeg w) = fIsNaN w := by
  simp [fIsNaN_eq]

@[simp] theorem fIsInf_fNeg (w : Word) : fIsInf (fNeg w) = fIsInf w := by
  simp [fIsInf_eq]

theorem fSub_finite {k : Draw} {a b : Word} (ha : fIsFinite a = true) (hb : fIsFinite b = true) :
    fSub k a b = fOfInt (fSign a && !fSign b) (fVal a - fVal b) := by
  apply fSub_of_core
  rw [fAddCore_finite ha (by simpa using hb)]
  simp [sub_eq_add_neg]

theorem fMul_finite {k : Draw} {a b : Word} (ha : fIsFinite a = true) (hb : fIsFinite b = true) :
    fMul k a b = fPack (fSign a != fSign b) (roundMag 24 (fMag a * fMag b) (2 ^ 149)) := by
  apply fMul_of_core
  simp [fMulCore, not_nan_of_finite ha, not_nan_of_finite hb, not_inf_of_finite ha, not_inf_of_finite hb]

theorem fDiv_finite {k : Draw} {a b : Word} (ha : fIsFinite a = true) (hb : fIsFinite b = true)
    (h0 : fIsZero b = false) :
    fDiv k a b = fPack (fSign a != fSign b) (roundMag 24 (fMag a * 2 ^ 149) (fMag b)) := by
  apply fDiv_of_core
  simp [fDivCore, not_nan_of_finite ha, not_nan_of_finite hb, not_inf_of_finite ha, not_inf_of_finite hb, h0]

end Sys2Proof.Machine
end

