-- ==== Sys2Proof/Laws/Arithmetic.lean ====
section
/-! SUPPORT. Lemmas about the binary32 operations that the rules' bounds rest on: values and ranges, that rounding keeps
to representable bounds and errs by half a spacing, the identities with 0 and 1, clamps, whole numbers. -/

set_option Elab.async false

namespace Sys2Proof.Machine

/-! ## Values -/

theorem fVal_zero : fVal F_ZERO = 0 := by decide

theorem fVal_one : fVal F_ONE = 2^149 := by decide +kernel

theorem fVal_negOne : fVal F_NEG_ONE = -2^149 := by decide +kernel

theorem fVal_half : fVal F_HALF = 2^148 := by decide +kernel

theorem fVal_two : fVal 0x40000000#32 = 2^150 := by decide +kernel

theorem fVal_incMin : fVal INC_MIN = 2^125 := by decide +kernel

theorem fVal_nonpos_of_sign {w : Word} (h : fSign w = true) : fVal w ≤ 0 := by rw [fVal_of_neg h]; omega

theorem fVal_of_isZero {w : Word} (h : fIsZero w = true) : fVal w = 0 := by rw [fIsZero_eq] at h; exact fVal_eq_zero.2 (of_decide_eq_true h)

theorem fVal_neg_of_sign {w : Word} (h : fSign w = true) (h0 : fIsZero w = false) : fVal w < 0 := by
  have h1 := fVal_nonpos_of_sign h
  have h2 : fVal w ≠ 0 := by rw [Ne, fVal_eq_zero]; rw [fIsZero_eq] at h0; simpa using h0
  omega

theorem fVal_eq_fMag {a : Word} (h : 0 ≤ fVal a) : fVal a = fMag a := by rw [← natAbs_fVal]; omega

/-- A value between 0 and a finite one is finite. -/
theorem finite_of_le {a b : Word} (hn : fIsNaN a = false) (h0 : 0 ≤ fVal a) (hb : fIsFinite b = true) (h : fVal a ≤ fVal b) : fIsFinite a = true := by
  rcases finite_or_inf hn with h1 | h1
  · exact h1
  · have := fMag_inf h1
    have := fMag_lt_of_finite hb
    have := fVal_eq_fMag h0
    have := fVal_eq_fMag (h0.trans h)
    omega

theorem finite_of_natAbs {w : Word} (hn : fIsNaN w = false) (h : (fVal w).natAbs < 2^277) : fIsFinite w = true := by
  rcases finite_or_inf hn with h1 | h1
  · exact h1
  · have := fMag_inf h1; rw [natAbs_fVal] at h; omega

theorem not_nan_of_inf {b : Word} (hb : fIsInf b = true) : fIsNaN b = false := by rw [fIsInf_eq] at hb; rw [fIsNaN_eq, of_decide_eq_true hb]; decide

theorem eq_fInf {w : Word} (h : fIsInf w = true) : w = fInf (fSign w) :=
  word_ext (by simp) (by rw [fIsInf_eq] at h; simpa using h)

theorem pos_of_fGt {v : Word} (h : fGt v F_ZERO = true) : fIsNaN v = false ∧ 0 < fVal v ∧ fSign v = false := by
  obtain ⟨h1, -, h2⟩ := fGt_iff.1 h
  rw [fVal_zero] at h2
  refine ⟨h1, h2, ?_⟩
  cases hs : fSign v
  · rfl
  · have := fVal_nonpos_of_sign hs; omega

theorem not_zero_of_pos {v : Word} (h : 0 < fVal v) : fIsZero v = false := by
  rw [fIsZero_eq]; simp; intro hc; rw [fVal_eq_zero.2 hc] at h; omega

theorem zero_not_nan : fIsNaN F_ZERO = false := by decide

theorem one_not_nan : fIsNaN F_ONE = false := by decide

theorem negOne_not_nan : fIsNaN F_NEG_ONE = false := by decide

theorem two_not_nan : fIsNaN 0x40000000#32 = false := by decide

/-! ## Ranges -/

theorem fIn_iff {w lo hi : Word} : fIn w lo hi = true ↔ fIsNaN w = false ∧ fIsNaN lo = false ∧ fIsNaN hi = false ∧ fVal lo ≤ fVal w ∧ fVal w ≤ fVal hi := by
  unfold fIn; rw [Bool.and_eq_true, fLe_iff, fLe_iff]; tauto

/-- The unit interval, in units of 2^-149. -/
theorem fIn_unit_iff {w : Word} : fIn w F_ZERO F_ONE = true ↔ fIsNaN w = false ∧ 0 ≤ fVal w ∧ fVal w ≤ 2^149 := by
  rw [fIn_iff, fVal_zero, fVal_one]; have : fIsNaN F_ZERO = false := by decide
  have : fIsNaN F_ONE = false := by decide
  tauto

/-- The interval [-1, 1], in units of 2^-149. -/
theorem fIn_signedUnit_iff {w : Word} : fIn w F_NEG_ONE F_ONE = true ↔ fIsNaN w = false ∧ -2^149 ≤ fVal w ∧ fVal w ≤ 2^149 := by
  rw [fIn_iff, fVal_negOne, fVal_one]; have : fIsNaN F_NEG_ONE = false := by decide
  have : fIsNaN F_ONE = false := by decide
  tauto

theorem finite_of_signedUnit {w : Word} (hn : fIsNaN w = false) (h1 : -2^149 ≤ fVal w) (h2 : fVal w ≤ 2^149) : fIsFinite w = true :=
  finite_of_natAbs hn (by omega)

theorem finite_of_unit {w : Word} (h : fIn w F_ZERO F_ONE = true) : fIsFinite w = true ∧ 0 ≤ fVal w ∧ fVal w ≤ 2^149 := by
  obtain ⟨a, b, c⟩ := fIn_unit_iff.1 h
  exact ⟨finite_of_signedUnit a (by omega) c, b, c⟩

theorem isPhase_iff {p : Word} : isPhase p = true ↔ fSign p = false ∧ fIsNaN p = false ∧ fVal p < 2^149 := by
  unfold isPhase; rw [Bool.and_eq_true, fLt_iff, fVal_one]; simp [one_not_nan]

theorem isPhase_value {p : Word} (h : isPhase p = true) : fIsFinite p = true ∧ fVal p = fMag p ∧ fMag p < 2^149 := by
  obtain ⟨h1, h2, h3⟩ := isPhase_iff.1 h
  have e := fVal_of_pos h1
  exact ⟨finite_of_natAbs h2 (by omega), e, by omega⟩

theorem isPhase_code {p : Word} (h : isPhase p = true) : fCode p < 0x3F800000 := by
  obtain ⟨hf, e, hlt⟩ := isPhase_value h
  rw [← codeMag_lt, show codeMag 0x3F800000 = 2^149 by decide +kernel]; exact hlt

theorem keepIn_range {lo hi v : Word} (h : fIn F_ZERO lo hi = true) : fIn (keepIn lo hi v) lo hi = true := by
  unfold keepIn
  split
  · assumption
  · exact h

/-! ## Clamps (00_scope.md R14) -/

theorem clampD_lo {v lo hi : Word} (h : fIsNaN v = true ∨ fLt v lo = true) : clampD v lo hi = lo := by
  unfold clampD; rcases h with h | h <;> simp [h]

theorem clampD_hi {v lo hi : Word} (h : fLe lo hi = true) (h2 : fGt v hi = true) : clampD v lo hi = hi := by
  unfold clampD
  rw [fGt_iff] at h2; rw [fLe_iff] at h
  have : fLt v lo = false := by rw [fLt_eq_false_iff]; right; right; omega
  simp [h2.1, this, fGt_iff.2 h2]

/-- A clamp with a non-negative upper bound lands between +0.0 and it. -/
theorem clampD_range (v : Word) {hi : Word} (h : fLe F_ZERO hi = true) : fIn (clampD v F_ZERO hi) F_ZERO hi = true := by
  unfold fIn
  rw [Bool.and_eq_true]
  have h' := fLe_iff.1 h
  unfold clampD
  split
  · exact ⟨by decide, h⟩
  · next hn =>
    split
    · exact ⟨by decide, h⟩
    · next h1 =>
      split
      · exact ⟨h, fLe_iff.2 ⟨h'.2.1, h'.2.1, le_refl _⟩⟩
      · next h2 =>
        simp only [Bool.not_eq_true] at hn h1 h2
        rw [fLt_eq_false_iff] at h1
        have h2' : ¬ fGt v hi = true := by simp [h2]
        rw [fGt_iff] at h2'
        have h0 := h'.1
        constructor
        · rw [fLe_iff]; refine ⟨h0, hn, ?_⟩; rcases h1 with h1 | h1 | h1
          · rw [hn] at h1; cases h1
          · rw [h0] at h1; cases h1
          · exact h1
        · rw [fLe_iff]; refine ⟨hn, h'.2.1, ?_⟩; by_contra hc; exact h2' ⟨hn, h'.2.1, by omega⟩

/-- Such a clamp is monotone. -/
theorem clampD_mono {v w hi : Word} (h : fLe F_ZERO hi = true) (hvw : fLe v w = true) : fVal (clampD v F_ZERO hi) ≤ fVal (clampD w F_ZERO hi) := by
  obtain ⟨hv, hw, hle⟩ := fLe_iff.1 hvw
  obtain ⟨h0, hh, h0h⟩ := fLe_iff.1 h
  unfold clampD
  rw [hv, hw]
  simp only [Bool.false_eq_true, if_false]
  simp only [fLt_iff, fGt_iff, hv, hw, hh, h0, true_and]
  split_ifs <;> omega

/-! ## What a NaN operand gives -/

theorem cores_of_nan (a b : Word) (h : fIsNaN a = true ∨ fIsNaN b = true) : fAddCore a b = none ∧ fMulCore a b = none ∧ fDivCore a b = none := by
  have : (fIsNaN a || fIsNaN b) = true := by simpa using h
  simp [fAddCore, fMulCore, fDivCore, this]

theorem fAdd_nan {k : Draw} {a b : Word} (h : fIsNaN a = true ∨ fIsNaN b = true) : fIsNaN (fAdd k a b) = true := fAdd_nan_of_core (cores_of_nan a b h).1

theorem fMul_nan {k : Draw} {a b : Word} (h : fIsNaN a = true ∨ fIsNaN b = true) : fIsNaN (fMul k a b) = true := fMul_nan_of_core (cores_of_nan a b h).2.1

/-- 0 times infinity is a NaN. -/
theorem fMul_zero_inf {k : Draw} {a b : Word} (hb : fIsInf b = true) (ha : fIsZero a = true) : fIsNaN (fMul k a b) = true := by
  apply fMul_nan_of_core
  have hc : fCode a = 0 := by rw [fIsZero_eq] at ha; simpa using ha
  have hn : fIsNaN a = false := by rw [fIsNaN_eq, hc]; decide
  have hbn : fIsNaN b = false := by rw [fIsInf_eq] at hb; rw [fIsNaN_eq, of_decide_eq_true hb]; decide
  simp [fMulCore, hn, hbn, hb, ha]

/-! ## Rounding keeps to representable bounds -/

/-- A finite rounded quotient is nearest among all words, and even in a tie. -/
theorem fPack_roundMag_nearest (neg : Bool) {n d : Nat} (hd : 0 < d) (c : Word) (hf : fIsFinite (fPack neg (roundMag 24 n d)) = true) :
    |(if neg then -(n : Int) else n) - fVal (fPack neg (roundMag 24 n d)) * d| ≤ |(if neg then -(n : Int) else n) - fVal c * d| ∧
    (|(if neg then -(n : Int) else n) - fVal (fPack neg (roundMag 24 n d)) * d| = |(if neg then -(n : Int) else n) - fVal c * d| →
      fVal c ≠ fVal (fPack neg (roundMag 24 n d)) → fCode (fPack neg (roundMag 24 n d)) % 2 = 0) := by
  have hmin : min (roundMag 24 n d) INF_CODE = roundMag 24 n d := by
    have := code_lt_of_finite hf
    simp at this; omega
  rw [fVal_fPack, fCode_fPack, hmin]
  have key : ∀ c' : Nat, |(n : Int) - (codeMag (roundMag 24 n d) * d : Nat)| ≤ |(n : Int) - (codeMag c' * d : Nat)| ∧
    (|(n : Int) - (codeMag (roundMag 24 n d) * d : Nat)| = |(n : Int) - (codeMag c' * d : Nat)| → c' ≠ roundMag 24 n d → roundMag 24 n d % 2 = 0) := by
    intro c'
    by_cases h : c' = roundMag 24 n d
    · subst h; exact ⟨le_refl _, fun _ h => absurd rfl h⟩
    · obtain ⟨k1, k2⟩ := roundMag_nearest hd h; exact ⟨k1, fun e _ => k2 e⟩
  have h0 := key 0
  have hc := key (fCode c)
  have hv : fVal c = fMag c ∨ fVal c = -(fMag c : Int) := by unfold fVal; split; right; rfl; left; rfl
  have hfm : fMag c = codeMag (fCode c) := rfl
  have hinj : codeMag (fCode c) ≠ codeMag (roundMag 24 n d) → fCode c ≠ roundMag 24 n d := by intro h e; exact h (by rw [e])
  have hinj0 : (0:Nat) ≠ codeMag (roundMag 24 n d) → 0 ≠ roundMag 24 n d := by intro h e; apply h; rw [← e]; rfl
  have hz : codeMag 0 * d = 0 := by simp
  rw [hz] at h0
  push_cast at h0 hc
  have e1 : ((codeMag (roundMag 24 n d) : Nat):Int) * d ≥ 0 := by positivity
  have e2 : ((codeMag (fCode c) : Nat):Int) * d ≥ 0 := by positivity
  rw [hfm] at hv
  have hd' : (0:Int) < d := by exact_mod_cast hd
  rcases neg with _ | _ <;> simp only [Bool.false_eq_true, if_false, if_true]
  · rcases hv with hv | hv <;> rw [hv]
    · refine ⟨hc.1, fun e hne => hc.2 e (hinj (by intro h; apply hne; exact_mod_cast h))⟩
    · rw [neg_mul]
      generalize hX : ((codeMag (roundMag 24 n d) : Nat):Int) * d = X at *
      generalize hY : ((codeMag (fCode c) : Nat):Int) * d = Y at *
      constructor
      · refine le_trans h0.1 ?_; simp only [sub_zero, Nat.abs_cast]; rw [abs_of_nonneg (a := (n:Int) - -Y) (by omega)]; omega
      · intro e hne
        apply h0.2
        · have := h0.1
          have a1 : |(n:Int) - (0:Nat)| = n := by simp
          have a2 : |(n:Int) - -Y| = n + Y := by rw [abs_of_nonneg (by omega)]; omega
          push_cast at a1 this ⊢
          rw [a2] at e; simp only [sub_zero, Nat.abs_cast] at this ⊢; omega
        · apply hinj0
          intro h
          have : X = 0 := by rw [← hX, ← h]; simp
          have hY0 : Y ≠ 0 := by
            intro h'; rw [h'] at hY
            have : ((codeMag (fCode c) : Nat):Int) = 0 := by
              rcases mul_eq_zero.1 hY with h | h; exact h; omega
            apply hne; rw [this, ← h]; rfl
          rw [this] at e
          have a2 : |(n:Int) - -Y| = n + Y := by rw [abs_of_nonneg (by omega)]; omega
          rw [a2] at e; simp at e; omega
  · rcases hv with hv | hv <;> rw [hv, neg_mul]
    · generalize hX : ((codeMag (roundMag 24 n d) : Nat):Int) * d = X at *
      generalize hY : ((codeMag (fCode c) : Nat):Int) * d = Y at *
      have s1 : |-(n:Int) - -X| = |(n:Int) - X| := by rw [abs_sub_comm]; congr 1; ring
      have a2 : |-(n:Int) - Y| = n + Y := by rw [abs_of_nonpos (by omega)]; omega
      rw [s1, a2]
      have := h0.1
      simp only [sub_zero, Nat.abs_cast] at this
      constructor
      · omega
      · intro e hne
        apply h0.2
        · simp only [sub_zero, Nat.abs_cast]; omega
        · apply hinj0
          intro h
          have hX0 : X = 0 := by rw [← hX, ← h]; simp
          have hY0 : Y ≠ 0 := by
            intro h'; rw [h'] at hY
            have : ((codeMag (fCode c) : Nat):Int) = 0 := by
              rcases mul_eq_zero.1 hY with h | h; exact h; omega
            apply hne; rw [this, ← h]; rfl
          rw [hX0] at e; simp at e; omega
    · rw [neg_mul]
      have s1 : ∀ X : Int, |-(n:Int) - -X| = |(n:Int) - X| := by intro X; rw [abs_sub_comm]; congr 1; ring
      rw [s1, s1]
      refine ⟨hc.1, fun e hne => hc.2 e (hinj (by intro h; apply hne; rw [h]))⟩

/-- A rounding stays finite exactly below the point halfway between the largest finite magnitude and 2^277 units. -/
theorem roundMag_lt_inf_iff {n d : Nat} (hd : 0 < d) : roundMag 24 n d < INF_CODE ↔ n < (2^25 - 1) * 2^252 * d := by
  constructor
  · intro h
    by_contra hn
    have h1 : roundMag 24 ((2^25 - 1) * 2^252) 1 ≤ roundMag 24 n d :=
      roundMag_mono (by omega) (by omega) hd (by omega)
    have h2 : roundMag 24 ((2^25 - 1) * 2^252) 1 = INF_CODE := by decide +kernel
    omega
  · intro h
    by_contra hn
    have hlast : codeMag (INF_CODE - 1) = (2^24 - 1) * 2^253 := by decide +kernel
    have hinf : 2^24 * 2^253 ≤ codeMag (roundMag 24 n d) := by
      rw [show (2^24 * 2^253 : Nat) = codeMag INF_CODE by decide +kernel]; exact codeMag_le.2 (by omega)
    have hpos : 0 < INF_CODE := by decide
    have near := (roundMag_nearest (n := n) hd (c := INF_CODE - 1) (by omega)).1
    rw [hlast] at near
    have hC : 2^24 * 2^253 * d ≤ codeMag (roundMag 24 n d) * d := Nat.mul_le_mul_right d hinf
    generalize codeMag (roundMag 24 n d) * d = C at *
    rcases abs_cases ((n : Int) - (C : Nat)) with ⟨e1, _⟩ | ⟨e1, _⟩ <;>
      rcases abs_cases ((n : Int) - ((2^24 - 1) * 2^253 * d : Nat)) with ⟨f1, _⟩ | ⟨f1, _⟩ <;> omega

/-- Packing a rounded quotient rounds it correctly (00_scope.md R7). -/
theorem roundsTo_fPack (neg : Bool) {n d : Nat} (hd : 0 < d) :
    RoundsTo (fPack neg (roundMag 24 n d)) (if neg then -(n : Int) else n) d := by
  have habs : |(if neg then -(n : Int) else n)| = n := by cases neg <;> simp
  have hfin : fIsFinite (fPack neg (roundMag 24 n d)) = true ↔ roundMag 24 n d < INF_CODE := by
    rw [fIsFinite_eq, fCode_fPack]; simp
  refine ⟨?_, ?_, fun c hf _ => fPack_roundMag_nearest neg hd c hf⟩
  · rw [hfin, roundMag_lt_inf_iff hd, habs]; omega
  · rw [habs]
    intro h
    have hge : INF_CODE ≤ roundMag 24 n d := by
      by_contra hlt
      have := (roundMag_lt_inf_iff (n := n) hd).1 (by omega)
      omega
    have hneg : decide ((if neg then -(n : Int) else n) < 0) = neg := by
      cases neg
      · simp
      · simp; omega
    rw [hneg]
    exact word_ext (by simp) (by simp [hge])

/-- So does a rounded whole number of units, whatever sign is asked for a zero. -/
theorem roundsTo_fOfInt (z : Bool) (v : Int) : RoundsTo (fOfInt z v) v 1 := by
  unfold fOfInt
  split
  · next h => subst h; simpa using roundsTo_fPack z (n := 0) (d := 1) (by omega)
  · have h := roundsTo_fPack (decide (v < 0)) (n := v.natAbs) (d := 1) (by omega)
    have e : (if decide (v < 0) then -(v.natAbs : Int) else v.natAbs) = v := by
      by_cases hv : v < 0
      · simp only [hv, decide_true, if_true]; omega
      · simp only [hv, decide_false, Bool.false_eq_true, if_false]; omega
    rwa [e] at h

/-- A quotient at most the value of a word rounds to at most that value. -/
theorem fVal_fPack_le {neg : Bool} {n d : Nat} (hd : 0 < d) {c : Word} (hc : fIsNaN c = false)
    (h : (if neg then -(n : Int) else n) ≤ fVal c * d) : fVal (fPack neg (roundMag 24 n d)) ≤ fVal c := by
  have hcode := code_le_of_not_nan hc
  have hd' : (0:Int) < d := by exact_mod_cast hd
  rw [fVal_fPack]
  cases neg <;> simp only [Bool.false_eq_true, if_false, if_true] at h ⊢
  · have hp : 0 ≤ fVal c := by
      by_contra hn
      have := mul_neg_of_neg_of_pos (not_le.1 hn) hd'
      omega
    rw [fVal_eq_fMag hp] at h ⊢
    have h' : n ≤ codeMag (fCode c) * d := by exact_mod_cast h
    have := codeMag_le.2 (le_trans (min_le_left _ INF_CODE) (roundMag_le hd h'))
    exact_mod_cast this
  · by_cases hp : 0 ≤ fVal c
    · omega
    · have e : fVal c = -(fMag c : Int) := by have := natAbs_fVal c; omega
      rw [e] at h ⊢
      have h' : codeMag (fCode c) * d ≤ n := by
        have : (fMag c : Int) * d ≤ n := by linarith
        exact_mod_cast this
      have := codeMag_le.2 (le_min (le_roundMag hd h') hcode)
      have : (fMag c : Int) ≤ codeMag (min (roundMag 24 n d) INF_CODE) := by exact_mod_cast this
      omega

/-- A quotient at least the value of a word rounds to at least that value. -/
theorem le_fVal_fPack {neg : Bool} {n d : Nat} (hd : 0 < d) {c : Word} (hc : fIsNaN c = false)
    (h : fVal c * d ≤ (if neg then -(n : Int) else n)) : fVal c ≤ fVal (fPack neg (roundMag 24 n d)) := by
  have h2 := fVal_fPack_le (neg := !neg) (c := fNeg c) hd (by simpa using hc) (n := n) (by
    rw [fVal_fNeg]; cases neg <;> simp at h ⊢ <;> linarith)
  rw [fVal_fNeg] at h2
  have : fVal (fPack (!neg) (roundMag 24 n d)) = - fVal (fPack neg (roundMag 24 n d)) := by
    rw [fVal_fPack, fVal_fPack]; cases neg <;> simp
  omega

theorem fVal_mul (a b : Word) : (if (fSign a != fSign b) = true then -((fMag a * fMag b : Nat) : Int) else (fMag a * fMag b : Nat)) = fVal a * fVal b := by
  unfold fVal; cases fSign a <;> cases fSign b <;> simp

theorem fMul_le {k} {a b c : Word} (ha : fIsFinite a = true) (hb : fIsFinite b = true) (hc : fIsNaN c = false) (h : fVal a * fVal b ≤ fVal c * 2^149) :
    fVal (fMul k a b) ≤ fVal c := by
  rw [fMul_finite ha hb]; apply fVal_fPack_le (by positivity) hc; rw [fVal_mul]; exact_mod_cast h

theorem le_fMul {k} {a b c : Word} (ha : fIsFinite a = true) (hb : fIsFinite b = true) (hc : fIsNaN c = false) (h : fVal c * 2^149 ≤ fVal a * fVal b) :
    fVal c ≤ fVal (fMul k a b) := by
  rw [fMul_finite ha hb]; apply le_fVal_fPack (by positivity) hc; rw [fVal_mul]; exact_mod_cast h

theorem fAdd_le {k} {a b c : Word} (ha : fIsFinite a = true) (hb : fIsFinite b = true) (hc : fIsNaN c = false) (h : fVal a + fVal b ≤ fVal c) :
    fVal (fAdd k a b) ≤ fVal c := by rw [fAdd_finite ha hb]; exact fVal_fOfInt_le hc h

theorem le_fAdd {k} {a b c : Word} (ha : fIsFinite a = true) (hb : fIsFinite b = true) (hc : fIsNaN c = false) (h : fVal c ≤ fVal a + fVal b) :
    fVal c ≤ fVal (fAdd k a b) := by rw [fAdd_finite ha hb]; exact le_fVal_fOfInt hc h

theorem fSub_le {k} {a b c : Word} (ha : fIsFinite a = true) (hb : fIsFinite b = true) (hc : fIsNaN c = false) (h : fVal a - fVal b ≤ fVal c) :
    fVal (fSub k a b) ≤ fVal c := by rw [fSub_finite ha hb]; exact fVal_fOfInt_le hc h

theorem le_fSub {k} {a b c : Word} (ha : fIsFinite a = true) (hb : fIsFinite b = true) (hc : fIsNaN c = false) (h : fVal c ≤ fVal a - fVal b) :
    fVal c ≤ fVal (fSub k a b) := by rw [fSub_finite ha hb]; exact le_fVal_fOfInt hc h

theorem fMul_not_nan {k} {a b : Word} (ha : fIsFinite a = true) (hb : fIsFinite b = true) : fIsNaN (fMul k a b) = false := by rw [fMul_finite ha hb]; simp

theorem fAdd_not_nan {k} {a b : Word} (ha : fIsFinite a = true) (hb : fIsFinite b = true) : fIsNaN (fAdd k a b) = false := by rw [fAdd_finite ha hb]; exact fIsNaN_fOfInt _ _

theorem fSub_not_nan {k} {a b : Word} (ha : fIsFinite a = true) (hb : fIsFinite b = true) : fIsNaN (fSub k a b) = false := by rw [fSub_finite ha hb]; exact fIsNaN_fOfInt _ _

/-- The quotient of a finite non-negative value and a finite positive one. -/
theorem fDiv_nonneg {k} {a b : Word} (ha : fIsFinite a = true) (hb : fIsFinite b = true) (h0 : fIsZero b = false) (hs : fSign b = false) (hva : 0 ≤ fVal a) :
   fVal (fDiv k a b) = codeMag (min (roundMag 24 (fMag a * 2^149) (fMag b)) INF_CODE) ∧ fIsNaN (fDiv k a b) = false := by
  rw [fDiv_finite ha hb h0, fVal_fPack]
  refine ⟨?_, by simp⟩
  rw [hs]
  cases hsa : fSign a
  · simp
  · have : fMag a = 0 := by rw [fVal_of_neg hsa] at hva; omega
    simp [this]

/-! ## Rounding errors -/

/-- A sum below 2^(24+s) units is rounded by at most half of 2^s units. -/
theorem fOfInt_error (z : Bool) {v : Int} {s : Nat} (hs : s ≤ 200) (h : v.natAbs < 2^(24+s)) : |2 * fVal (fOfInt z v) - 2 * v| ≤ 2^s := by
  by_cases h0 : v = 0
  · subst h0; rw [fOfInt_zero, fVal_fPack]; simp
  · obtain ⟨e1, e2⟩ := roundMag_error (n := v.natAbs) (d := 1) (s := s) (by omega) (by omega)
    have hlt : roundMag 24 v.natAbs 1 < INF_CODE := by
      rw [← codeMag_lt, show codeMag INF_CODE = 2^277 by decide +kernel]
      have : (2:Nat)^s ≤ 2^200 := Nat.pow_le_pow_right (by omega) hs
      have : (2:Nat)^(24+s) ≤ 2^224 := Nat.pow_le_pow_right (by omega) (by omega)
      omega
    unfold fOfInt
    rw [if_neg h0, fVal_fPack, min_eq_left hlt.le]
    generalize codeMag (roundMag 24 v.natAbs 1) = R at *
    have e3 : ((2:Int)^s) = ((2^s : Nat) : Int) := by push_cast; rfl
    rw [e3]
    generalize (2^s : Nat) = S at *
    rw [abs_le]
    by_cases hv : v < 0
    · simp only [hv, decide_true, if_true]; omega
    · simp only [hv, decide_false, Bool.false_eq_true, if_false]; omega

/-- A sum in [-1, 1] is rounded by at most half of 2^125 units. -/
theorem fOfInt_error_unit (z : Bool) {v : Int} (h : v.natAbs ≤ 2^149) : |2 * fVal (fOfInt z v) - 2 * v| ≤ 2^125 := by
  rcases Nat.lt_or_ge v.natAbs (2^149) with h1 | h1
  · exact fOfInt_error z (s := 125) (by omega) h1
  · have : v = 2^149 ∨ v = -2^149 := by omega
    rcases this with rfl | rfl
    · have : fVal (fOfInt z (2^149)) = 2^149 := by
        rw [← fVal_one, fOfInt_fVal (by decide) (by rw [fVal_one]; norm_num)]
      rw [this]; norm_num
    · have : fVal (fOfInt z (-2^149)) = -2^149 := by
        rw [← fVal_negOne, fOfInt_fVal (by decide) (by rw [fVal_negOne]; norm_num)]
      rw [this]; norm_num

/-- Half of a value in [0, 2] is exact up to half a unit. -/
theorem fMul_half_error {k : Draw} {u : Word} (hf : fIsFinite u = true) (h0 : 0 ≤ fVal u) (h1 : fVal u ≤ 2^150) : |2 * fVal (fMul k F_HALF u) - fVal u| ≤ 1 := by
  have fh : fIsFinite F_HALF = true := by decide
  have mh : fMag F_HALF = 2^148 := by decide +kernel
  have e := fVal_eq_fMag h0
  have hm : fMag u ≤ 2^150 := by omega
  have hr : roundMag 24 (fMag F_HALF * fMag u) (2^149) = roundMag 24 (fMag u) 2 := by
    rw [mh]
    apply le_antisymm <;> apply roundMag_mono (by omega) (by positivity) (by positivity) <;> omega
  -- codeMag u = m*2^x; exact if x>0; if x=0, m<2^24: error at most 1/2 unit
  obtain ⟨m, x, hmm, hv, -⟩ := codeMag_short (fCode u)
  have hv : fMag u = m * 2^x := hv
  have key : 2 * codeMag (roundMag 24 (fMag u) 2) ≤ fMag u + 1 ∧ fMag u ≤ 2 * codeMag (roundMag 24 (fMag u) 2) + 1 := by
    rcases Nat.eq_zero_or_pos x with hx | hx
    · subst hx
      obtain ⟨e1, e2⟩ := roundMag_error (n := fMag u) (d := 2) (s := 0) (by omega) (by omega)
      omega
    · obtain ⟨t, rfl⟩ : ∃ t, x = t + 1 := ⟨x - 1, by omega⟩
      have : roundMag 24 (fMag u) 2 = roundMag 24 (m * 2^t) 1 := by
        apply le_antisymm <;> apply roundMag_mono (by omega) (by omega) (by omega) <;> rw [hv, pow_succ] <;> ring_nf <;> omega
      rw [this, codeMag_roundMag_of_short hmm rfl, hv, pow_succ]; ring_nf; omega
  have hlt : roundMag 24 (fMag u) 2 < INF_CODE := by
    rw [← codeMag_lt, show codeMag INF_CODE = 2^277 by decide +kernel]; omega
  rw [fMul_finite fh hf, hr, fVal_fPack, min_eq_left hlt.le, e]
  have hsu : fSign u = false ∨ fMag u = 0 := by
    cases hs : fSign u
    · exact .inl rfl
    · right; rw [fVal_of_neg hs] at h0; omega
  rcases hsu with hs | hs
  · have : (fSign F_HALF != fSign u) = false := by rw [hs]; decide
    rw [this]; simp only [Bool.false_eq_true, if_false]
    rw [abs_le]; omega
  · rw [hs] at *
    have : codeMag (roundMag 24 0 2) = 0 := by simp
    rw [this]; simp

/-! ## Identities -/

theorem fMul_one_left {k : Draw} {a : Word} (h : fIsFinite a = true) : fMul k F_ONE a = a := by
  have f1 : fIsFinite F_ONE = true := by decide
  have m1 : fMag F_ONE = 2^149 := by decide +kernel
  rw [fMul_finite f1 h, m1, Nat.mul_comm]
  rw [show fMag a = codeMag (fCode a) from rfl, roundMag_codeMag_mul _ (by positivity)]
  have : (fSign F_ONE != fSign a) = fSign a := by cases fSign a <;> decide
  rw [this]
  exact fPack_self (code_lt_of_finite h).le

theorem fMul_one_right {k : Draw} {a : Word} (h : fIsFinite a = true) : fMul k a F_ONE = a := by
  have f1 : fIsFinite F_ONE = true := by decide
  have e : fMul k a F_ONE = fMul k F_ONE a := by
    rw [fMul_finite h f1, fMul_finite f1 h, Nat.mul_comm, bne_comm]
  rw [e, fMul_one_left h]

theorem fMul_zero_left {k : Draw} {a b : Word} (hb : fIsFinite b = true) (ha : fIsZero a = true) : fMul k a b = fPack (fSign a != fSign b) 0 := by
  have hc : fCode a = 0 := by rw [fIsZero_eq] at ha; simpa using ha
  have hf : fIsFinite a = true := finite_of_code (by rw [hc]; decide)
  rw [fMul_finite hf hb, show fMag a = 0 from fMag_eq_zero.2 hc]; simp

theorem fMul_zero_right {k : Draw} {a b : Word} (hb : fIsFinite b = true) (ha : fIsZero a = true) : fMul k b a = fPack (fSign b != fSign a) 0 := by
  have hc : fCode a = 0 := by rw [fIsZero_eq] at ha; simpa using ha
  have hf : fIsFinite a = true := finite_of_code (by rw [hc]; decide)
  rw [fMul_finite hb hf, show fMag a = 0 from fMag_eq_zero.2 hc]; simp

theorem finite_fPack_zero (b : Bool) : fIsFinite (fPack b 0) = true := by cases b <;> decide

theorem fVal_fPack_zero (b : Bool) : fVal (fPack b 0) = 0 := by cases b <;> decide

theorem fAdd_zero_left {k : Draw} {z a : Word} (hz : fIsZero z = true) (ha : fIsFinite a = true) (h : fVal a ≠ 0) : fAdd k z a = a := by
  have hc : fCode z = 0 := by rw [fIsZero_eq] at hz; simpa using hz
  have hf : fIsFinite z = true := finite_of_code (by rw [hc]; decide)
  rw [fAdd_finite hf ha, fVal_eq_zero.2 hc, zero_add, fOfInt_fVal (not_nan_of_finite ha) h]

theorem fAdd_zero_right {k : Draw} {z a : Word} (hz : fIsZero z = true) (ha : fIsFinite a = true) (h : fVal a ≠ 0) : fAdd k a z = a := by
  have hc : fCode z = 0 := by rw [fIsZero_eq] at hz; simpa using hz
  have hf : fIsFinite z = true := finite_of_code (by rw [hc]; decide)
  rw [fAdd_finite ha hf, fVal_eq_zero.2 hc, add_zero, fOfInt_fVal (not_nan_of_finite ha) h]

theorem fSub_one_zero {k : Draw} {z : Word} (hz : fIsZero z = true) : fSub k F_ONE z = F_ONE := by
  have hc : fCode z = 0 := by rw [fIsZero_eq] at hz; simpa using hz
  have hf : fIsFinite z = true := finite_of_code (by rw [hc]; decide)
  rw [fSub_finite (by decide) hf, fVal_eq_zero.2 hc, sub_zero, fOfInt_fVal (by decide) (by decide)]

theorem fSub_one_one (k : Draw) : fSub k F_ONE F_ONE = F_ZERO := fSub_of_core (by decide +kernel)

theorem fNeg_fNeg (a : Word) : fNeg (fNeg a) = a := word_ext (by simp) (by simp)

theorem fAddCore_opposite {a : Word} (h : fIsFinite a = true) : fAddCore a (fNeg a) = some 0#32 := by
  rw [fAddCore_finite h (by simpa using h)]
  rw [fVal_fNeg, fSign_fNeg]
  have : fVal a + -fVal a = 0 := by omega
  rw [this, fOfInt_zero]; cases fSign a <;> decide

/-- 4.0 times a phase is exact. -/
theorem fMul_four_exact {k : Draw} {p : Word} (h : isPhase p = true) : fIsFinite (fMul k F_FOUR p) = true ∧ fVal (fMul k F_FOUR p) = 4 * fVal p := by
  obtain ⟨hf, e, hlt⟩ := isPhase_value h
  have f4 : fIsFinite F_FOUR = true := by decide
  have m4 : fMag F_FOUR = 2^151 := by decide +kernel
  obtain ⟨m, x, hm, hv, -⟩ := codeMag_short (fCode p)
  have hv : fMag p = m * 2^x := hv
  have hr : roundMag 24 (fMag F_FOUR * fMag p) (2^149) = roundMag 24 (4 * fMag p) 1 := by
    rw [m4]
    apply le_antisymm <;> apply roundMag_mono (by omega) (by positivity) (by positivity) <;> omega
  have hx : codeMag (roundMag 24 (4 * fMag p) 1) = 4 * fMag p :=
    codeMag_roundMag_of_short (m := m) (e := x + 2) hm (by rw [hv, pow_add]; ring)
  have hlt' : roundMag 24 (4 * fMag p) 1 < INF_CODE := by
    rw [← codeMag_lt, hx, show codeMag INF_CODE = 2^277 by decide +kernel]; omega
  have hs : (fSign F_FOUR != fSign p) = false := by rw [(isPhase_iff.1 h).1]; decide
  rw [fMul_finite f4 hf, hr, hs]
  constructor
  · apply finite_of_code; simp; exact hlt'
  · rw [fVal_fPack, min_eq_left hlt'.le, hx, e]; push_cast; rfl

theorem fVal_epsMix : fVal EPS_MIX ≤ 2^83 - 1 ∧ 2^82 < fVal EPS_MIX := by decide +kernel

/-- Adding EPS_MIX never overflows. -/
theorem fAdd_epsMix_finite {k : Draw} {x : Word} (h : fIsFinite x = true) : fIsFinite (fAdd k x EPS_MIX) = true := by
  have fe : fIsFinite EPS_MIX = true := by decide
  rw [fAdd_finite h fe]
  apply finite_of_code
  rw [fCode_fOfInt]
  have hm : fMag x ≤ codeMag (INF_CODE - 1) := codeMag_le.2 (by have := code_lt_of_finite h; omega)
  have h1 : (fVal x + fVal EPS_MIX).natAbs ≤ codeMag (INF_CODE - 1) + 2^83 := by
    have := natAbs_fVal x
    have := fVal_epsMix.1; have := fVal_epsMix.2
    omega
  have h2 : roundMag 24 (fVal x + fVal EPS_MIX).natAbs 1 ≤ roundMag 24 (codeMag (INF_CODE - 1) + 2^83) 1 :=
    roundMag_mono (by omega) (by omega) (by omega) (by omega)
  have h3 : roundMag 24 (codeMag (INF_CODE - 1) + 2^83) 1 = INF_CODE - 1 := by decide +kernel
  rw [h3] at h2
  have : 0 < INF_CODE := by decide
  omega

/-! ## Whole numbers and the wrap (00_scope.md R13, R15) -/

theorem fOfNat_exact (n : Nat) (hn : n ≤ 2^24) : fVal (fOfNat n) = (n:Int) * 2^149 ∧ fIsFinite (fOfNat n) = true := by
  have h : codeMag (roundMag 24 (n * 2^149) 1) = n * 2^149 := by
    by_cases hl : n < 2^24
    · exact codeMag_roundMag_of_short hl rfl
    · have : n = 2^24 := by omega
      subst this
      exact codeMag_roundMag_of_short (m := 1) (e := 173) (by omega) (by norm_num)
  have hlt : roundMag 24 (n * 2^149) 1 < INF_CODE := by
    rw [← codeMag_lt, h, show codeMag INF_CODE = 2^277 by decide +kernel]; omega
  constructor
  · rw [fOfNat, fOfRat, fVal_fPack, min_eq_left hlt.le, h]; simp
  · apply finite_of_code; rw [fOfNat, fOfRat, fCode_fPack]; omega

theorem fSign_fOfNat (n : Nat) : fSign (fOfNat n) = false := by simp [fOfNat, fOfRat]

theorem fMag_fOfNat {n : Nat} (hn : n ≤ 2^24) : fMag (fOfNat n) = n * 2^149 := by
  have := (fOfNat_exact n hn).1
  rw [fVal_of_pos (fSign_fOfNat n)] at this
  exact_mod_cast this

/-- What is left of a finite value after its whole part is representable. -/
theorem roundMag_wholePart {w : Word} (h0 : 0 ≤ fVal w) : codeMag (roundMag 24 (fVal w % 2^149).toNat 1) = (fVal w % 2^149).toNat := by
  have h : (fVal w % 2^149).toNat = fMag w % 2^149 := by rw [fVal_eq_fMag h0]; norm_cast
  rw [h]
  obtain ⟨m, e, hm, hv, -⟩ := codeMag_short (fCode w)
  rw [show fMag w = m * 2^e from hv]
  by_cases he : 149 ≤ e
  · have : m * 2^e % 2^149 = 0 := Nat.mod_eq_zero_of_dvd (Dvd.dvd.mul_left (pow_dvd_pow 2 he) m)
    rw [this]; simp
  · have h2 : (2:Nat)^149 = 2^(149-e) * 2^e := by rw [← pow_add]; congr 1; omega
    rw [h2, Nat.mul_mod_mul_right]
    exact codeMag_roundMag_of_short (lt_of_le_of_lt (Nat.mod_le _ _) hm) rfl

theorem clampOut_nan {v : Word} (h : fIsNaN v = true) : clampOut v = v := by
  simp [clampOut, fLt, fGt, h]

/-! ## The window's measures (41_feature.md R123 to R125) -/

theorem nonneg_iff (x : Word) : nonneg x = true ↔ fIsNaN x = false ∧ (fSign x = false ∨ fIsZero x = true) := by
  unfold nonneg
  rw [fGe_iff, fVal_zero]
  have hz : fIsZero x = true ↔ fVal x = 0 := by rw [fIsZero_eq, fVal_eq_zero]; simp
  rw [hz]
  cases hs : fSign x
  · have := fVal_of_pos hs; simp [zero_not_nan]; omega
  · have := fVal_of_neg hs; simp [zero_not_nan]; omega

/-- The count of R125, taken over the pairs' indices. -/
theorem crossings_eq_countP : ∀ win : List Word,
    crossings win =
      (List.range (win.length - 1)).countP (fun i => nonneg (win.getD i 0#32) != nonneg (win.getD (i + 1) 0#32))
  | [] => rfl
  | [_] => rfl
  | x :: y :: rest => by
    have ih := crossings_eq_countP (y :: rest)
    rw [crossings, ih]
    simp only [List.length_cons, Nat.add_sub_cancel]
    rw [List.range_succ_eq_map, List.countP_cons, List.countP_map, Nat.add_comm]
    rfl

/-- The sum of R124 as a fold over the window. -/
theorem sumSquares_eq_foldl : ∀ (win : List Word) (acc : Word),
    sumSquares acc win = win.foldl (fun acc x => fAdd none acc (fMul none x x)) acc
  | [], _ => rfl
  | _ :: xs, _ => sumSquares_eq_foldl xs _

theorem crossings_le : ∀ win : List Word, crossings win ≤ win.length - 1
  | [] => by simp [crossings]
  | [_] => by simp [crossings]
  | x :: y :: rest => by
    have := crossings_le (y :: rest)
    unfold crossings
    simp only [List.length_cons] at *
    split <;> omega

end Sys2Proof.Machine
end

