-- ==== Sys2Proof/Laws/Encoding.lean ====
section
/-! SUPPORT. Lemmas about transaction words: their bits, and that packing and unpacking the three fields are inverse. -/

namespace Sys2Proof

/-- The bits of a transaction word (30_encoding.md R71). -/
theorem getLsbD_word (t : Transaction) (i : Nat) :
    t.word.getLsbD i =
      if i < 32 then t.data.getLsbD i
      else if i < 40 then t.addr.getLsbD (i - 32)
      else decide (i = 40) && t.write := by
  show BitVec.getLsbD (w := 1 + 8 + 32) (BitVec.ofBool t.write ++ t.addr ++ t.data) i = _
  rw [BitVec.getLsbD_append, BitVec.getLsbD_append, BitVec.getLsbD_ofBool]
  split <;> rename_i h1
  · rfl
  · by_cases h2 : i < 40
    · rw [if_pos (by omega), if_pos h2]
    · rw [if_neg (by omega), if_neg h2]
      congr 1
      rw [decide_eq_decide]; omega

theorem fields_word (t : Transaction) : t.word.fields = t := by
  obtain ⟨w, a, d⟩ := t
  simp only [TWord.fields, Transaction.mk.injEq]
  refine ⟨?_, ?_, ?_⟩
  · rw [getLsbD_word]; simp
  · apply BitVec.eq_of_getLsbD_eq
    intro i hi
    rw [BitVec.getLsbD_extractLsb', getLsbD_word, if_neg (by omega), if_pos (by omega), Nat.add_sub_cancel_left]
    simp [hi]
  · apply BitVec.eq_of_getLsbD_eq
    intro i hi
    rw [BitVec.getLsbD_extractLsb', getLsbD_word]
    simp [hi]

theorem word_fields (t : TWord) : t.fields.word = t := by
  apply BitVec.eq_of_getLsbD_eq
  intro i hi
  rw [getLsbD_word]
  simp only [TWord.fields, BitVec.getLsbD_extractLsb']
  split
  · next h => simp [h]
  · next h =>
    split
    · next h' =>
      rw [show 32 + (i - 32) = i by omega]
      simp; omega
    · next h' => rw [show i = 40 by omega]; simp

theorem word_injective {t u : Transaction} (h : t.word = u.word) : t = u := by
  rw [← fields_word t, h, fields_word]

theorem word_and (t u : Transaction) :
    t.word &&& u.word = Transaction.word ⟨t.write && u.write, t.addr &&& u.addr, t.data &&& u.data⟩ := by
  apply BitVec.eq_of_getLsbD_eq
  intro i hi
  simp only [BitVec.getLsbD_and, getLsbD_word]
  split
  · rfl
  · split
    · rfl
    · cases t.write <;> cases u.write <;> simp

/-- What decoding depends on. -/
theorem decode_word (t : Transaction) : decode t.word = decodeTransaction t := by
  rw [decode, fields_word]

theorem and_careMask (t : TWord) (i : Instr) :
    t &&& i.careMask = Transaction.word ⟨t.fields.write, t.fields.addr, t.fields.data &&& i.dataMask⟩ := by
  conv_lhs => rw [← word_fields t]
  rw [Instr.careMask, word_and]
  simp only [Bool.and_true]
  congr 2
  exact BitVec.and_allOnes

theorem shapeOfData_code (sh : Shape) : shapeOfData (sh.code.setWidth 32) = sh := by
  cases sh <;> decide

/-! ## Decoding at a register's address -/

theorem regAt_addr (r : Reg) : regAt r.addr = some r := by cases r <;> decide

theorem addr_of_regAt {a : Addr} {r : Reg} (h : regAt a = some r) : a = r.addr := by
  unfold regAt at h
  have := List.find?_some h
  exact (beq_iff_eq.1 this).symm

/-- An address that is aligned and mapped is a register's, and only such an address is. -/
theorem exists_reg_addr {a : Addr} : (∃ r : Reg, a = r.addr) ↔ a.toNat % 4 = 0 ∧ a ≠ 0x3C#8 ∧ a.toNat < 0x50 := by
  constructor
  · rintro ⟨r, rfl⟩
    cases r <;> decide
  · intro h
    have key : ∀ b : BitVec 8, b.toNat % 4 = 0 ∧ b ≠ 0x3C#8 ∧ b.toNat < 0x50 → (regAt b).isSome = true := by
      decide +kernel
    obtain ⟨r, hr⟩ := Option.isSome_iff_exists.1 (key a h)
    exact ⟨r, addr_of_regAt hr⟩

/-- The decoding procedure at a register's address (30_encoding.md R76). -/
theorem decodeTransaction_reg (w : Bool) (r : Reg) (d : Word) :
    decodeTransaction ⟨w, r.addr, d⟩ =
      if w && r.access == .ro then .err .access
      else if !w && r.access == .wo then .err .access
      else if w then writeOp r d
      else readOp r := by
  unfold decodeTransaction
  simp only [regAt_addr]
  rw [if_neg (by cases r <;> decide)]

/-- Decoding answers `unmapped`, or the address is a register's. -/
theorem decodeTransaction_cases (t : Transaction) :
    decodeTransaction t = .err .unmapped ∨ ∃ r : Reg, t.addr = r.addr := by
  unfold decodeTransaction
  split
  · exact .inl rfl
  · split
    · exact .inl rfl
    · next h => exact .inr ⟨_, addr_of_regAt h⟩

theorem decode_of_addr {t : TWord} {r : Reg} (h : t.fields.addr = r.addr) :
    decode t =
      if t.fields.write && r.access == .ro then .err .access
      else if !t.fields.write && r.access == .wo then .err .access
      else if t.fields.write then writeOp r t.fields.data
      else readOp r := by
  unfold decode
  rw [show t.fields = ⟨t.fields.write, r.addr, t.fields.data⟩ by rw [← h], decodeTransaction_reg]

theorem decode_read {r : Reg} {i : Instr} (hr : readOp r = .op i) (ha : (r.access == .wo) = false) (d : Word) :
    decode (Transaction.word ⟨false, r.addr, d⟩) = .op i := by
  rw [decode_word, decodeTransaction_reg, ha]; simp [hr]

theorem decode_write {r : Reg} {i : Instr} {d : Word} (hr : writeOp r d = .op i) (ha : (r.access == .ro) = false) :
    decode (Transaction.word ⟨true, r.addr, d⟩) = .op i := by
  rw [decode_word, decodeTransaction_reg, ha]; simp [hr]

/-! ## Operands -/

theorem shapeOfData_extract (d : Word) : (shapeOfData d).code = d.extractLsb' 0 2 := by
  apply BitVec.eq_of_toNat_eq
  simp only [BitVec.extractLsb'_toNat, Nat.shiftRight_zero]
  unfold shapeOfData
  have : d.toNat % 2^2 = d.toNat % 4 := by norm_num
  rw [this]
  split
  · next h => rw [h]; rfl
  · split
    · next h => rw [h]; rfl
    · split
      · next h => rw [h]; rfl
      · rw [show d.toNat % 4 = 3 by omega]; rfl

/-- A command's word is the whole of its DATA (30_encoding.md R72, R77). -/
theorem commandOp_iff (d : Word) (i : Instr) :
    commandOp d = .op i ↔ i.transaction.write = true ∧ i.transaction.addr = 0x08#8 ∧ d = i.transaction.data := by
  have hd := d.isLt
  unfold commandOp
  constructor
  · intro h
    split at h
    · cases h
    · have : ∀ n : Nat, n < 2^32 → d.toNat = n → d = BitVec.ofNat 32 n := by
        intro n hn e; apply BitVec.eq_of_toNat_eq; rw [e, BitVec.toNat_ofNat, Nat.mod_eq_of_lt hn]
      split at h
      · cases h; exact ⟨rfl, rfl, this 0 (by omega) (by omega)⟩
      · split at h
        · cases h; exact ⟨rfl, rfl, this 1 (by omega) (by omega)⟩
        · split at h
          · cases h; exact ⟨rfl, rfl, this 2 (by omega) (by omega)⟩
          · split at h
            · cases h; exact ⟨rfl, rfl, this 3 (by omega) (by omega)⟩
            · cases h; exact ⟨rfl, rfl, this 4 (by omega) (by omega)⟩
  · rintro ⟨h1, h2, rfl⟩
    cases i <;> first | rfl | exact absurd h1 (by decide) | exact absurd h2 (by decide) | simp [Instr.transaction] at h2

theorem commandOp_err (d : Word) :
    (commandOp d = .err .cmd ↔ 4 < d.toNat) ∧ commandOp d ≠ .err .unmapped ∧ commandOp d ≠ .err .access := by
  unfold commandOp
  by_cases h : d.toNat / 16 ≠ 0 ∨ 4 < d.toNat % 16
  · rw [if_pos h]
    exact ⟨⟨fun _ => by omega, fun _ => rfl⟩, by simp, by simp⟩
  · rw [if_neg h]
    have h4 : ¬ 4 < d.toNat := by omega
    split <;> [skip; split] <;> [skip; skip; split] <;> [skip; skip; skip; split] <;> simp <;> omega

end Sys2Proof
end

