-- ==== Sys2Proof/Laws/State.lean ====
section
/-! SUPPORT. The shared operations' lemmas: what each answers, field by field, and that decoding and the port's ends say
everything a step can do. -/

namespace Sys2Proof.Machine

/-! ## The ends of a transaction -/

theorem respondRead_eq (v : Word) (s : State) : respondRead v s = .next { s with resp := .okay, rdata := v } := rfl

theorem respondWrite_eq (s : State) : respondWrite s = .next { s with resp := .okay, rdata := 0#32 } := rfl

@[simp] theorem respondError_resp (e : PortError) (s : State) : (respondError e s).resp = e.resp := rfl
@[simp] theorem respondError_rdata (e : PortError) (s : State) : (respondError e s).rdata = 0#32 := rfl
@[simp] theorem respondError_fs (e : PortError) (s : State) : (respondError e s).fs = s.fs := rfl
@[simp] theorem respondError_rateT (e : PortError) (s : State) : (respondError e s).rateT = s.rateT := rfl
@[simp] theorem respondError_depthT (e : PortError) (s : State) : (respondError e s).depthT = s.depthT := rfl
@[simp] theorem respondError_wet (e : PortError) (s : State) : (respondError e s).wet = s.wet := rfl
@[simp] theorem respondError_ofs (e : PortError) (s : State) : (respondError e s).ofs = s.ofs := rfl
@[simp] theorem respondError_shape (e : PortError) (s : State) : (respondError e s).shape = s.shape := rfl
@[simp] theorem respondError_phase (e : PortError) (s : State) : (respondError e s).phase = s.phase := rfl
@[simp] theorem respondError_smR (e : PortError) (s : State) : (respondError e s).smR = s.smR := rfl
@[simp] theorem respondError_smD (e : PortError) (s : State) : (respondError e s).smD = s.smD := rfl
@[simp] theorem respondError_dataL (e : PortError) (s : State) : (respondError e s).dataL = s.dataL := rfl
@[simp] theorem respondError_dataR (e : PortError) (s : State) : (respondError e s).dataR = s.dataR := rfl
@[simp] theorem respondError_win (e : PortError) (s : State) : (respondError e s).win = s.win := rfl
@[simp] theorem respondError_nanDraw (e : PortError) (s : State) : (respondError e s).nanDraw = s.nanDraw := rfl
@[simp] theorem respondError_pending (e : PortError) (s : State) : (respondError e s).pending = s.pending := rfl

/-! ## Reset -/

@[simp] theorem assertReset_pending (s : State) : (assertReset s).pending = s.pending := rfl
@[simp] theorem assertReset_nanDraw (s : State) : (assertReset s).nanDraw = s.nanDraw := rfl

theorem assertReset_eq (s : State) :
    assertReset s = { State.reset with nanDraw := s.nanDraw, pending := s.pending } := rfl

/-! ## Re-seeding a smoother -/

theorem TAU_floor : tauFloor TAU = TAU := by decide

theorem TAU_floor_coef (fs : Word) : smCoef (tauFloor TAU) fs = smCoef TAU fs := by rw [TAU_floor]

theorem positiveOrDefault_pos (v : Word) : fGt (positiveOrDefault v) F_ZERO = true := by
  unfold positiveOrDefault
  split
  · assumption
  · decide

theorem positiveOrDefault_idem (v : Word) : positiveOrDefault (positiveOrDefault v) = positiveOrDefault v := by
  rw [positiveOrDefault, positiveOrDefault_pos, if_pos rfl]

/-- All of a re-seeded smoother (42_engine_config.md R142). -/
theorem smReseed_eq (m : Smoother) (v target : Word) :
    smReseed m (positiveOrDefault v) target =
      { y := target, tau := TAU, fs := positiveOrDefault v, a := smCoef TAU (positiveOrDefault v) } := by
  simp [smReseed, smReset, smSetTimeConstant, smSetSampleRate, TAU_floor, positiveOrDefault_idem]

@[simp] theorem smProcess_y (k : Draw) (m : Smoother) (t : Word) : (smProcess k m t).y = smNext k m.a m.y t := rfl
@[simp] theorem smProcess_tau (k : Draw) (m : Smoother) (t : Word) : (smProcess k m t).tau = m.tau := rfl
@[simp] theorem smProcess_fs (k : Draw) (m : Smoother) (t : Word) : (smProcess k m t).fs = m.fs := rfl
@[simp] theorem smProcess_a (k : Draw) (m : Smoother) (t : Word) : (smProcess k m t).a = m.a := rfl

/-! ## The window -/

theorem winPush_room {win : List Word} {x : Word} (h : win.length < N) : winPush win x = win ++ [x] := by
  unfold winPush
  rw [if_neg (by simp; omega)]

theorem winPush_full {win : List Word} {x : Word} (h : N ≤ win.length) : winPush win x = (win ++ [x]).tail := by
  unfold winPush
  rw [if_pos (by simp; omega)]

theorem winPush_length (win : List Word) (x : Word) :
    (winPush win x).length = if win.length < N then win.length + 1 else win.length := by
  split
  · next h => simp [winPush_room h]
  · next h => simp [winPush_full (Nat.le_of_not_lt h)]

/-! ## What an operation and a step can do -/

/-- Every operation answers a next state, with resp = OKAY, and leaves what the host presents next alone. -/
theorem exec_next (i : Instr) (s : State) : ∃ t, exec i s = .next t ∧ t.resp = .okay ∧ t.pending = s.pending := by
  cases i <;> exact ⟨_, rfl, rfl, rfl⟩

/-- A step does nothing, or takes one whole event: a transaction's operation, its error response, or a reset. -/
theorem step_cases (s : State) :
    (s.pending = [] ∧ step s = .next s) ∨
    (∃ t rest i, s.pending = .transact t :: rest ∧ decode t = .op i ∧ step s = exec i { s with pending := rest }) ∨
    (∃ t rest e, s.pending = .transact t :: rest ∧ decode t = .err e ∧
      step s = .next (respondError e { s with pending := rest })) ∨
    (∃ rest, s.pending = .rst :: rest ∧ step s = .next (assertReset { s with pending := rest })) := by
  unfold step portStep
  split
  · next h => exact .inl ⟨h, rfl⟩
  · next e rest h =>
    cases e with
    | rst => exact .inr (.inr (.inr ⟨rest, h, rfl⟩))
    | transact t =>
      cases hd : decode t with
      | op i => exact .inr (.inl ⟨t, rest, i, h, hd, by simp [accept, transact, hd]⟩)
      | err e => exact .inr (.inr (.inl ⟨t, rest, e, h, hd, by simp [accept, transact, hd]⟩))

/-! ## Sequencing -/

@[simp] theorem andThen_next {α β : Type} (a : α) (f : α → Host.Outcome β Fault Refusal) :
    andThen (.next a) f = f a := rfl

end Sys2Proof.Machine
end

