-- ==== Sys2Proof/Laws/Host.lean ====
section
/-! SUPPORT. Lemmas about steps, runs and the host's sequences: what one event does, that an operation does not read what
the host presents later, and which operation each of the host's transactions is. -/

namespace Sys2Proof.Machine

/-! ## Steps -/

theorem transact_op {t : TWord} {i : Instr} (h : decode t = .op i) (s : State) : transact t s = exec i s := by
  simp [transact, h]

theorem transact_err {t : TWord} {e : PortError} (h : decode t = .err e) (s : State) :
    transact t s = .next (respondError e s) := by
  simp [transact, h]

theorem step_op {s : State} {t : TWord} {rest : List PortEvent} {i : Instr} (h : s.pending = .transact t :: rest)
    (hd : decode t = .op i) : step s = exec i { s with pending := rest } := by
  simp [step, portStep, h, accept, transact_op hd]

theorem step_err {s : State} {t : TWord} {rest : List PortEvent} {e : PortError} (h : s.pending = .transact t :: rest)
    (hd : decode t = .err e) : step s = .next { s with pending := rest, resp := e.resp, rdata := 0#32 } := by
  simp [step, portStep, h, accept, transact_err hd, respondError]

/-- Every step answers a next state and takes one event. -/
theorem step_next (s : State) : ∃ t, step s = .next t ∧ t.pending = s.pending.tail := by
  rcases step_cases s with ⟨h, hs⟩ | ⟨t, rest, i, h, hd, hs⟩ | ⟨t, rest, e, h, hd, hs⟩ | ⟨rest, h, hs⟩
  · exact ⟨s, hs, by simp [h]⟩
  · obtain ⟨u, hu, -, hp⟩ := exec_next i { s with pending := rest }
    exact ⟨u, by rw [hs, hu], by rw [hp, h]; rfl⟩
  · exact ⟨_, hs, by simp [h]⟩
  · exact ⟨_, hs, by simp [h]⟩

/-- No operation reads what the host presents next. -/
theorem exec_pending {i : Instr} {s t : State} (p : List PortEvent) (h : exec i s = .next t) :
    exec i { s with pending := p } = .next { t with pending := p } := by
  cases i <;> (cases h; rfl)

theorem run_succ {s u : State} (n : Nat) (h : step s = .next u) :
    Sys2Proof.core.run (n + 1) s = Sys2Proof.core.run n u := by
  have h' : Sys2Proof.core.step s = .next u := h
  simp only [Host.Core.run, h']

theorem length_of_interleaves {xs ys zs : List PortEvent} (h : Interleaves xs ys zs) :
    zs.length = xs.length + ys.length := by
  induction h <;> simp_all <;> omega

/-! ## The host's transactions -/

theorem hostWrite_eq {r : Reg} {i : Instr} {d : Word} (hr : writeOp r d = .op i) (ha : (r.access == .ro) = false)
    (s : State) : hostWrite r d s = exec i s :=
  transact_op (decode_write hr ha) s

theorem hostRead_eq {r : Reg} {i : Instr} (hr : readOp r = .op i) (ha : (r.access == .wo) = false) (s : State) :
    hostRead r s = andThen (exec i s) fun t => .next (t, t.rdata) := by
  rw [hostRead, busRead, transact_op (decode_read hr ha _)]

theorem hostCommand_eq {op : CmdOp} {i : Instr} (h : commandOp op.code = .op i) (s : State) :
    hostCommand op s = exec i s :=
  transact_op (decode_write (r := .cmd) h rfl) s

theorem transact_wr {r : Reg} {i : Instr} {v : AsmValue} (hr : writeOp r (asmPattern v) = .op i)
    (ha : (r.access == .ro) = false) (s : State) : transact (assemble (.wr r v)) s = exec i s :=
  transact_op (decode_write hr ha) s

theorem transact_cmd {op : CmdOp} {i : Instr} (h : commandOp op.code = .op i) (s : State) :
    transact (assemble (.cmd op)) s = exec i s :=
  transact_op (decode_write (r := .cmd) h rfl) s

/-! ## The form of the statements about one register or command -/

theorem readsAs_of {r : Reg} {i : Instr} {v : State → Word} (hr : readOp r = .op i) (ha : (r.access == .wo) = false)
    (hv : ∀ s, exec i s = .next { s with resp := .okay, rdata := v s }) : ReadsAs i r r.addr v :=
  ⟨rfl, decode_read hr ha, hv⟩

theorem writesAs_of {r : Reg} {i : Word → Instr} {f : Word → State → State} (hr : ∀ d, writeOp r d = .op (i d))
    (ha : (r.access == .ro) = false) (hv : ∀ d s, exec (i d) s = .next { f d s with resp := .okay, rdata := 0#32 }) :
    WritesAs i r r.addr f :=
  ⟨fun d => ⟨rfl, decode_write (hr d) ha⟩, hv⟩

theorem commandsAs_of {op : CmdOp} {i : Instr} {f : State → State} (h : commandOp op.code = .op i)
    (hv : ∀ s, exec i s = .next { f s with resp := .okay, rdata := 0#32 }) : CommandsAs i op op.code f :=
  ⟨rfl, decode_write (r := .cmd) h rfl, hv⟩

end Sys2Proof.Machine
end

