-- ==== Sys2Proof/Laws/PerInstr.lean ====
section
/-! SUPPORT. Statements made for each operation as a piece of text: the row of 30_encoding.md R80 that it stands for. -/

namespace Sys2Proof.Laws.OpcodeRow

/-- The encoding of the operation carries no bit outside its care mask, and its transaction is well formed: W and ADDR are
a row of R80 and DATA lies in the bits the row gives a meaning. -/
def Statement (i : Instr) : Prop :=
  i.transaction.data &&& i.dataMask = i.transaction.data ∧ i.transaction.wf = true

theorem allOnes_and (v : Word) : v &&& 0xFFFFFFFF#32 = v :=
  BitVec.and_allOnes

/-- A write to an address that is none of CMD's and passes the checks on W and ADDR is well formed whatever its DATA. -/
theorem wf_write {a : Addr} (v : Word) (h : (a == 0x08#8) = false ∧ Transaction.wf ⟨true, a, 0#32⟩ = true) :
    Transaction.wf ⟨true, a, v⟩ = true := by
  simp_all [Transaction.wf, Transaction.aligned, Transaction.mapped, Transaction.writable, Transaction.readable,
    Transaction.commandDefined]

theorem rdId : Statement .rdId := by unfold Statement; decide
theorem rdStatus : Statement .rdStatus := by unfold Statement; decide
theorem cmdNop : Statement .cmdNop := by unfold Statement; decide
theorem cmdProcessMono : Statement .cmdProcessMono := by unfold Statement; decide
theorem cmdProcessStereo : Statement .cmdProcessStereo := by unfold Statement; decide
theorem cmdFeatPush : Statement .cmdFeatPush := by unfold Statement; decide
theorem cmdFeatReset : Statement .cmdFeatReset := by unfold Statement; decide
theorem rdFeatCount : Statement .rdFeatCount := by unfold Statement; decide
theorem rdSampleRate : Statement .rdSampleRate := by unfold Statement; decide
theorem wrSampleRate (v : Word) : Statement (.wrSampleRate v) := ⟨allOnes_and v, wf_write v (by decide)⟩
theorem rdRate : Statement .rdRate := by unfold Statement; decide
theorem wrRate (v : Word) : Statement (.wrRate v) := ⟨allOnes_and v, wf_write v (by decide)⟩
theorem rdDepth : Statement .rdDepth := by unfold Statement; decide
theorem wrDepth (v : Word) : Statement (.wrDepth v) := ⟨allOnes_and v, wf_write v (by decide)⟩
theorem rdWet : Statement .rdWet := by unfold Statement; decide
theorem wrWet (v : Word) : Statement (.wrWet v) := ⟨allOnes_and v, wf_write v (by decide)⟩
theorem wrStereoDeg (v : Word) : Statement (.wrStereoDeg v) := ⟨allOnes_and v, wf_write v (by decide)⟩
theorem rdStereoOfs : Statement .rdStereoOfs := by unfold Statement; decide
theorem rdShape : Statement .rdShape := by unfold Statement; decide
theorem wrShape (sh : Shape) : Statement (.wrShape sh) := by unfold Statement; cases sh <;> decide
theorem rdPhase : Statement .rdPhase := by unfold Statement; decide
theorem rdRateSm : Statement .rdRateSm := by unfold Statement; decide
theorem rdDepthSm : Statement .rdDepthSm := by unfold Statement; decide
theorem rdSmoothCoef : Statement .rdSmoothCoef := by unfold Statement; decide
theorem rdDataL : Statement .rdDataL := by unfold Statement; decide
theorem wrDataL (v : Word) : Statement (.wrDataL v) := ⟨allOnes_and v, wf_write v (by decide)⟩
theorem rdDataR : Statement .rdDataR := by unfold Statement; decide
theorem wrDataR (v : Word) : Statement (.wrDataR v) := ⟨allOnes_and v, wf_write v (by decide)⟩
theorem rdRms : Statement .rdRms := by unfold Statement; decide
theorem rdZcr : Statement .rdZcr := by unfold Statement; decide

end Sys2Proof.Laws.OpcodeRow
end

