-- ==== Sys2Proof/Tests/Slice0.lean ====
section
/-! SUPPORT. The model's own tests, and for each obligation with hypotheses a concrete case that meets them. Expected values
come from spec/95_test_vectors.md (its rows marked "any", or its "ref" rows with the reference coefficient 0x3F7F779C given
as a value) and from the examples of the rules; words are written out from 30_encoding.md R71 and R80. -/

set_option Elab.async false

namespace Sys2Proof.Tests

open Sys2Proof Sys2Proof.Machine

/-! ## Well-formedness: each check of 30_encoding.md R79 refuses a transaction that passes the checks before it -/

theorem test_wf_misaligned : Transaction.aligned ⟨true, 0x15#8, 0#32⟩ = false := by decide
theorem test_wf_unmapped_hole :
    Transaction.aligned ⟨false, 0x3C#8, 0#32⟩ = true ∧ Transaction.mapped ⟨false, 0x3C#8, 0#32⟩ = false := by decide
theorem test_wf_unmapped_top :
    Transaction.mapped ⟨true, 0x50#8, 0#32⟩ = false ∧ Transaction.mapped ⟨true, 0x4C#8, 0#32⟩ = true := by decide
theorem test_wf_write_read_only :
    Transaction.mapped ⟨true, 0x2C#8, 0#32⟩ = true ∧ Transaction.writable ⟨true, 0x2C#8, 0#32⟩ = false := by decide
theorem test_wf_read_write_only :
    Transaction.writable ⟨false, 0x20#8, 0#32⟩ = true ∧ Transaction.readable ⟨false, 0x20#8, 0#32⟩ = false := by decide
theorem test_wf_reserved_command :
    Transaction.readable ⟨true, 0x08#8, 5#32⟩ = true ∧ Transaction.commandDefined ⟨true, 0x08#8, 5#32⟩ = false := by decide
theorem test_wf_reserved_command_bits :
    Transaction.commandDefined ⟨true, 0x08#8, 0x80000001#32⟩ = false ∧ Transaction.wf ⟨true, 0x08#8, 4#32⟩ = true := by decide

/-! ## Decoding: one word for each row of 30_encoding.md R80 -/

theorem test_decode_identification_reads :
    decode 0x00000000000#41 = .op .rdId ∧ decode 0x00400000000#41 = .op .rdStatus ∧
    decode 0x00C00000000#41 = .op .rdFeatCount := by decide

theorem test_decode_commands :
    decode 0x10800000000#41 = .op .cmdNop ∧ decode 0x10800000001#41 = .op .cmdProcessMono ∧
    decode 0x10800000002#41 = .op .cmdProcessStereo ∧ decode 0x10800000003#41 = .op .cmdFeatPush ∧
    decode 0x10800000004#41 = .op .cmdFeatReset := by decide

theorem test_decode_parameter_reads :
    decode 0x01000000000#41 = .op .rdSampleRate ∧ decode 0x01400000000#41 = .op .rdRate ∧
    decode 0x01800000000#41 = .op .rdDepth ∧ decode 0x01C00000000#41 = .op .rdWet ∧
    decode 0x02400000000#41 = .op .rdStereoOfs ∧ decode 0x02800000000#41 = .op .rdShape := by decide

theorem test_decode_internal_reads :
    decode 0x02C00000000#41 = .op .rdPhase ∧ decode 0x03000000000#41 = .op .rdRateSm ∧
    decode 0x03400000000#41 = .op .rdDepthSm ∧ decode 0x03800000000#41 = .op .rdSmoothCoef := by decide

theorem test_decode_data_and_feature_reads :
    decode 0x04000000000#41 = .op .rdDataL ∧ decode 0x04400000000#41 = .op .rdDataR ∧
    decode 0x04800000000#41 = .op .rdRms ∧ decode 0x04C00000000#41 = .op .rdZcr := by decide

theorem test_decode_writes :
    decode 0x110473B8000#41 = .op (.wrSampleRate 0x473B8000#32) ∧ decode 0x11440A00000#41 = .op (.wrRate 0x40A00000#32) ∧
    decode 0x1183F000000#41 = .op (.wrDepth 0x3F000000#32) ∧ decode 0x11C3F800000#41 = .op (.wrWet 0x3F800000#32) ∧
    decode 0x12042B40000#41 = .op (.wrStereoDeg 0x42B40000#32) ∧ decode 0x12800000002#41 = .op (.wrShape .square) ∧
    decode 0x1403F4CCCCD#41 = .op (.wrDataL 0x3F4CCCCD#32) ∧ decode 0x1443E99999A#41 = .op (.wrDataR 0x3E99999A#32) := by
  decide

/-- Section 2.2: a read ignores DATA, and each error cause with its priority. -/
theorem test_decode_errors :
    decode 0x0000000FFFF#41 = .op .rdId ∧ decode 0x03C00000000#41 = .err .unmapped ∧
    decode 0x00200000000#41 = .err .unmapped ∧ decode 0x0FC00000000#41 = .err .unmapped ∧
    decode 0x10000000000#41 = .err .access ∧ decode 0x12C3F000000#41 = .err .access ∧
    decode 0x00800000000#41 = .err .access ∧ decode 0x02000000000#41 = .err .access ∧
    decode 0x1080000000F#41 = .err .cmd ∧ decode 0x10800000010#41 = .err .cmd ∧
    decode 0x10900000001#41 = .err .unmapped := by decide

/-- Section 1.9 and program P1: assembler lines. -/
theorem test_assemble :
    assemble (.wr .shape (.integer 3)) = 0x12800000003#41 ∧ assemble (.cmd .processMono) = 0x10800000001#41 ∧
    assemble (.rd .dataL) = 0x04000000000#41 ∧ assemble (.wr .rate (.decimal false 12000 1)) = 0x114463B8000#41 ∧
    assemble (.wr .depth (.inf true)) = 0x118FF800000#41 ∧ assemble (.wr .wet .nan) = 0x11C7FC00000#41 := by
  decide +kernel

theorem test_table_word :
    decodeTableWord 48 0x10800000003 = some .cmdFeatPush ∧ decodeTableWord 48 0x10800000005 = none ∧
    decodeTableWord 48 0x200000000000 = none := by decide

/-! ## Constants of 00_scope.md R9 against their decimals -/

theorem test_constants :
    fOfRat false 1 100 = TAU ∧ fOfRat false 1 1000000 = TAU_MIN ∧ fOfRat false 1 (10 ^ 20) = EPS_SMOOTH ∧
    fOfRat false 1 (10 ^ 20) = EPS_MIX ∧ fOfRat false 1 1000 = RATE_MIN ∧ fOfRat false 1 (2 ^ 24) = INC_MIN ∧
    fOfNat 48000 = FS_DEFAULT ∧ fOfNat 180 = DEG_MAX ∧ fOfNat 360 = DEG_PER_CYCLE ∧
    fOfRat false 628318530717958647 (10 ^ 17) = TWO_PI_F32 := by decide +kernel

/-! ## Arithmetic -/

theorem test_arithmetic_examples :
    fMul none 0x3C23D70A#32 0x473B8000#32 = 0x43F00000#32 ∧ fDiv none F_NEG_ONE 0x43F00000#32 = 0xBB088889#32 ∧
    fDiv none 0x40A00000#32 0x473B8000#32 = 0x38DA740E#32 ∧ fDiv none 0x40A00000#32 0x00000001#32 = 0x7F800000#32 ∧
    fAdd none 0x7F7FFFFF#32 0x7F7FFFFF#32 = 0x7F800000#32 ∧ fMul none TWO_PI_F32 0x3F400000#32 = 0x4096CBE4#32 := by
  decide +kernel

/-- 90_conflicts.md C3's floor, a subnormal product and a subnormal tie. -/
theorem test_arithmetic_edges :
    fAdd none 0x3F400000#32 INC_MIN = 0x3F400001#32 ∧ fMul none 0x00800000#32 F_HALF = 0x00400000#32 ∧
    fMul none 0x00000003#32 F_HALF = 0x00000002#32 ∧ fMul none 0x00000001#32 F_HALF = 0x00000000#32 := by
  decide +kernel

theorem test_square_root :
    fSqrt none 0x3DE66666#32 = 0x3EABBAE2#32 ∧ fSqrt none 0x3E000000#32 = 0x3EB504F3#32 ∧
    fSqrt none 0x00000001#32 = 0x1A3504F3#32 := by decide +kernel

/-- Section 1.3's wrap cases. -/
theorem test_wrap :
    frac 0x3FA00000#32 = 0x3E800000#32 ∧ frac 0x40000000#32 = F_ZERO ∧ frac 0x40100000#32 = 0x3E800000#32 ∧
    frac 0x7F800000#32 = F_ZERO ∧ frac 0x3F7FFFFF#32 = 0x3F7FFFFF#32 := by decide +kernel

/-! ## Smoother, section 2.4 -/

theorem test_smoother_steps :
    smNext none 0x3F7F779C#32 F_ZERO F_ONE = 0x3B086400#32 ∧ smNext none 0x3F7F779C#32 F_ZERO F_ZERO = 0x1E3C8065#32 ∧
    smNext none 0x3F7F779C#32 0x40A00000#32 0x41200000#32 = 0x40A0553F#32 ∧
    smNext none 0x3F7F779C#32 0x40A0AA50#32 0x41200000#32 = 0x40A0FF34#32 := by decide +kernel

theorem test_smoother_ends :
    smNext none F_ONE 0x40A00000#32 0x41200000#32 = 0x40A00000#32 ∧
    smNext none F_ZERO 0x40A00000#32 0x41200000#32 = 0x41200000#32 ∧
    smNext none 0x3F7F779C#32 0x40A00000#32 0x7F800000#32 = 0x7F800000#32 := by decide +kernel

/-! ## Waveforms, gain, mixer, sections 2.5 and 2.6 -/

theorem test_triangle :
    wave none .triangle 0x3E000000#32 = 0x3E800000#32 ∧ wave none .triangle 0x3F200000#32 = 0x3F400000#32 ∧
    wave none .triangle 0x3F7FFFFF#32 = 0x34000000#32 := by decide +kernel

/-- At phase 0 the sine is +0.0 for every instance. -/
theorem test_waves_at_zero : wave none .sine F_ZERO = F_HALF ∧ wave none .square F_ZERO = F_ONE := by decide +kernel

theorem test_gain :
    gain none F_HALF F_HALF = 0x3F400000#32 ∧ gain none F_ONE 0x3EFFFFFF#32 = F_HALF ∧
    gain none 0x3F333333#32 0x3F5A827A#32 = 0x3ECE1622#32 := by decide +kernel

theorem test_mix :
    mix none F_HALF F_HALF F_HALF = 0x3EC00000#32 ∧ mix none 0x3E800000#32 0x3E800000#32 F_HALF = 0x3E600000#32 ∧
    mix none 0x3F400000#32 0x3E99999A#32 0x3E800000#32 = 0x3E066667#32 ∧ mix none F_ONE F_ZERO F_HALF = 0x1DBCE508#32 ∧
    mix none F_ZERO 0xC0000000#32 F_ONE = F_NEG_ONE ∧ mix none F_HALF 0x7F800000#32 F_HALF = F_ONE := by
  decide +kernel

/-! ## Operations -/

/-- The state after an operation. -/
def after (i : Instr) (s : State) : State :=
  match exec i s with
  | .next t => t
  | .fault _ => s
  | .refused _ => s

/-- The reset state with the reference coefficient 0x3F7F779C in both smoothers. -/
def live : State :=
  { State.reset with
    smR := { y := 0x40A00000#32, tau := TAU, fs := FS_DEFAULT, a := 0x3F7F779C#32 }
    smD := { y := F_ZERO, tau := TAU, fs := FS_DEFAULT, a := 0x3F7F779C#32 } }

theorem test_id : (after .rdId State.reset).rdata = 0x54520100#32 := by decide +kernel
theorem test_status : (after .rdStatus State.reset).rdata = 0#32 := by decide +kernel
theorem test_feat_count : (after .rdFeatCount { State.reset with win := [F_ZERO, F_ONE] }).rdata = 2#32 := by decide +kernel

/-- Section 2.3. -/
theorem test_sample_rate :
    (after (.wrSampleRate 0x80000000#32) State.reset).fs = 0x473B8000#32 ∧
    (after .rdSampleRate (after (.wrSampleRate 0x472C4400#32) State.reset)).rdata = 0x472C4400#32 := by decide +kernel

theorem test_sample_rate_reseeds :
    (after (.wrSampleRate F_ONE) { State.reset with rateT := 0x41200000#32, smR := { State.reset.smR with y := F_ZERO } }).smR.y
      = 0x41200000#32 := by decide +kernel

theorem test_rate :
    (after (.wrRate 0xBF800000#32) State.reset).rateT = 0x3A83126F#32 ∧
    (after .rdRate (after (.wrRate 0x7F800000#32) State.reset)).rdata = 0x7F800000#32 := by decide +kernel

theorem test_depth :
    (after (.wrDepth 0x80000000#32) State.reset).depthT = 0x80000000#32 ∧
    (after .rdDepth (after (.wrDepth 0x40000000#32) State.reset)).rdata = 0x3F800000#32 := by decide +kernel

theorem test_wet :
    (after (.wrWet 0x7FC00000#32) State.reset).wet = F_ZERO ∧
    (after .rdWet (after (.wrWet 0x38D1B717#32) State.reset)).rdata = 0x38D1B717#32 := by decide +kernel

theorem test_stereo :
    (after (.wrStereoDeg 0x38D1B717#32) State.reset).ofs = 0x3495217C#32 ∧
    (after .rdStereoOfs (after (.wrStereoDeg 0x40000000#32) State.reset)).rdata = 0x3BB60B61#32 := by decide +kernel

theorem test_shape :
    (after .rdShape (after (.wrShape .squareSoft) State.reset)).rdata = 3#32 ∧
    decode 0x128FFFFFFFE#41 = .op (.wrShape .square) := by decide +kernel

theorem test_internal_reads :
    (after .rdPhase { live with phase := F_HALF }).rdata = F_HALF ∧ (after .rdRateSm live).rdata = 0x40A00000#32 ∧
    (after .rdDepthSm { live with smD := { live.smD with y := F_ONE } }).rdata = F_ONE ∧
    (after .rdSmoothCoef { live with smD := { live.smD with a := F_ONE } }).rdata = 0x3F7F779C#32 := by decide +kernel

theorem test_data_registers :
    (after .rdDataL (after (.wrDataL 0x7FC00001#32) State.reset)).rdata = 0x7FC00001#32 ∧
    (after .rdDataR (after (.wrDataR 0xFFFFFFFF#32) State.reset)).rdata = 0xFFFFFFFF#32 := by decide +kernel

/-- Section 2.7, first and second rows. -/
theorem test_process_mono :
    (after .cmdProcessMono { live with dataL := 0x3E4CCCCD#32, dataR := 0x3E99999A#32 }).dataL = 0x3E4CCCCD#32 ∧
    (after .cmdProcessMono { live with dataL := 0x3E4CCCCD#32, dataR := 0x3E99999A#32 }).dataR = 0x3E99999A#32 ∧
    (after .cmdProcessMono live).phase = 0x38DA740E#32 ∧ (after .cmdProcessMono live).smR.y = 0x40A00000#32 ∧
    (after .cmdProcessMono live).smD.y = 0x1E3C8065#32 := by decide +kernel

/-- Program P5: Square at phase 0 with depth 1 gives the gain +0.0. -/
theorem test_process_mono_square :
    (after .cmdProcessMono
      { live with depthT := F_ONE, smD := { live.smD with y := F_ONE }, shape := .square, dataL := F_HALF }).dataL = F_ZERO ∧
    (after .cmdProcessMono { live with depthT := F_ONE, smD := { live.smD with y := F_ONE } }).smD.y = F_ONE := by
  decide +kernel

/-- Section 2.7, third row and the Triangle row. -/
theorem test_process_stereo :
    (after .cmdProcessStereo { live with dataL := 0x3FC00000#32, dataR := 0xC0400000#32 }).dataL = F_ONE ∧
    (after .cmdProcessStereo
      { live with depthT := F_ONE, smD := { live.smD with y := F_ONE }, shape := .triangle, ofs := 0x3E800000#32,
                  dataL := F_ONE, dataR := F_ONE }).dataL = F_ONE ∧
    (after .cmdProcessStereo
      { live with depthT := F_ONE, smD := { live.smD with y := F_ONE }, shape := .triangle, ofs := 0x3E800000#32,
                  dataL := F_ONE, dataR := F_ONE }).dataR = F_HALF := by decide +kernel

theorem test_nop : after .cmdNop { live with resp := .errCmd, rdata := 7#32 } = { live with resp := .okay, rdata := 0#32 } := rfl

/-- Section 2.8. -/
theorem test_feat_push :
    (after .cmdFeatPush { State.reset with win := [F_ONE], dataL := 0x3DCCCCCD#32, dataR := 0x3E4CCCCD#32 }).win =
      [F_ONE, 0x3E19999A#32] ∧
    (after .cmdFeatPush { State.reset with dataL := 0x7F7FFFFF#32, dataR := 0x7F7FFFFF#32 }).win = [0x7F800000#32] := by
  decide +kernel

theorem test_feat_reset : (after .cmdFeatReset { State.reset with win := [F_ONE] }).win = [] := by decide +kernel

theorem test_rms :
    (after .rdRms { State.reset with win := [F_ZERO, 0xBF000000#32, F_ZERO, F_HALF] }).rdata = 0x3EB504F3#32 ∧
    (after .rdRms { State.reset with win := [0x3F400000#32] }).rdata = 0x3F400000#32 := by decide +kernel

theorem test_zcr :
    (after .rdZcr { State.reset with win := [F_ZERO, 0xBF000000#32, F_ZERO, F_HALF] }).rdata = 0x3F2AAAAB#32 ∧
    (after .rdZcr { State.reset with win := [0x80000000#32, F_HALF] }).rdata = F_ZERO ∧
    (after .rdZcr { State.reset with win := [F_HALF, 0x7FC00000#32] }).rdata = F_ONE := by decide +kernel

/-- Program P4: an error response, and the next transaction is accepted as usual. -/
theorem test_error_then_operation :
    Sys2Proof.core.run 2 { live with pending := [.transact 0x10880000001#41, .transact 0x00000000000#41] } =
      .next { live with rdata := 0x54520100#32 } := rfl

/-- The first step after reset runs a presented word. -/
theorem test_first_step : step (State.reset.withFetchWord 48 0x00000000000) =
    .next { State.reset with rdata := 0x54520100#32 } := rfl

/-- 44_host_sequences.md R203: one second of frames at 48000 Hz is 1.0 in binary64, one frame is 1/48000. -/
theorem test_elapsed :
    hostElapsed 48000 48000 = some 0x3FF0000000000000#64 ∧ hostElapsed 1 48000 = some 0x3EF5D867C3ECE2A5#64 ∧
    hostElapsed 0 48000 = some 0#64 := by decide +kernel

/-- What a host sequence gives back with the state. -/
def answer (o : Host.Outcome (State × Option (List Word)) Fault Refusal) : Option (List Word) :=
  match o with
  | .next (_, b) => b
  | .fault _ => none
  | .refused _ => none

/-- 44_host_sequences.md R202: two mono frames in place; STEREO_FIRST_TWO leaves a third channel as it is. -/
theorem test_process_buffer :
    answer (hostProcessBuffer .refuse (some [0x3E800000#32, 0xC0000000#32, F_ONE]) 2 1
      { live with shape := .triangle }) = some [0x3E800000#32, F_NEG_ONE, F_ONE] ∧
    answer (hostProcessBuffer .stereoFirstTwo (some [0x3E800000#32, F_HALF, 0x40E00000#32]) 1 3 live) =
      some [0x3E800000#32, F_HALF, 0x40E00000#32] ∧
    answer (hostProcessBuffer .stereoFirstTwo (some [0x40000000#32, F_HALF, 0x40E00000#32]) 1 3 live) =
      some [F_ONE, F_HALF, 0x40E00000#32] := by decide +kernel

/-! ## Witnesses: a concrete case that meets the hypotheses of each obligation, clause by clause -/

theorem witness_DecodeIsTheOpcodeMap :
    decode 0x0000000FFFF#41 = .op .rdId ∧ 0x0000000FFFF#41 &&& Instr.rdId.careMask = encode .rdId ∧
    decode 0x10800000005#41 ≠ .op .cmdNop := by decide

theorem witness_ErrorCausesByPriority :
    decode 0x10900000001#41 = .err .unmapped ∧ decode 0x10000000000#41 = .err .access ∧
    decode 0x10800000005#41 = .err .cmd := by decide

theorem witness_UnmappedAddressIsRefusedWithoutEffect :
    (State.reset.withFetchWord 48 0x11500000000).pending = [.transact 0x11500000000#41] ∧
    (TWord.fields 0x11500000000#41).addr.toNat % 4 ≠ 0 ∧ (TWord.fields 0x03C00000000#41).addr = 0x3C#8 ∧
    0x50 ≤ (TWord.fields 0x05000000000#41).addr.toNat ∧ 0x50 ≤ (TWord.fields 0x1FC00000000#41).addr.toNat := by
  decide +kernel

theorem witness_WrongAccessIsRefusedWithoutEffect :
    (TWord.fields 0x10000000000#41).addr = Reg.id.addr ∧ (TWord.fields 0x10000000000#41).write = true ∧
    (TWord.fields 0x14C00000000#41).addr = Reg.zcr.addr ∧ (TWord.fields 0x14C00000000#41).write = true ∧
    (TWord.fields 0x02000000000#41).addr = Reg.stereoDeg.addr ∧ (TWord.fields 0x02000000000#41).write = false := by
  decide

theorem witness_ReservedCommandIsRefusedWithoutEffect :
    (TWord.fields 0x10800000005#41).addr = Reg.cmd.addr ∧ (TWord.fields 0x10800000005#41).write = true ∧
    5 ≤ ((TWord.fields 0x10800000005#41).data.extractLsb' 0 4).toNat ∧
    5 ≤ ((TWord.fields 0x1080000000F#41).data.extractLsb' 0 4).toNat ∧
    (TWord.fields 0x10800000010#41).data.extractLsb' 4 28 ≠ 0#28 ∧
    (TWord.fields 0x10880000001#41).data.extractLsb' 4 28 ≠ 0#28 := by decide

theorem witness_StepRunsTheDecodedOperation :
    (State.reset.withFetchWord 48 0x10800000000).pending = .transact 0x10800000000#41 :: State.reset.pending ∧
    decode 0x10800000000#41 = .op .cmdNop ∧ decodeTableWord 48 0x10800000000 = some .cmdNop := by decide +kernel

theorem witness_ResetInputAndIdlePort :
    ({ live with pending := [.rst] } : State).pending = .rst :: [] ∧ State.reset.pending = [] := ⟨rfl, rfl⟩

theorem witness_RunsTakeEveryEventInOrder :
    Interleaves [.rst] [.transact 0x00000000000#41] [.transact 0x00000000000#41, .rst] ∧
    Sys2Proof.core.run 1 { live with pending := [.transact 0x00000000000#41] } =
      .next { live with rdata := 0x54520100#32 } :=
  ⟨.right _ (.left _ .done), rfl⟩

theorem witness_EngineReads :
    fGt 0x80000000#32 F_ZERO = false ∧ fGt 0x7FC00000#32 F_ZERO = false ∧ fGt 0x80000001#32 F_ZERO = false := by
  decide +kernel

theorem witness_ReadsChangeNothingAndRepeat :
    Instr.rdPhase.isRead = true ∧ exec .rdPhase live = .next { live with rdata := live.phase } := ⟨rfl, rfl⟩

theorem witness_SampleRateWriteReseedsBothSmoothers :
    fIsNaN 0x7F800001#32 = true ∧ fIsZero 0x80000000#32 = true ∧ fSign 0xFF800000#32 = true ∧
    (fIsNaN 0x00000001#32 = false ∧ fIsZero 0x00000001#32 = false ∧ fSign 0x00000001#32 = false) := by decide +kernel

theorem witness_RateWriteFloorsAtRateMin :
    fIsNaN 0xFFC00000#32 = true ∧ fIsZero 0x00000000#32 = true ∧ fSign 0x80000001#32 = true := by decide +kernel

theorem witness_DepthAndWetWritesClamp :
    fIsNaN 0x7FC00000#32 = true ∧ (fSign 0x80000001#32 = true ∧ fIsZero 0x80000001#32 = false) ∧
    fGt 0x3F800001#32 F_ONE = true := by decide +kernel

theorem witness_StereoDegreesBecomeAnOffset :
    fIsNaN 0x7FC00000#32 = true ∧ (fSign 0xFF800000#32 = true ∧ fIsZero 0xFF800000#32 = false) ∧
    fGt 0x43340001#32 0x43340000#32 = true := by decide +kernel

theorem witness_StereoOffsetInHalfCycleAndMonotone :
    fLe 0x80000000#32 0x00000000#32 = true ∧ fLe 0xFF800000#32 0x7F800000#32 = true := by decide +kernel

theorem witness_SettersAreIdempotent :
    (Instr.wrSampleRate F_ONE).isRead = false ∧ (Instr.wrSampleRate F_ONE).isProcess = false ∧
    Instr.wrSampleRate F_ONE ≠ .cmdFeatPush ∧ Instr.cmdFeatReset.isRead = false ∧
    exec .cmdFeatReset { live with win := [F_ONE] } = .next live := ⟨rfl, rfl, by decide, rfl, rfl⟩

/-- Every element is changed by some operation. -/
theorem witness_ElementsHaveOnlyTheirWriters :
    (after (.wrSampleRate F_ONE) live).fs ≠ live.fs ∧ (after (.wrRate F_ONE) live).rateT ≠ live.rateT ∧
    (after (.wrDepth F_ONE) live).depthT ≠ live.depthT ∧ (after (.wrWet F_ZERO) live).wet ≠ live.wet ∧
    (after (.wrStereoDeg F_ONE) live).ofs ≠ live.ofs ∧ (after (.wrShape .square) live).shape ≠ live.shape ∧
    (after .cmdProcessMono live).phase ≠ live.phase ∧ (after .cmdProcessMono live).smD.y ≠ live.smD.y ∧
    (after (.wrSampleRate F_ONE) live).smR.fs ≠ live.smR.fs ∧ (after (.wrSampleRate F_ONE) live).smD.fs ≠ live.smD.fs ∧
    (after .cmdProcessMono live).dataL ≠ live.dataL ∧ (after .cmdProcessStereo live).dataR ≠ live.dataR ∧
    (after .cmdFeatPush live).win ≠ live.win := by decide +kernel

theorem witness_LanesAreIndependent :
    exec .cmdProcessMono live = .next (after .cmdProcessMono live) ∧
    exec .cmdProcessStereo live = .next (after .cmdProcessStereo live) := ⟨rfl, rfl⟩

theorem witness_FeaturePushAppendsAndEvicts :
    (List.replicate 1023 F_ONE).length < 1024 ∧ (List.replicate 1024 F_ONE).length = 1024 ∧
    ({ live with win := List.replicate 1024 F_ONE } : State).win.length ≤ 1024 ∧
    (∃ t, exec .cmdFeatPush { live with win := List.replicate 1024 F_ONE } = .next t) ∧ fCode 0xFEFFFFFF#32 < 0x7F000000 :=
  ⟨by rw [List.length_replicate]; decide, List.length_replicate, (List.length_replicate (n := 1024)).le, ⟨_, rfl⟩, by decide⟩

theorem witness_FeatureResetEmptiesTheWindow :
    exec .cmdFeatReset { live with win := [F_ONE] } = .next live := rfl

theorem witness_PushesFillTheWindowOnce : live.win = [] ∧ State.reset.win = [] := ⟨rfl, rfl⟩

theorem witness_EngineIgnoresTheWindow :
    Instr.cmdProcessStereo.usesWindow = false ∧ exec .cmdProcessStereo live = .next (after .cmdProcessStereo live) :=
  ⟨rfl, rfl⟩

/-- 2^24 + 1 is a tie between 2^24 and 2^24 + 2. -/
theorem witness_ArithmeticRoundsToNearestEven_sum :
    fIsFinite (fAdd none 0x4B800000#32 F_ONE) = true ∧
    |fVal 0x4B800000#32 + fVal F_ONE - fVal (fAdd none 0x4B800000#32 F_ONE)| =
      |fVal 0x4B800000#32 + fVal F_ONE - fVal 0x4B800001#32| ∧
    fVal 0x4B800001#32 ≠ fVal (fAdd none 0x4B800000#32 F_ONE) := by decide +kernel

/-- (1 + 2^-23) * 1.5 is a tie. -/
theorem witness_ArithmeticRoundsToNearestEven_product :
    fIsFinite (fMul none 0x3F800001#32 0x3FC00000#32) = true ∧
    |fVal 0x3F800001#32 * fVal 0x3FC00000#32 - fVal (fMul none 0x3F800001#32 0x3FC00000#32) * 2 ^ 149| =
      |fVal 0x3F800001#32 * fVal 0x3FC00000#32 - fVal 0x3FC00001#32 * 2 ^ 149| ∧
    fVal 0x3FC00001#32 ≠ fVal (fMul none 0x3F800001#32 0x3FC00000#32) := by decide +kernel

/-- Three units over 2.0 is a tie among the subnormals. -/
theorem witness_ArithmeticRoundsToNearestEven_quotient :
    fIsZero 0x40000000#32 = false ∧ fIsFinite (fDiv none 0x00000003#32 0x40000000#32) = true ∧
    |fVal 0x00000003#32 * 2 ^ 149 - fVal (fDiv none 0x00000003#32 0x40000000#32) * fVal 0x40000000#32| =
      |fVal 0x00000003#32 * 2 ^ 149 - fVal 0x00000001#32 * fVal 0x40000000#32| ∧
    fVal 0x00000001#32 ≠ fVal (fDiv none 0x00000003#32 0x40000000#32) := by decide +kernel

/-- 2^103 above the largest finite value is the first sum that overflows, downwards too; the next smaller word is absorbed. -/
theorem witness_ArithmeticRoundsToNearestEven_overflow :
    (fIsFinite 0x7F7FFFFF#32 = true ∧ fIsFinite 0x73000000#32 = true) ∧
    fVal 0x7F7FFFFF#32 + fVal 0x73000000#32 = (2 ^ 25 - 1) * 2 ^ 252 ∧
    fAdd none 0x7F7FFFFF#32 0x73000000#32 = 0x7F800000#32 ∧ fSub none 0xFF7FFFFF#32 0x73000000#32 = 0xFF800000#32 ∧
    fAdd none 0x7F7FFFFF#32 0x72FFFFFF#32 = 0x7F7FFFFF#32 := by decide +kernel

/-- A fraction that rounds (f32(0.01), R9), a negative zero (R82) and a whole number above 2^24 (R209). -/
theorem witness_ArithmeticRoundsToNearestEven_conversion :
    0 < 100 ∧ fOfRat false 1 100 = 0x3C23D70A#32 ∧ fOfRat true 0 1 = 0x80000000#32 ∧
    fOfNat 16777217 = 0x4B800000#32 := by decide +kernel

theorem witness_SquareRootIsCorrectlyRounded :
    (fIsFinite 0x00000001#32 = true ∧ fSign 0x00000001#32 = false ∧ fIsZero 0x00000001#32 = false) ∧
    (fIsFinite 0x7F7FFFFF#32 = true ∧ fSign 0x7F7FFFFF#32 = false) ∧
    (fSign 0xFF800000#32 = true ∧ fIsZero 0xFF800000#32 = false) := by decide

theorem witness_SpecialValuesOfArithmetic :
    fIsNaN 0x7F800001#32 = true ∧ (fIsFinite 0x00000001#32 = true ∧ fIsZero 0x00000001#32 = false) ∧
    (16777216 : Nat) ≤ 2 ^ 24 := by decide

theorem witness_ElementaryFunctionProperties :
    fIsZero 0x80000000#32 = true ∧ fIsFinite 0x7F7FFFFF#32 = true ∧ fIsNaN 0xFF800000#32 = false ∧
    fLe 0xFF800000#32 F_ZERO = true ∧ fLe 0x80000000#32 F_ZERO = true ∧ fIsNaN 0xFFFFFFFF#32 = true := by decide +kernel

theorem witness_ClampKeepsOrReplaces :
    fIsNaN 0x7FC00000#32 = true ∧ (fIsNaN 0x80000001#32 = false ∧ fLt 0x80000001#32 F_ZERO = true) ∧
    (fLt 0x3F800001#32 F_ZERO = false ∧ fGt 0x3F800001#32 F_ONE = true) ∧
    (fLe F_ZERO 0x80000000#32 = true ∧ fLe 0x80000000#32 F_ONE = true) ∧ fLe F_ZERO 0x00000000#32 = true ∧
    (fIsNaN F_ZERO = false ∧ fIsFinite F_ONE = true) ∧ fIsFinite F_ZERO = true := by decide +kernel

theorem witness_WrapRemovesTheWholePart :
    (fIsFinite 0x80000000#32 = true ∧ fGe 0x80000000#32 F_ZERO = true) ∧
    (fLt 0x3F7FFFFF#32 F_ONE = true ∧ fSign 0x3F7FFFFF#32 = false) ∧
    (fGe F_ONE F_ONE = true ∧ fLt 0x3FFFFFFF#32 0x40000000#32 = true) ∧ fIsFinite 0x7FC00000#32 = false := by decide +kernel

theorem witness_SmootherAtTheCoefficientEnds :
    (fIsNaN 0x7F800000#32 = false ∧ fIsInf 0x7F800000#32 = true) ∧ (fIsFinite F_ONE = true ∧ fIsZero F_ONE = false) ∧
    (fIsFinite F_ZERO = true ∧ fIsZero F_ZERO = true) := by decide

theorem witness_CoefficientInUnitInterval :
    fMul none TAU 0x7F800000#32 = 0x7F800000#32 ∧ fMul none TAU 0x00000001#32 = 0x00000000#32 ∧
    fGt TAU F_ZERO = true ∧ fGt 0x00000001#32 F_ZERO = true ∧ fGt 0x7F800000#32 F_ZERO = true := by decide +kernel

theorem witness_SmootherConfiguration : fIsNaN 0x7FC00000#32 = true := by decide

theorem witness_SmootherStaysInUnitInterval :
    fIn 0x3F7F779C#32 F_ZERO F_ONE = true ∧ fIn 0x80000000#32 F_ZERO F_ONE = true ∧ fIn F_ONE F_ZERO F_ONE = true := by
  decide +kernel

theorem witness_WaveformsInUnitInterval : isPhase F_ZERO = true ∧ isPhase 0x3F7FFFFF#32 = true := by decide +kernel

theorem witness_TriangleFollowsItsRamps :
    (isPhase 0x3EFFFFFF#32 = true ∧ fLt 0x3EFFFFFF#32 F_HALF = true) ∧ (isPhase F_HALF = true ∧ fGe F_HALF F_HALF = true) := by
  decide +kernel

theorem witness_GainBounds :
    (fIn 0x32FFFFFF#32 F_ZERO F_ONE = true ∧ fLt 0x32FFFFFF#32 0x33000000#32 = true) ∧ fIsFinite 0xFF7FFFFF#32 = true ∧
    fIsNaN 0x7FC00000#32 = true := by decide +kernel

theorem witness_OutputsClampedUnlessNaN :
    (fIsNaN 0x7FC00000#32 = true ∧ fIsInf 0xFF800000#32 = true) ∧
    (fGt 0x00000001#32 F_ZERO = true ∧ fLt 0x00000001#32 F_ONE = true ∧ fLt 0x3F7FFFFF#32 F_ONE = true) ∧
    fGt 0x7F800000#32 F_ZERO = true ∧ fIsZero 0x80000000#32 = true ∧
    exec .cmdProcessMono live = .next (after .cmdProcessMono live) ∧
    exec .cmdProcessStereo live = .next (after .cmdProcessStereo live) :=
  ⟨by decide, by decide +kernel, by decide +kernel, by decide, rfl, rfl⟩

theorem witness_WetZeroPassesTheInput :
    (fSign F_ZERO = false ∧ fLe F_ZERO F_ONE = true) ∧ (fSign F_ONE = false ∧ fLe F_ONE F_ONE = true) ∧
    (fIsFinite 0xFF7FFFFF#32 = true ∧ 0xFF7FFFFF#32 ≠ 0x80000000#32) ∧ fIsInf 0xFF800000#32 = true := by decide +kernel

theorem witness_WetOneUnitGainAddsEpsilonOnly :
    fIsFinite 0x2B000000#32 = true ∧ 2 ^ 108 ≤ fMag 0x2B000000#32 ∧ fIsFinite 0x00000000#32 = true := by decide +kernel

theorem witness_IncrementGuaranteesProgress :
    fIsNaN (fDiv none 0x7FC00000#32 FS_DEFAULT) = true ∧ (isPhase 0x3F7FFFFF#32 = true ∧ fGe INC_MIN INC_MIN = true) ∧
    (fLe F_ZERO 0x33000000#32 = true ∧ fLe 0x33000000#32 0x33000000#32 = true) :=
  ⟨by simp [fDiv, (cores_of_nan 0x7FC00000#32 FS_DEFAULT (.inl (by decide))).2.2], by decide +kernel, by decide +kernel⟩

theorem witness_StereoRoundTripIdentity :
    isPhase live.phase = true ∧ live.ofs = F_ZERO ∧ live.dataL = live.dataR ∧
    exec .cmdProcessStereo live = .next (after .cmdProcessStereo live) := ⟨by decide +kernel, rfl, rfl, rfl⟩

theorem witness_ZeroCrossingRateInUnitInterval :
    ([F_ONE] : List Word).length < 2 ∧ crossings [F_ONE, F_ZERO] = 0 ∧
    (2 ≤ [F_ONE, F_NEG_ONE, F_ONE].length ∧ crossings [F_ONE, F_NEG_ONE, F_ONE] = [F_ONE, F_NEG_ONE, F_ONE].length - 1) := by
  decide +kernel

theorem witness_RootMeanSquareSigns :
    ([F_ONE, 0xFF800000#32] : List Word).length ≤ 1024 ∧
    [0x7F7FFFFF#32].foldl (fun acc x => fAdd none acc (fMul none x x)) F_ZERO = 0x7F800000#32 ∧
    (∀ x ∈ [F_ONE, 0xFF800000#32], fIsNaN x = false) ∧ (∃ x ∈ [F_ONE, 0xFF800000#32], fIsInf x = true) := by
  refine ⟨by decide, by decide +kernel, fun x hx => ?_, 0xFF800000#32, by simp, by decide⟩
  rcases List.mem_pair.1 hx with rfl | rfl <;> decide

/-- A state that is not the reset state meets the invariants, with the whole event `rst` pending. -/
theorem witness_EveryStepKeepsTheInvariants :
    State.Inv { State.reset with depthT := F_ONE, ofs := F_HALF, pending := [.rst] } ∧
    ∃ t, step { State.reset with depthT := F_ONE, ofs := F_HALF, pending := [.rst] } = .next t :=
  ⟨by constructor <;> first | rfl | decide +kernel, ⟨_, rfl⟩⟩

theorem witness_SmoothedDepthAndGainStayInUnitInterval :
    State.Inv { State.reset with depthT := F_ONE, pending := [.transact 0x10800000001#41] } ∧
    fIn State.reset.smD.y F_ZERO F_ONE = true ∧
    ∃ t, step { State.reset with depthT := F_ONE, pending := [.transact 0x10800000001#41] } = .next t :=
  ⟨by constructor <;> first | rfl | decide +kernel, by decide +kernel, ⟨_, rfl⟩⟩

/-- One frame of three channels, then none: the third channel is left as it is. -/
theorem witness_BufferFramesGoThroughTheDataRegisters :
    (0 : Int) < 1 ∧ (2 : Int) < 3 ∧ (2 < 3 ∧ HostMultichannel.stereoFirstTwo = .stereoFirstTwo) ∧
    [F_ONE].length = 3 - 2 ∧ (∃ t y, hostProcessFrameMono F_HALF live = .next (t, y)) ∧
    (∃ t y z, hostProcessFrameStereo F_HALF F_ONE live = .next (t, y, z)) ∧
    hostProcessBuffer .stereoFirstTwo (some []) 0 3 live = .next (live, some []) ∧
    hostProcessBuffer .refuse (some []) 0 1 live = .next (live, some []) := by
  refine ⟨by decide, by decide, ⟨by decide, rfl⟩, rfl, ?_, ?_, rfl, rfl⟩
  · simp only [hostProcessFrameMono, hostWrite_eq (r := .dataL) (i := .wrDataL F_HALF) rfl rfl,
      hostCommand_eq (op := .processMono) (i := .cmdProcessMono) (by decide), hostRead_eq (r := .dataL) (i := .rdDataL) rfl rfl]
    exact ⟨_, _, rfl⟩
  · simp only [hostProcessFrameStereo, hostWrite_eq (r := .dataL) (i := .wrDataL F_HALF) rfl rfl,
      hostWrite_eq (r := .dataR) (i := .wrDataR F_ONE) rfl rfl,
      hostCommand_eq (op := .processStereo) (i := .cmdProcessStereo) (by decide),
      hostRead_eq (r := .dataL) (i := .rdDataL) rfl rfl, hostRead_eq (r := .dataR) (i := .rdDataR) rfl rfl]
    exact ⟨_, _, _, rfl⟩

/-- A BPM of 0 and a BPM below 0, and one whose Hz rounds: 100 BPM at a whole note is 5/12 Hz. -/
theorem witness_ShapeNamesAndTempo :
    tempoRate false 0 1 .whole = F_ZERO ∧ fGe (tempoRate true 120 1 .whole) RATE_MIN = false ∧ 0 < 1 ∧
    tempoRate false 100 1 .whole = fOfRat false 5 12 := by decide +kernel

theorem witness_ControllerValuesAreClamped :
    (fGe live.rateT RATE_MIN = true ∧ fIn live.depthT F_ZERO F_ONE = true) ∧
    (fGe RATE_MIN RATE_MIN = true ∧ fIn 0x80000000#32 F_ZERO F_ONE = true) ∧
    (live.win.length ≤ 1024 ∧ live.win.length < 1023) ∧
    (List.replicate 1023 F_ONE).length ≤ 1024 ∧ 1023 ≤ (List.replicate 1023 F_ONE).length :=
  ⟨by decide +kernel, by decide +kernel, by decide, by rw [List.length_replicate]; decide,
    (List.length_replicate (n := 1023)).ge⟩

end Sys2Proof.Tests
end

section
/-! PROOFS for 00_scope.md (R5, R7 to R9, R13 to R15): correct rounding of the operations, the square root, special
values, the elementary functions, the clamp, the wrap, and which operation a step runs. -/

namespace Sys2Proof.Machine

/-! ## Special values of the operations -/

theorem fMag_pos {w : Word} (h : fIsZero w = false) : 0 < fMag w := by
  rw [fIsZero_eq, decide_eq_false_iff_not, ← fMag_eq_zero] at h
  omega

theorem fSub_nan_of_core {k : Draw} {a b : Word} (h : fAddCore a (fNeg b) = none) : fIsNaN (fSub k a b) = true := by
  simp [fSub, h]

theorem fDiv_nan_of_core {k : Draw} {a b : Word} (h : fDivCore a b = none) : fIsNaN (fDiv k a b) = true := by
  simp [fDiv, h]

theorem fSqrt_nan_of_core {k : Draw} {a : Word} (h : fSqrtCore a = none) : fIsNaN (fSqrt k a) = true := by
  simp [fSqrt, h]

theorem fSub_nan {k : Draw} {a b : Word} (h : fIsNaN a = true ∨ fIsNaN b = true) : fIsNaN (fSub k a b) = true :=
  fSub_nan_of_core (cores_of_nan a (fNeg b) (by simpa using h)).1

theorem fDiv_nan {k : Draw} {a b : Word} (h : fIsNaN a = true ∨ fIsNaN b = true) : fIsNaN (fDiv k a b) = true :=
  fDiv_nan_of_core (cores_of_nan a b h).2.2

/-- R13: every comparison with a NaN is false. -/
theorem comparisons_nan {a b : Word} (h : fIsNaN a = true ∨ fIsNaN b = true) :
    fLt a b = false ∧ fLe a b = false ∧ fGt a b = false ∧ fGe a b = false ∧ fEq a b = false := by
  rcases h with h | h <;> simp [fLt, fLe, fGt, fGe, fEq, h]

theorem fAdd_fNeg_self {k : Draw} {a : Word} (h : fIsFinite a = true) : fAdd k a (fNeg a) = 0#32 :=
  fAdd_of_core (fAddCore_opposite h)

theorem fSub_self {k : Draw} {a : Word} (h : fIsFinite a = true) : fSub k a a = 0#32 :=
  fSub_of_core (fAddCore_opposite h)

/-! ## Correct rounding (R7) -/

theorem roundsTo_fAdd (k : Draw) {a b : Word} (ha : fIsFinite a = true) (hb : fIsFinite b = true) :
    RoundsTo (fAdd k a b) (fVal a + fVal b) 1 := by
  rw [fAdd_finite ha hb]
  exact roundsTo_fOfInt _ _

theorem roundsTo_fSub (k : Draw) {a b : Word} (ha : fIsFinite a = true) (hb : fIsFinite b = true) :
    RoundsTo (fSub k a b) (fVal a - fVal b) 1 := by
  rw [fSub_finite ha hb]
  exact roundsTo_fOfInt _ _

theorem roundsTo_fMul (k : Draw) {a b : Word} (ha : fIsFinite a = true) (hb : fIsFinite b = true) :
    RoundsTo (fMul k a b) (fVal a * fVal b) (2 ^ 149) ∧ fSign (fMul k a b) = (fSign a != fSign b) := by
  rw [fMul_finite ha hb, ← fVal_mul]
  exact ⟨roundsTo_fPack _ (by positivity), fSign_fPack _ _⟩

/-- The exact quotient's numerator over the divisor's magnitude, with the sign of the quotient. -/
theorem fVal_div_numerator (a b : Word) :
    (if (fSign a != fSign b) = true then -((fMag a * 2 ^ 149 : Nat) : Int) else (fMag a * 2 ^ 149 : Nat)) =
      (if fSign b then -fVal a else fVal a) * 2 ^ 149 := by
  unfold fVal
  cases fSign a <;> cases fSign b <;> simp

theorem roundsTo_fDiv (k : Draw) {a b : Word} (ha : fIsFinite a = true) (hb : fIsFinite b = true)
    (h0 : fIsZero b = false) :
    RoundsTo (fDiv k a b) ((if fSign b then -fVal a else fVal a) * 2 ^ 149) (fMag b) ∧
      fSign (fDiv k a b) = (fSign a != fSign b) := by
  rw [fDiv_finite ha hb h0, ← fVal_div_numerator]
  exact ⟨roundsTo_fPack _ (fMag_pos h0), fSign_fPack _ _⟩

theorem roundsTo_fOfRat (neg : Bool) (num : Nat) {den : Nat} (h : 0 < den) :
    RoundsTo (fOfRat neg num den) (if neg then -(num * 2 ^ 149 : Int) else num * 2 ^ 149) den := by
  have hr := roundsTo_fPack neg (n := num * 2 ^ 149) h
  push_cast at hr
  exact hr

theorem roundsTo_fOfNat (n : Nat) : RoundsTo (fOfNat n) (n * 2 ^ 149) 1 :=
  roundsTo_fOfRat false n Nat.one_pos

/-- Settles O32: each operation packs one rounded fraction, and packing a rounded fraction rounds it correctly. -/
theorem arithmeticRoundsToNearestEven : Obligations.ArithmeticRoundsToNearestEven :=
  ⟨fun k _ _ ha hb =>
      ⟨roundsTo_fAdd k ha hb, roundsTo_fSub k ha hb, roundsTo_fMul k ha hb, roundsTo_fDiv k ha hb⟩,
    fun neg num _ h => ⟨roundsTo_fOfRat neg num h, fSign_fPack _ _, rfl⟩,
    fun n => ⟨roundsTo_fOfNat n, fSign_fOfNat n⟩⟩

/-! ## The square root (R8) -/

/-- A number that is nearer to the lower of two is at most their midpoint. -/
theorem two_mul_le_of_abs_sub_le {n a b : Int} (hab : a < b) (h : |n - a| ≤ |n - b|) : 2 * n ≤ a + b := by
  by_contra hc
  have hlt : |n - b| < n - a := abs_lt.2 ⟨by omega, by omega⟩
  exact absurd (h.trans_lt hlt) (le_abs_self _).not_gt

/-- A number that is nearer to the upper of two is at least their midpoint. -/
theorem le_two_mul_of_abs_sub_le {n a b : Int} (hab : a < b) (h : |n - b| ≤ |n - a|) : a + b ≤ 2 * n := by
  have := two_mul_le_of_abs_sub_le (n := -n) (neg_lt_neg hab)
    (by rwa [neg_sub_neg, neg_sub_neg, abs_sub_comm b, abs_sub_comm a])
  omega

/-- A rounded fraction lies between the midpoints beside the answer. -/
theorem roundMag_between_midpoints {n d : Nat} (hd : 0 < d) (hR : 0 < roundMag 24 n d) :
    (codeMag (roundMag 24 n d - 1) + codeMag (roundMag 24 n d)) * d ≤ 2 * n ∧
      2 * n ≤ (codeMag (roundMag 24 n d) + codeMag (roundMag 24 n d + 1)) * d := by
  have below := (roundMag_nearest (n := n) hd (c := roundMag 24 n d - 1) (by omega)).1
  have above := (roundMag_nearest (n := n) hd (c := roundMag 24 n d + 1) (by omega)).1
  have spaced : ∀ {c c' : Nat}, c < c' → ((codeMag c * d : Nat) : Int) < (codeMag c' * d : Nat) := fun h =>
    Int.ofNat_lt.2 (Nat.mul_lt_mul_of_pos_right (codeMag_lt.2 h) hd)
  have lower := le_two_mul_of_abs_sub_le (spaced (by omega)) below
  have upper := two_mul_le_of_abs_sub_le (spaced (by omega)) above
  rw [Nat.add_mul, Nat.add_mul]
  omega

/-- Twice the whole part of the root of `m`, plus one where the root is not exact: the number of halves that
`fSqrtCore` rounds. -/
def stickyRoot (m : Nat) : Nat :=
  2 * isqrt m + if isqrt m * isqrt m = m then 0 else 1

/-- An even number at most the sticky root is at most twice the exact root. -/
theorem sq_le_of_le_stickyRoot {m l : Nat} (hm : m < 2 ^ 428) (hl : l % 2 = 0) (h : l ≤ stickyRoot m) :
    l ^ 2 ≤ 4 * m := by
  obtain ⟨hle, -⟩ := isqrt_spec hm
  have hl2 : l ≤ 2 * isqrt m := by
    unfold stickyRoot at h
    split at h <;> omega
  calc l ^ 2 ≤ (2 * isqrt m) ^ 2 := Nat.pow_le_pow_left hl2 2
    _ = 4 * (isqrt m * isqrt m) := by ring
    _ ≤ 4 * m := Nat.mul_le_mul_left 4 hle

/-- An even number at least the sticky root is at least twice the exact root. -/
theorem le_sq_of_stickyRoot_le {m u : Nat} (hm : m < 2 ^ 428) (hu : u % 2 = 0) (h : stickyRoot m ≤ u) :
    4 * m ≤ u ^ 2 := by
  obtain ⟨-, hlt⟩ := isqrt_spec hm
  unfold stickyRoot at h
  split at h
  · next hexact =>
    calc 4 * m = 4 * (isqrt m * isqrt m) := by rw [hexact]
      _ = (2 * isqrt m) ^ 2 := by ring
      _ ≤ u ^ 2 := Nat.pow_le_pow_left (by omega) 2
  · calc 4 * m ≤ 4 * ((isqrt m + 1) * (isqrt m + 1)) := Nat.mul_le_mul_left 4 hlt.le
      _ = (2 * isqrt m + 2) ^ 2 := by ring
      _ ≤ u ^ 2 := Nat.pow_le_pow_left (by omega) 2

/-- The root of a positive finite magnitude is far above the subnormals and far below the largest finite value. -/
theorem stickyRoot_bounds {m : Nat} (h1 : 2 ^ 149 ≤ m) (h2 : m < 2 ^ 428) :
    2 ^ 75 ≤ stickyRoot m ∧ stickyRoot m < 2 ^ 215 := by
  obtain ⟨hle, hlt⟩ := isqrt_spec h2
  have hge : 2 ^ 74 ≤ isqrt m := by
    by_contra hc
    have hs : isqrt m + 1 ≤ 2 ^ 74 := Nat.lt_of_not_le hc
    have := Nat.mul_le_mul hs hs
    omega
  have hlt' : isqrt m < 2 ^ 214 := by
    by_contra hc
    have := Nat.mul_le_mul (Nat.le_of_not_lt hc) (Nat.le_of_not_lt hc)
    omega
  unfold stickyRoot
  split <;> omega

theorem fSqrt_pos_finite (k : Draw) {a : Word} (hf : fIsFinite a = true) (hs : fSign a = false)
    (h0 : fIsZero a = false) : fSqrt k a = fPack false (roundMag 24 (stickyRoot (fMag a * 2 ^ 149)) 2) := by
  apply fSqrt_of_core
  simp [fSqrtCore, stickyRoot, not_nan_of_finite hf, not_inf_of_finite hf, hs, h0]

/-- The rounded sticky root is a normal finite code and lies between its midpoints as the exact root does: from 2^24 on
the magnitudes are even, so no midpoint falls strictly between twice the exact root and the sticky root. -/
theorem roundMag_stickyRoot {m : Nat} (h1 : 2 ^ 149 ≤ m) (hm : m < 2 ^ 428) :
    0 < roundMag 24 (stickyRoot m) 2 ∧ roundMag 24 (stickyRoot m) 2 < INF_CODE ∧
    (codeMag (roundMag 24 (stickyRoot m) 2 - 1) + codeMag (roundMag 24 (stickyRoot m) 2)) ^ 2 ≤ 4 * m ∧
    4 * m ≤ (codeMag (roundMag 24 (stickyRoot m) 2) + codeMag (roundMag 24 (stickyRoot m) 2 + 1)) ^ 2 := by
  obtain ⟨hge, hlt⟩ := stickyRoot_bounds h1 hm
  have hbig : 2 * 2 ^ 23 + 1 ≤ roundMag 24 (stickyRoot m) 2 := by
    apply le_roundMag (by omega)
    rw [show codeMag (2 * 2 ^ 23 + 1) = 2 ^ 24 + 2 by decide +kernel]
    omega
  have hfin : roundMag 24 (stickyRoot m) 2 < INF_CODE := (roundMag_lt_inf_iff (by omega)).2 (by omega)
  obtain ⟨hlo, hhi⟩ := roundMag_between_midpoints (n := stickyRoot m) (d := 2) (by omega) (by omega)
  generalize roundMag 24 (stickyRoot m) 2 = R at *
  have e1 := codeMag_even (c := R - 1) (by omega)
  have e2 := codeMag_even (c := R) (by omega)
  have e3 := codeMag_even (c := R + 1) (by omega)
  exact ⟨by omega, hfin, sq_le_of_le_stickyRoot hm (by omega) (by omega),
    le_sq_of_stickyRoot_le hm (by omega) (by omega)⟩

theorem fSqrt_correctlyRounded (k : Draw) {a : Word} (hf : fIsFinite a = true) (hs : fSign a = false)
    (h0 : fIsZero a = false) :
    fSign (fSqrt k a) = false ∧ 0 < fCode (fSqrt k a) ∧ fCode (fSqrt k a) < INF_CODE ∧
    (codeMag (fCode (fSqrt k a) - 1) + codeMag (fCode (fSqrt k a))) ^ 2 ≤ 4 * (fMag a * 2 ^ 149) ∧
    4 * (fMag a * 2 ^ 149) ≤ (codeMag (fCode (fSqrt k a)) + codeMag (fCode (fSqrt k a) + 1)) ^ 2 := by
  have hpos := fMag_pos h0
  have hlt := fMag_lt_of_finite hf
  have hR := roundMag_stickyRoot (m := fMag a * 2 ^ 149) (by omega) (by omega)
  rw [fSqrt_pos_finite k hf hs h0, fSign_fPack, fCode_fPack, min_eq_left hR.2.1.le]
  exact ⟨rfl, hR⟩

/-- Below zero the root is a NaN; the root of -0 is not concerned. -/
theorem fSqrt_negative_nan (k : Draw) {a : Word} (hs : fSign a = true) (h0 : fIsZero a = false) :
    fIsNaN (fSqrt k a) = true := by
  apply fSqrt_nan_of_core
  simp [fSqrtCore, hs, h0]

/-- Settles O33: the sticky root rounds as the exact one does. -/
theorem squareRootIsCorrectlyRounded : Obligations.SquareRootIsCorrectlyRounded :=
  ⟨fun k _ hf hs h0 => fSqrt_correctlyRounded k hf hs h0,
    fun k => ⟨fSqrt_of_core (by decide), fSqrt_of_core (by decide), fSqrt_of_core (by decide),
      fun _ hs h0 => fSqrt_negative_nan k hs h0⟩⟩

/-- Settles O34: a NaN operand and each invalid form make the operation's core answer `none`. -/
theorem specialValuesOfArithmetic : Obligations.SpecialValuesOfArithmetic :=
  ⟨fun _ _ _ h => ⟨fAdd_nan h, fSub_nan h, fMul_nan h, fDiv_nan h, comparisons_nan h⟩,
    fun _ => ⟨fSub_nan_of_core (by decide), fMul_zero_inf (by decide) (by decide), fDiv_nan_of_core (by decide),
      fAdd_of_core (by decide), fAdd_of_core (by decide)⟩,
    fun _ _ hf _ => ⟨fAdd_fNeg_self hf, fSub_self hf⟩,
    by decide,
    fun n hn => (fOfNat_exact n hn).symm⟩

/-! ## The elementary functions (R8) -/

theorem not_nan_of_zero {x : Word} (h : fIsZero x = true) : fIsNaN x = false := by
  rw [fIsZero_eq] at h
  exact not_nan_of_code (by simp [of_decide_eq_true h])

theorem sinF32_zero {x : Word} (h : fIsZero x = true) : sinF32 x = x := by
  simp [sinF32, not_nan_of_zero h, h]

theorem expF32_zero {x : Word} (h : fIsZero x = true) : expF32 x = F_ONE := by
  simp [expF32, not_nan_of_zero h, h]

theorem sinF32_range {x : Word} (h : fIsFinite x = true) : fIn (sinF32 x) F_NEG_ONE F_ONE = true := by
  cases h0 : fIsZero x
  case true =>
    rw [sinF32_zero h0, fIn_signedUnit_iff, fVal_of_isZero h0]
    exact ⟨not_nan_of_zero h0, by norm_num, by norm_num⟩
  case false =>
    simp only [sinF32, not_nan_of_finite h, h0, not_inf_of_finite h, Bool.false_eq_true, if_false]
    exact keepIn_range (by decide +kernel)

theorem tanhF32_range {x : Word} (h : fIsNaN x = false) : fIn (tanhF32 x) F_NEG_ONE F_ONE = true := by
  simp only [tanhF32, h, Bool.false_eq_true, if_false]
  exact keepIn_range (by decide +kernel)

theorem expF32_negInf : expF32 0xFF800000#32 = F_ZERO := by
  simp [expF32, show fIsNaN 0xFF800000#32 = false by decide, show fIsZero 0xFF800000#32 = false by decide,
    show fSign 0xFF800000#32 = true by decide, show fIsInf 0xFF800000#32 = true by decide]

theorem expF32_negative_range {x : Word} (hn : fIsNaN x = false) (hs : fSign x = true) (h0 : fIsZero x = false) :
    fIn (expF32 x) F_ZERO F_ONE = true := by
  simp only [expF32, hn, h0, hs, Bool.false_eq_true, if_false, if_true]
  split
  · decide +kernel
  · exact keepIn_range (by decide +kernel)

theorem expF32_range {x : Word} (h : fLe x F_ZERO = true) : fIn (expF32 x) F_ZERO F_ONE = true := by
  obtain ⟨hn, -, hle⟩ := fLe_iff.1 h
  rw [fVal_zero] at hle
  cases h0 : fIsZero x
  case true =>
    rw [expF32_zero h0]
    decide +kernel
  case false =>
    have hs : fSign x = true := by
      by_contra hc
      have := fVal_of_pos (Bool.not_eq_true _ ▸ hc)
      have := fMag_pos h0
      omega
    exact expF32_negative_range hn hs h0

theorem elementary_nan {x : Word} (h : fIsNaN x = true) :
    fIsNaN (sinF32 x) = true ∧ fIsNaN (tanhF32 x) = true ∧ fIsNaN (expF32 x) = true := by
  simp [sinF32, tanhF32, expF32, h]

/-- Settles O35: the free function is forced into its range on each class of arguments. -/
theorem elementaryFunctionProperties : Obligations.ElementaryFunctionProperties :=
  ⟨fun _ h => ⟨sinF32_zero h, expF32_zero h⟩, fun _ => sinF32_range, fun _ => tanhF32_range, expF32_negInf,
    fun _ => expF32_range, fun _ => elementary_nan⟩

/-! ## The clamp (R14) -/

theorem clampD_above {v lo hi : Word} (hn : fIsNaN v = false) (hlo : fLt v lo = false) (hhi : fGt v hi = true) :
    clampD v lo hi = hi := by
  simp [clampD, hn, hlo, hhi]

theorem clampD_inside {v lo hi : Word} (hlo : fLe lo v = true) (hhi : fLe v hi = true) : clampD v lo hi = v := by
  obtain ⟨-, hn, h1⟩ := fLe_iff.1 hlo
  obtain ⟨-, -, h2⟩ := fLe_iff.1 hhi
  have hlt : fLt v lo = false := fLt_eq_false_iff.2 (.inr (.inr h1))
  have hgt : fGt v hi = false := fLt_eq_false_iff.2 (.inr (.inr h2))
  simp [clampD, hn, hlt, hgt]

theorem clampD_negZero {lo hi : Word} (hlo : fLe lo 0x00000000#32 = true) (hhi : fLe 0x00000000#32 hi = true) :
    clampD 0x80000000#32 lo hi = 0x80000000#32 := by
  have hval : fVal 0x80000000#32 = fVal 0x00000000#32 := by decide
  obtain ⟨hln, -, h1⟩ := fLe_iff.1 hlo
  obtain ⟨-, hhn, h2⟩ := fLe_iff.1 hhi
  exact clampD_inside (fLe_iff.2 ⟨hln, by decide, hval ▸ h1⟩) (fLe_iff.2 ⟨by decide, hhn, hval ▸ h2⟩)

theorem fMag_le_of_not_nan {w : Word} (h : fIsNaN w = false) : fMag w ≤ 2 ^ 277 := by
  rcases finite_or_inf h with hf | hi
  · exact (fMag_lt_of_finite hf).le
  · exact (fMag_inf hi).le

theorem fVal_posInf : fVal 0x7F800000#32 = 2 ^ 277 := by decide +kernel

theorem fVal_negInf : fVal 0xFF800000#32 = -2 ^ 277 := by decide +kernel

theorem clampD_posInf {lo hi : Word} (hlo : fIsNaN lo = false) (hhi : fIsFinite hi = true) :
    clampD 0x7F800000#32 lo hi = hi := by
  have hl := fMag_le_of_not_nan hlo
  have hh := fMag_lt_of_finite hhi
  rw [← natAbs_fVal] at hl hh
  apply clampD_above (by decide)
  · rw [fLt_eq_false_iff, fVal_posInf]
    exact .inr (.inr (by omega))
  · rw [fGt_iff, fVal_posInf]
    exact ⟨by decide, not_nan_of_finite hhi, by omega⟩

theorem clampD_negInf {lo : Word} (hi : Word) (hlo : fIsFinite lo = true) : clampD 0xFF800000#32 lo hi = lo := by
  have hl := fMag_lt_of_finite hlo
  rw [← natAbs_fVal] at hl
  apply clampD_lo
  right
  rw [fLt_iff, fVal_negInf]
  exact ⟨by decide, not_nan_of_finite hlo, by omega⟩

/-- Settles O36: the clamp's cases in their order; -0.0 compares as +0.0 and no value lies beyond the infinities. -/
theorem clampKeepsOrReplaces : Obligations.ClampKeepsOrReplaces := fun _ _ hi =>
  ⟨fun h => clampD_lo (.inl h), fun _ h => clampD_lo (.inr h), clampD_above, clampD_inside, clampD_negZero,
    clampD_posInf, clampD_negInf hi⟩

/-! ## The wrap (R15) -/

theorem fOfInt_nonneg {v : Int} (h : 0 ≤ v) : fOfInt false v = fPack false (roundMag 24 v.toNat 1) := by
  unfold fOfInt
  split
  · next h0 => simp [h0]
  · rw [decide_eq_false (by omega), show v.natAbs = v.toNat by omega]

theorem frac_finite {x : Word} (h : fIsFinite x = true) : frac x = fOfInt false (fVal x % 2 ^ 149) := by
  rw [fOfInt_nonneg (Int.emod_nonneg _ (by norm_num)), frac, if_pos h]

theorem frac_not_finite {x : Word} (h : fIsFinite x = false) : frac x = F_ZERO := by
  simp [frac, h]

theorem fVal_frac {x : Word} (hf : fIsFinite x = true) (h : 0 ≤ fVal x) : fVal (frac x) = fVal x % 2 ^ 149 := by
  have hge : 0 ≤ fVal x % 2 ^ 149 := Int.emod_nonneg _ (by norm_num)
  have hlt : fVal x % 2 ^ 149 < 2 ^ 149 := Int.emod_lt_of_pos _ (by norm_num)
  have hmag := roundMag_wholePart h
  have hcode : roundMag 24 (fVal x % 2 ^ 149).toNat 1 < INF_CODE := by
    rw [← codeMag_lt, hmag, show codeMag INF_CODE = 2 ^ 277 by decide +kernel]
    omega
  rw [frac_finite hf, fOfInt_nonneg hge, fVal_fPack, min_eq_left hcode.le, hmag]
  simpa using hge

theorem isPhase_frac {x : Word} (hf : fIsFinite x = true) (h : 0 ≤ fVal x) : isPhase (frac x) = true := by
  rw [isPhase_iff, fVal_frac hf h, frac_finite hf]
  exact ⟨by rw [fOfInt_nonneg (Int.emod_nonneg _ (by norm_num)), fSign_fPack], fIsNaN_fOfInt _ _,
    Int.emod_lt_of_pos _ (by norm_num)⟩

theorem frac_below_one {x : Word} (h : isPhase x = true) : frac x = x := by
  obtain ⟨hf, hval, hlt⟩ := isPhase_value h
  obtain ⟨hs, -, -⟩ := isPhase_iff.1 h
  have hmod : fVal x % 2 ^ 149 = fMag x := by rw [hval]; exact Int.emod_eq_of_lt (by omega) (by omega)
  rw [frac_finite hf, hmod, fOfInt_nonneg (by omega), Int.toNat_natCast, fMag, roundMag_codeMag, ← hs]
  exact fPack_self (code_lt_of_finite hf).le

theorem frac_between_one_and_two {k : Draw} {x : Word} (hf : fIsFinite x = true) (h1 : fGe x F_ONE = true)
    (h2 : fLt x 0x40000000#32 = true) : frac x = fSub k x F_ONE := by
  obtain ⟨-, -, hge⟩ := fGe_iff.1 h1
  obtain ⟨-, -, hlt⟩ := fLt_iff.1 h2
  rw [fVal_one] at hge
  rw [fVal_two] at hlt
  have hs : fSign x = false := by
    by_contra hc
    have := fVal_nonpos_of_sign (Bool.not_eq_false _ ▸ hc)
    omega
  rw [fSub_finite hf (by decide), frac_finite hf, hs, fVal_one, Bool.false_and]
  congr 1
  omega

/-- Settles O37: what is left of a finite value after its whole part is representable, so no rounding happens. -/
theorem wrapRemovesTheWholePart : Obligations.WrapRemovesTheWholePart := by
  refine ⟨fun x hf hge => ?_, fun x => frac_not_finite⟩
  have h : 0 ≤ fVal x := fVal_zero ▸ (fGe_iff.1 hge).2.2
  exact ⟨fVal_frac hf h, isPhase_frac hf h, fun hlt hs => frac_below_one (by simp [isPhase, hs, hlt]),
    fun _ h1 h2 => frac_between_one_and_two hf h1 h2⟩

/-! ## Steps (R5, R76) -/

theorem decode_of_decodeTableWord {nbits w : Nat} {i : Instr} (h : decodeTableWord nbits w = some i) :
    decode (BitVec.ofNat 41 (w % 2 ^ nbits)) = .op i := by
  unfold decodeTableWord at h
  split at h
  · cases hd : decode (BitVec.ofNat 41 (w % 2 ^ nbits)) <;> simp [hd] at h
    rw [h]
  · cases h

/-- Settles O8: both clauses are `step_op`, the second at the state in which the word is presented. -/
theorem stepRunsTheDecodedOperation : Obligations.StepRunsTheDecodedOperation :=
  ⟨fun _ _ _ _ hp hd => step_op hp hd, fun _ _ _ _ h => step_op rfl (decode_of_decodeTableWord h)⟩

end Sys2Proof.Machine
end

section
/-! PROOFS for 10_state.md (R22 to R32): what each operation does to the elements of state, the block's invariants, and
the unit interval that the smoothed depth and the gains keep to. -/

namespace Sys2Proof.Machine

/-! ## What an operation does to the elements of state -/

/-- What the operation `i` makes of the elements of `s`: a read and NOP keep them, every other operation has its own
effect (41_feature.md, 42_engine_config.md, 43_engine_process.md). -/
inductive Effect (s : State) : Instr → State → Prop
  | keep {i : Instr} (h : i.isRead = true ∨ i = .cmdNop) : Effect s i s
  | sampleRate (v : Word) : Effect s (.wrSampleRate v)
      { s with
        fs := positiveOrDefault v
        smR := ⟨s.rateT, TAU, positiveOrDefault v, smCoef TAU (positiveOrDefault v)⟩
        smD := ⟨s.depthT, TAU, positiveOrDefault v, smCoef TAU (positiveOrDefault v)⟩ }
  | rate (v : Word) : Effect s (.wrRate v) { s with rateT := rateFloor v }
  | depth (v : Word) : Effect s (.wrDepth v) { s with depthT := clampD v F_ZERO F_ONE }
  | wet (v : Word) : Effect s (.wrWet v) { s with wet := clampD v F_ZERO F_ONE }
  | stereoDeg (v : Word) : Effect s (.wrStereoDeg v) { s with ofs := offsetOfDegrees v }
  | shape (sh : Shape) : Effect s (.wrShape sh) { s with shape := sh }
  | dataL (v : Word) : Effect s (.wrDataL v) { s with dataL := v }
  | dataR (v : Word) : Effect s (.wrDataR v) { s with dataR := v }
  | processMono : Effect s .cmdProcessMono (processMono s)
  | processStereo : Effect s .cmdProcessStereo (processStereo s)
  | featPush : Effect s .cmdFeatPush { s with win := winPush s.win (mid s.draw s.dataL s.dataR) }
  | featReset : Effect s .cmdFeatReset { s with win := [] }

/-- The port's answer and the model's own fields are no elements of state. -/
theorem sameElements_port (s : State) (r : Resp) (d : Word) (n : Nat) (p : List PortEvent) :
    SameElements s { s with resp := r, rdata := d, nanDraw := n, pending := p } := by
  simp [SameElements]

/-- What an operation answers with has the elements that its effect gives. -/
theorem exec_effect {i : Instr} {s t : State} (h : exec i s = .next t) : ∃ u, Effect s i u ∧ SameElements u t := by
  cases i <;> cases h
  case wrSampleRate v => exact ⟨_, .sampleRate v, by simp [SameElements, smReseed_eq]⟩
  case wrRate v => exact ⟨_, .rate v, sameElements_port ..⟩
  case wrDepth v => exact ⟨_, .depth v, sameElements_port ..⟩
  case wrWet v => exact ⟨_, .wet v, sameElements_port ..⟩
  case wrStereoDeg v => exact ⟨_, .stereoDeg v, sameElements_port ..⟩
  case wrShape sh => exact ⟨_, .shape sh, sameElements_port ..⟩
  case wrDataL v => exact ⟨_, .dataL v, sameElements_port ..⟩
  case wrDataR v => exact ⟨_, .dataR v, sameElements_port ..⟩
  case cmdProcessMono => exact ⟨_, .processMono, sameElements_port ..⟩
  case cmdProcessStereo => exact ⟨_, .processStereo, sameElements_port ..⟩
  case cmdFeatPush => exact ⟨_, .featPush, sameElements_port ..⟩
  case cmdFeatReset => exact ⟨_, .featReset, sameElements_port ..⟩
  case cmdNop => exact ⟨s, .keep (.inr rfl), sameElements_port ..⟩
  all_goals exact ⟨s, .keep (.inl rfl), sameElements_port ..⟩

/-- Settles O23: each effect of an operation leaves every element but its own as it is. -/
theorem elementsHaveOnlyTheirWriters : Obligations.ElementsHaveOnlyTheirWriters := by
  intro i s t h
  obtain ⟨u, hu, hfs, hrate, hdepth, hwet, hofs, hshape, hphase, hsmR, hsmD, hdataL, hdataR, hwin⟩ := exec_effect h
  rw [hfs, hrate, hdepth, hwet, hofs, hshape, hphase, hsmR, hsmD, hdataL, hdataR, hwin]
  cases hu with
  | keep => simp
  | sampleRate v => simp
  | rate v => simp
  | depth v => simp
  | wet v => simp
  | stereoDeg v => simp
  | shape sh => simp
  | dataL v => simp
  | dataR v => simp
  | processMono => simp [processMono, nextRate, nextDepth, Instr.isProcess]
  | processStereo => simp [processStereo, processMono, nextRate, nextDepth, Instr.isProcess]
  | featPush => simp
  | featReset => simp

/-! ## What every step keeps -/

/-- A property of the elements of state that holds at reset and that every operation's effect keeps is kept by every
step: the error responses and a step with nothing presented change no element. -/
theorem step_keeps {P : State → Prop} (elements : ∀ {s t}, SameElements s t → P s → P t) (reset : P State.reset)
    (effect : ∀ {s i u}, P s → Effect s i u → P u) {s t : State} (hs : P s) (h : step s = .next t) : P t := by
  rcases step_cases s with ⟨-, hn⟩ | ⟨-, rest, i, -, -, hn⟩ | ⟨-, rest, e, -, -, hn⟩ | ⟨rest, -, hn⟩ <;> rw [hn] at h
  · cases h
    exact hs
  · obtain ⟨u, hu, ht⟩ := exec_effect h
    exact elements ht (effect (elements (sameElements_port s ..) hs) hu)
  · cases h
    exact elements (sameElements_port s ..) hs
  · cases h
    exact elements (sameElements_port State.reset ..) reset

/-! ## Values that the setters and the commands store -/

theorem rateFloor_ge (v : Word) : fGe (rateFloor v) RATE_MIN = true := by
  unfold rateFloor
  split
  · assumption
  · decide

theorem clampD_unit (v : Word) : fIn (clampD v F_ZERO F_ONE) F_ZERO F_ONE = true :=
  clampD_range v (by decide)

/-- A quotient by a positive divisor that is at most the value of a word rounds to at most that value. -/
theorem fDiv_le {k : Draw} {a b c : Word} (ha : fIsFinite a = true) (hb : fIsFinite b = true) (h0 : fIsZero b = false)
    (hs : fSign b = false) (hc : fIsNaN c = false) (h : fVal a * 2 ^ 149 ≤ fVal c * fMag b) :
    fVal (fDiv k a b) ≤ fVal c := by
  rw [fDiv_finite ha hb h0]
  apply fVal_fPack_le (fMag_pos h0) hc
  rw [fVal_div_numerator, hs]
  exact h

/-- R150: degrees are clamped to [0, 180] before the division by 360. -/
theorem offsetOfDegrees_half (v : Word) : fIn (offsetOfDegrees v) F_ZERO F_HALF = true := by
  have hmax : fVal DEG_MAX = 180 * 2 ^ 149 := by decide +kernel
  have hcycle : fMag DEG_PER_CYCLE = 360 * 2 ^ 149 := by decide +kernel
  have hcf : fIsFinite DEG_PER_CYCLE = true := by decide
  obtain ⟨hn, -, -, hge, hle⟩ := fIn_iff.1 (clampD_range v (hi := DEG_MAX) (by decide))
  rw [fVal_zero] at hge
  have hf := finite_of_le hn hge (b := DEG_MAX) (by decide) hle
  obtain ⟨hval, hnan⟩ := fDiv_nonneg (k := none) hf hcf (by decide) (by decide) hge
  have hhalf : fVal (offsetOfDegrees v) ≤ fVal F_HALF := by
    apply fDiv_le hf hcf (by decide) (by decide) (by decide)
    rw [fVal_half, hcycle]
    omega
  exact fIn_iff.2 ⟨hnan, by decide, by decide, by rw [offsetOfDegrees, hval, fVal_zero]; omega, hhalf⟩

/-! ## The phase -/

theorem not_finite_of_inf {w : Word} (h : fIsInf w = true) : fIsFinite w = false := by
  by_contra hc
  exact absurd h (by simp [not_inf_of_finite (Bool.not_eq_false _ ▸ hc)])

theorem fAdd_inf_right {k : Draw} {a b : Word} (ha : fIsFinite a = true) (hb : fIsInf b = true) : fAdd k a b = b :=
  fAdd_of_core (by simp [fAddCore, not_nan_of_finite ha, not_inf_of_finite ha, not_nan_of_inf hb, hb])

/-- The wrapped sum of a phase and a value that is not below +0.0, +inf included, is a phase (R28). -/
theorem isPhase_frac_fAdd (k : Draw) {p q : Word} (hp : isPhase p = true) (hq : fIsNaN q = false) (hq0 : 0 ≤ fVal q) :
    isPhase (frac (fAdd k p q)) = true := by
  obtain ⟨hpf, hpv, -⟩ := isPhase_value hp
  cases hf : fIsFinite (fAdd k p q)
  case false => rw [frac_not_finite hf]; decide +kernel
  case true =>
    rcases finite_or_inf hq with hqf | hqi
    · have hge : fVal F_ZERO ≤ fVal (fAdd k p q) := le_fAdd hpf hqf (by decide) (by rw [fVal_zero]; omega)
      exact isPhase_frac hf (fVal_zero ▸ hge)
    · rw [fAdd_inf_right hpf hqi, not_finite_of_inf hqi] at hf
      cases hf

theorem phaseInc_ge (k : Draw) (fs rs : Word) : fGe (phaseInc k fs rs) INC_MIN = true := by
  unfold phaseInc
  split
  · assumption
  · decide

theorem isPhase_nextPhase {s : State} (h : isPhase s.phase = true) : isPhase (nextPhase s) = true := by
  obtain ⟨hn, -, hge⟩ := fGe_iff.1 (phaseInc_ge s.draw s.fs (nextRate s).y)
  rw [fVal_incMin] at hge
  exact isPhase_frac_fAdd s.draw h hn (by omega)

theorem isPhase_phaseR {s : State} (h : isPhase s.phase = true) (hofs : fIn s.ofs F_ZERO F_HALF = true) :
    isPhase (phaseR s) = true := by
  obtain ⟨hn, -, -, hge, -⟩ := fIn_iff.1 hofs
  exact isPhase_frac_fAdd s.draw h hn (fVal_zero ▸ hge)

/-! ## The invariants -/

theorem inv_of_sameElements {s t : State} (h : SameElements s t) (hs : s.Inv) : t.Inv := by
  obtain ⟨hfs, hrate, hdepth, hwet, hofs, -, hphase, hsmR, hsmD, -, -, hwin⟩ := h
  constructor
  case fs_pos => exact hfs ▸ hs.fs_pos
  case rate_floor => exact hrate ▸ hs.rate_floor
  case depth_unit => exact hdepth ▸ hs.depth_unit
  case wet_unit => exact hwet ▸ hs.wet_unit
  case ofs_half => exact hofs ▸ hs.ofs_half
  case phase_unit => exact hphase ▸ hs.phase_unit
  case win_length => exact hwin ▸ hs.win_length
  case smR_tau => exact hsmR ▸ hs.smR_tau
  case smD_tau => exact hsmD ▸ hs.smD_tau
  case smR_fs => rw [hsmR, hfs, hs.smR_fs]
  case smD_fs => rw [hsmD, hfs, hs.smD_fs]
  case smR_coef => rw [hsmR, hfs, hs.smR_coef]
  case smD_coef => rw [hsmD, hfs, hs.smD_coef]

/-- Settles O53: the reset values, and coefficients that reset computes from TAU and the default sample rate. -/
theorem resetKeepsTheInvariants : Obligations.ResetKeepsTheInvariants where
  fs_pos := by decide
  rate_floor := by decide
  depth_unit := by decide
  wet_unit := by decide +kernel
  ofs_half := by decide +kernel
  phase_unit := by decide +kernel
  win_length := Nat.zero_le _
  smR_tau := rfl
  smD_tau := rfl
  smR_fs := rfl
  smD_fs := rfl
  smR_coef := rfl
  smD_coef := rfl

/-- A frame advances the phase and the smoothers' outputs, and keeps the smoothers' configuration. -/
theorem processMono_inv {s : State} (h : s.Inv) : (processMono s).Inv :=
  { h with phase_unit := isPhase_nextPhase h.phase_unit }

theorem winPush_le {win : List Word} (x : Word) (h : win.length ≤ N) : (winPush win x).length ≤ N := by
  rw [winPush_length]
  split <;> omega

/-- Each effect keeps the invariants: a write stores a value in its range, and only the re-seeding of both smoothers
changes FS or a coefficient. -/
theorem effect_inv {s u : State} {i : Instr} (h : s.Inv) (hu : Effect s i u) : u.Inv := by
  cases hu with
  | keep => exact h
  | sampleRate v =>
    exact { h with
      fs_pos := positiveOrDefault_pos v
      smR_tau := rfl, smR_fs := rfl, smR_coef := rfl
      smD_tau := rfl, smD_fs := rfl, smD_coef := rfl }
  | rate v => exact { h with rate_floor := rateFloor_ge v }
  | depth v => exact { h with depth_unit := clampD_unit v }
  | wet v => exact { h with wet_unit := clampD_unit v }
  | stereoDeg v => exact { h with ofs_half := offsetOfDegrees_half v }
  | shape sh => exact { h with }
  | dataL v => exact { h with }
  | dataR v => exact { h with }
  | processMono => exact processMono_inv h
  | processStereo => exact { processMono_inv h with }
  | featPush => exact { h with win_length := winPush_le _ h.win_length }
  | featReset => exact { h with win_length := Nat.zero_le _ }

/-- Settles O54: the invariants speak of elements of state only, hold at reset, and every effect keeps them. -/
theorem everyStepKeepsTheInvariants : Obligations.EveryStepKeepsTheInvariants :=
  fun _ _ => step_keeps inv_of_sameElements resetKeepsTheInvariants effect_inv

/-! ## Arithmetic in the unit interval -/

theorem fVal_three : fVal F_THREE = 3 * 2 ^ 149 := by decide +kernel

theorem fIn_unit_of_bounds {w : Word} (hn : fIsNaN w = false) (h0 : fVal F_ZERO ≤ fVal w) (h1 : fVal w ≤ fVal F_ONE) :
    fIn w F_ZERO F_ONE = true :=
  fIn_iff.2 ⟨hn, by decide, by decide, h0, h1⟩

/-- A product of two values in [0, 1] is in [0, 1] and at most the first. -/
theorem fMul_unit (k : Draw) {a b : Word} (ha : fIn a F_ZERO F_ONE = true) (hb : fIn b F_ZERO F_ONE = true) :
    fIn (fMul k a b) F_ZERO F_ONE = true ∧ fVal (fMul k a b) ≤ fVal a := by
  obtain ⟨haf, ha0, ha1⟩ := finite_of_unit ha
  obtain ⟨hbf, hb0, hb1⟩ := finite_of_unit hb
  have hle : fVal (fMul k a b) ≤ fVal a :=
    fMul_le haf hbf (not_nan_of_finite haf) (mul_le_mul_of_nonneg_left hb1 ha0)
  have hge : fVal F_ZERO ≤ fVal (fMul k a b) :=
    le_fMul haf hbf (by decide) (by rw [fVal_zero, zero_mul]; exact mul_nonneg ha0 hb0)
  exact ⟨fIn_unit_of_bounds (fMul_not_nan haf hbf) hge (hle.trans (fVal_one ▸ ha1)), hle⟩

theorem fSub_one_unit (k : Draw) {a : Word} (ha : fIn a F_ZERO F_ONE = true) :
    fIn (fSub k F_ONE a) F_ZERO F_ONE = true := by
  obtain ⟨haf, ha0, ha1⟩ := finite_of_unit ha
  have h1f : fIsFinite F_ONE = true := by decide
  exact fIn_unit_of_bounds (fSub_not_nan h1f haf)
    (le_fSub h1f haf (by decide) (by rw [fVal_zero, fVal_one]; omega))
    (fSub_le h1f haf (by decide) (by omega))

/-- Above 1.0 the spacing is 2^-23, so what exceeds 1.0 by at most half of it rounds to at most 1.0. -/
theorem fVal_fOfInt_le_one (z : Bool) {v : Int} (h : v ≤ 2 ^ 149 + 2 ^ 125) : fVal (fOfInt z v) ≤ fVal F_ONE := by
  rcases le_or_gt v (2 ^ 149) with hle | hgt
  · exact fVal_fOfInt_le (by decide) (by rwa [fVal_one])
  · have hround : roundMag 24 v.natAbs 1 ≤ roundMag 24 (2 ^ 149 + 2 ^ 125) 1 :=
      roundMag_mono (by omega) (by omega) (by omega) (by omega)
    rw [show roundMag 24 (2 ^ 149 + 2 ^ 125) 1 = fCode F_ONE by decide +kernel] at hround
    have hcode : fCode (fOfInt z v) ≤ fCode F_ONE := by
      rw [fCode_fOfInt]
      exact (min_le_left _ _).trans hround
    have hsign : fSign (fOfInt z v) = false := by
      rw [fSign_fOfInt (by omega)]
      simp; omega
    rw [fVal_of_pos hsign, fVal_of_pos (w := F_ONE) (by decide)]
    exact Int.ofNat_le.2 (codeMag_le.2 hcode)

/-- A sum that is not below 0 and exceeds 1.0 by at most half a spacing is in [0, 1]. -/
theorem fAdd_unit (k : Draw) {a b : Word} (ha : fIsFinite a = true) (hb : fIsFinite b = true)
    (h0 : 0 ≤ fVal a + fVal b) (h1 : fVal a + fVal b ≤ 2 ^ 149 + 2 ^ 125) : fIn (fAdd k a b) F_ZERO F_ONE = true := by
  refine fIn_unit_of_bounds (fAdd_not_nan ha hb) (le_fAdd ha hb (by decide) (by rwa [fVal_zero])) ?_
  rw [fAdd_finite ha hb]
  exact fVal_fOfInt_le_one _ h1

/-- Half of a sum in [0, 2] is in [0, 1]. -/
theorem fMul_half_fAdd_unit (k : Draw) {x y : Word} (hx : fIsFinite x = true) (hy : fIsFinite y = true)
    (h0 : 0 ≤ fVal x + fVal y) (h2 : fVal x + fVal y ≤ 2 ^ 150) :
    fIn (fMul k F_HALF (fAdd k x y)) F_ZERO F_ONE = true := by
  have hge : fVal F_ZERO ≤ fVal (fAdd k x y) := le_fAdd hx hy (by decide) (by rwa [fVal_zero])
  have hle : fVal (fAdd k x y) ≤ fVal 0x40000000#32 := fAdd_le hx hy (by decide) (by rwa [fVal_two])
  have hhalf : fIsFinite F_HALF = true := by decide
  rw [fVal_zero] at hge
  have hsum : fIsFinite (fAdd k x y) = true := finite_of_le (fAdd_not_nan hx hy) hge (by decide) hle
  rw [fVal_two] at hle
  refine fIn_unit_of_bounds (fMul_not_nan hhalf hsum) (le_fMul hhalf hsum (by decide) ?_)
    (fMul_le hhalf hsum (by decide) ?_)
  · rw [fVal_zero, fVal_half]; omega
  · rw [fVal_half, fVal_one]; omega

/-! ## The smoother (40_smoother.md R102, R106) -/

theorem fMul_pos_sign (k : Draw) {a b : Word} (ha : fGt a F_ZERO = true) (hb : fGt b F_ZERO = true) :
    fIsNaN (fMul k a b) = false ∧ fSign (fMul k a b) = false := by
  obtain ⟨han, hav, has⟩ := pos_of_fGt ha
  obtain ⟨hbn, hbv, hbs⟩ := pos_of_fGt hb
  have hcore : fMulCore a b = some (fInf false) ∨ ∃ c, fMulCore a b = some (fPack false c) := by
    simp only [fMulCore, han, hbn, has, hbs, not_zero_of_pos hav, not_zero_of_pos hbv]
    cases fIsInf a <;> cases fIsInf b <;> simp
  rcases hcore with h | ⟨c, h⟩ <;> rw [fMul_of_core h]
  · decide
  · simp

/-- -1.0 over a value that is not negative, zeros and +inf included, is at most 0. -/
theorem fDiv_negOne_le_zero (k : Draw) {x : Word} (hn : fIsNaN x = false) (hs : fSign x = false) :
    fLe (fDiv k F_NEG_ONE x) F_ZERO = true := by
  have hcore : fDivCore F_NEG_ONE x = some (fInf true) ∨ ∃ c, fDivCore F_NEG_ONE x = some (fPack true c) := by
    simp only [fDivCore, hn, hs, show fIsNaN F_NEG_ONE = false by decide, show fIsInf F_NEG_ONE = false by decide,
      show fIsZero F_NEG_ONE = false by decide, show fSign F_NEG_ONE = true by decide]
    cases fIsInf x <;> cases fIsZero x <;> simp
  rcases hcore with h | ⟨c, h⟩ <;> rw [fDiv_of_core h]
  · decide +kernel
  · exact fLe_iff.2 ⟨fIsNaN_fPack _ _, by decide, fVal_zero ▸ fVal_nonpos_of_sign (fSign_fPack _ _)⟩

/-- R102: EXP_F32 is taken at -1.0 / (tau * fs), which is at most 0. -/
theorem smCoef_unit {tau fs : Word} (htau : fGt tau F_ZERO = true) (hfs : fGt fs F_ZERO = true) :
    fIn (smCoef tau fs) F_ZERO F_ONE = true := by
  obtain ⟨hn, hs⟩ := fMul_pos_sign none htau hfs
  exact expF32_range (fDiv_negOne_le_zero none hn hs)

/-- 2 * (a + (1.0 - a)) exceeds 2.0 by at most the rounding of 1.0 - a. -/
theorem fVal_add_fSub_one_le (k : Draw) {a : Word} (ha : fIn a F_ZERO F_ONE = true) :
    2 * (fVal a + fVal (fSub k F_ONE a)) ≤ 2 ^ 150 + 2 ^ 125 := by
  obtain ⟨haf, ha0, ha1⟩ := finite_of_unit ha
  have herr := fOfInt_error_unit (fSign F_ONE && !fSign a) (v := fVal F_ONE - fVal a) (by rw [fVal_one]; omega)
  rw [fSub_finite (by decide) haf]
  rw [abs_le] at herr
  rw [fVal_one] at *
  omega

/-- R106: the weighted terms a * (y + EPS_SMOOTH) and (1.0 - a) * T are at most the weights a and 1.0 - a, whose sum
exceeds 1.0 by less than half a spacing. -/
theorem smNext_unit (k : Draw) {a y target : Word} (ha : fIn a F_ZERO F_ONE = true) (hy : fIn y F_ZERO F_ONE = true)
    (ht : fIn target F_ZERO F_ONE = true) : fIn (smNext k a y target) F_ZERO F_ONE = true := by
  obtain ⟨hyf, hy0, hy1⟩ := finite_of_unit hy
  obtain ⟨heps, heps0⟩ : fVal EPS_SMOOTH ≤ 2 ^ 83 - 1 ∧ 2 ^ 82 < fVal EPS_SMOOTH := fVal_epsMix
  have hlift : fIn (fAdd k y EPS_SMOOTH) F_ZERO F_ONE = true :=
    fAdd_unit k hyf (by decide) (by omega) (by omega)
  obtain ⟨hkeep, hkeep_le⟩ := fMul_unit k ha hlift
  obtain ⟨hmove, hmove_le⟩ := fMul_unit k (fSub_one_unit k ha) ht
  obtain ⟨hkf, hk0, -⟩ := finite_of_unit hkeep
  obtain ⟨hmf, hm0, -⟩ := finite_of_unit hmove
  have hweights := fVal_add_fSub_one_le k ha
  exact fAdd_unit k hkf hmf (by omega) (by omega)

/-! ## Waveforms and gain (43_engine_process.md R172 to R176) -/

theorem sinOfPhase_range (k : Draw) {p : Word} (h : isPhase p = true) :
    fIn (sinOfPhase k p) F_NEG_ONE F_ONE = true := by
  obtain ⟨hf, hval, hlt⟩ := isPhase_value h
  have hpi : fIsFinite TWO_PI_F32 = true := by decide
  have hpi0 : 0 ≤ fVal TWO_PI_F32 := by decide
  have hge : fVal F_ZERO ≤ fVal (fMul k TWO_PI_F32 p) :=
    le_fMul hpi hf (by decide) (by rw [fVal_zero, zero_mul]; exact mul_nonneg hpi0 (by omega))
  have hle : fVal (fMul k TWO_PI_F32 p) ≤ fVal TWO_PI_F32 :=
    fMul_le hpi hf (by decide) (mul_le_mul_of_nonneg_left (by omega) hpi0)
  exact sinF32_range (finite_of_le (fMul_not_nan hpi hf) (fVal_zero ▸ hge) hpi hle)

/-- 0.5 * (1.0 + x) maps [-1, 1] into [0, 1]. -/
theorem fMul_half_one_add_unit (k : Draw) {x : Word} (h : fIn x F_NEG_ONE F_ONE = true) :
    fIn (fMul k F_HALF (fAdd k F_ONE x)) F_ZERO F_ONE = true := by
  obtain ⟨hn, hge, hle⟩ := fIn_signedUnit_iff.1 h
  exact fMul_half_fAdd_unit k (by decide) (finite_of_signedUnit hn hge hle) (by rw [fVal_one]; omega)
    (by rw [fVal_one]; omega)

/-- Both ramps of the triangle are in [-1, 1] before 1.0 is added: 4.0 * p is exact. -/
theorem waveTri_ramp_range (k : Draw) {p : Word} (h : isPhase p = true) :
    fIn (if fLt p F_HALF then fSub k (fMul k F_FOUR p) F_ONE else fSub k F_THREE (fMul k F_FOUR p))
      F_NEG_ONE F_ONE = true := by
  obtain ⟨-, hn, hlt⟩ := isPhase_iff.1 h
  obtain ⟨-, hval, -⟩ := isPhase_value h
  obtain ⟨hff, hfv⟩ := fMul_four_exact (k := k) h
  have h1 : fIsFinite F_ONE = true := by decide
  have h3 : fIsFinite F_THREE = true := by decide
  split
  · next hrise =>
    obtain ⟨-, -, hhalf⟩ := fLt_iff.1 hrise
    rw [fVal_half] at hhalf
    exact fIn_iff.2 ⟨fSub_not_nan hff h1, by decide, by decide,
      le_fSub hff h1 (by decide) (by rw [hfv, fVal_one, fVal_negOne]; omega),
      fSub_le hff h1 (by decide) (by rw [hfv, fVal_one]; omega)⟩
  · next hfall =>
    have hhalf : fVal F_HALF ≤ fVal p := by
      rcases fLt_eq_false_iff.1 (Bool.not_eq_true _ ▸ hfall) with hc | hc | hge
      · rw [hn] at hc; cases hc
      · exact absurd hc (by decide)
      · exact hge
    rw [fVal_half] at hhalf
    exact fIn_iff.2 ⟨fSub_not_nan h3 hff, by decide, by decide,
      le_fSub h3 hff (by decide) (by rw [hfv, fVal_three, fVal_negOne]; omega),
      fSub_le h3 hff (by decide) (by rw [hfv, fVal_three, fVal_one]; omega)⟩

theorem waveSquare_values (k : Draw) (p : Word) : waveSquare k p = F_ZERO ∨ waveSquare k p = F_ONE := by
  unfold waveSquare
  split
  · exact .inr rfl
  · exact .inl rfl

/-- R187 (b): each waveform is in [0, 1] at every phase, whatever SIN_F32 and TANH_F32 answer in their ranges. -/
theorem wave_unit (k : Draw) (sh : Shape) {p : Word} (h : isPhase p = true) :
    fIn (wave k sh p) F_ZERO F_ONE = true := by
  have hsin := sinOfPhase_range k h
  cases sh with
  | sine => exact fMul_half_one_add_unit k hsin
  | triangle =>
    obtain ⟨hn, hge, hle⟩ := fIn_signedUnit_iff.1 (waveTri_ramp_range k h)
    exact fMul_half_fAdd_unit k (finite_of_signedUnit hn hge hle) (by decide) (by rw [fVal_one]; omega)
      (by rw [fVal_one]; omega)
  | square =>
    rcases waveSquare_values k p with hw | hw <;> rw [wave, hw] <;> decide +kernel
  | squareSoft =>
    obtain ⟨hn, hge, hle⟩ := fIn_signedUnit_iff.1 hsin
    exact fMul_half_one_add_unit k
      (tanhF32_range (fMul_not_nan (by decide) (finite_of_signedUnit hn hge hle)))

theorem gain_unit (k : Draw) {d lfo : Word} (hd : fIn d F_ZERO F_ONE = true) (hl : fIn lfo F_ZERO F_ONE = true) :
    fIn (gain k d lfo) F_ZERO F_ONE = true :=
  fSub_one_unit k (fMul_unit k hd hl).1

/-! ## The smoothed depth and the gains -/

/-- The invariants, with the smoothed depth in [0, 1]. -/
def State.DepthInv (s : State) : Prop :=
  s.Inv ∧ fIn s.smD.y F_ZERO F_ONE = true

theorem nextDepth_unit {s : State} (h : s.DepthInv) : fIn (nextDepth s).y F_ZERO F_ONE = true := by
  obtain ⟨hinv, hy⟩ := h
  have hcoef : fIn s.smD.a F_ZERO F_ONE = true := by
    rw [hinv.smD_coef]
    exact smCoef_unit (by decide) hinv.fs_pos
  exact smNext_unit s.draw hcoef hy hinv.depth_unit

theorem depthInv_of_sameElements {s t : State} (h : SameElements s t) (hs : s.DepthInv) : t.DepthInv := by
  obtain ⟨hinv, hy⟩ := hs
  have hsmD : t.smD = s.smD := by
    obtain ⟨-, -, -, -, -, -, -, -, hsmD, -⟩ := h
    exact hsmD
  exact ⟨inv_of_sameElements h hinv, hsmD ▸ hy⟩

/-- Only three operations touch the smoothed depth: a SAMPLE_RATE write sets it to the target depth, and the PROCESS
commands take it one step of the smoother further. -/
theorem effect_smoothedDepth {s u : State} {i : Instr} (h : Effect s i u) :
    u.smD.y = s.smD.y ∨ u.smD.y = s.depthT ∨ u.smD.y = (nextDepth s).y := by
  cases h with
  | sampleRate v => exact .inr (.inl rfl)
  | processMono => exact .inr (.inr rfl)
  | processStereo => exact .inr (.inr rfl)
  | _ => exact .inl rfl

theorem effect_depthInv {s u : State} {i : Instr} (h : s.DepthInv) (hu : Effect s i u) : u.DepthInv := by
  refine ⟨effect_inv h.1 hu, ?_⟩
  rcases effect_smoothedDepth hu with hy | hy | hy <;> rw [hy]
  · exact h.2
  · exact h.1.depth_unit
  · exact nextDepth_unit h

/-- Settles O55: the smoothed depth is part of an invariant that every step keeps, and a gain of two values in [0, 1] is
in [0, 1]. -/
theorem smoothedDepthAndGainStayInUnitInterval : Obligations.SmoothedDepthAndGainStayInUnitInterval := by
  refine ⟨fun s t hinv hy h => ?_, fun s hinv hy => ?_⟩
  · have ht : t.DepthInv :=
      step_keeps depthInv_of_sameElements ⟨resetKeepsTheInvariants, by decide⟩ effect_depthInv ⟨hinv, hy⟩ h
    exact ht.2
  · have hdepth := nextDepth_unit ⟨hinv, hy⟩
    exact ⟨gain_unit s.draw hdepth (wave_unit s.draw s.shape hinv.phase_unit),
      gain_unit s.draw hdepth (wave_unit s.draw s.shape (isPhase_phaseR hinv.phase_unit hinv.ofs_half))⟩

end Sys2Proof.Machine
end

section
/-! PROOFS for 20_memory.md (R57, R58, R61 to R63): the order in which events take effect, what a read leaves as it was,
and which operations are idempotent. -/

namespace Sys2Proof.Machine

/-! ## The order of acceptance -/

/-- Every event is taken, and no event's effect depends on what the host presents later. -/
theorem accept_next (e : PortEvent) (s : State) :
    ∃ u : State, ∀ p, accept e { s with pending := p } = .next { u with pending := p } := by
  cases e with
  | rst => exact ⟨assertReset s, fun _ => rfl⟩
  | transact t =>
    cases hd : decode t with
    | err cause => exact ⟨respondError cause s, fun _ => transact_err hd _⟩
    | op i =>
      obtain ⟨u, hu, -, -⟩ := exec_next i s
      exact ⟨u, fun _ => (transact_op hd _).trans (exec_pending _ hu)⟩

/-- A run takes the first pending event and goes on from there with the rest. -/
theorem run_cons (e : PortEvent) (s : State) :
    ∃ u : State, ∀ n p, Sys2Proof.core.run (n + 1) { s with pending := e :: p } =
      Sys2Proof.core.run n { u with pending := p } := by
  obtain ⟨u, hu⟩ := accept_next e s
  exact ⟨u, fun n p => run_succ n (hu p)⟩

theorem run_takes_all (es : List PortEvent) (s : State) :
    ∃ t, Sys2Proof.core.run es.length { s with pending := es } = .next t ∧ t.pending = [] := by
  induction es generalizing s with
  | nil => exact ⟨_, rfl, rfl⟩
  | cons e es ih =>
    obtain ⟨u, hu⟩ := run_cons e s
    rw [List.length_cons, hu]
    exact ih u

theorem run_append {xs : List PortEvent} (ys : List PortEvent) {s t : State}
    (h : Sys2Proof.core.run xs.length { s with pending := xs } = .next t) :
    Sys2Proof.core.run xs.length { s with pending := xs ++ ys } = .next { t with pending := ys } := by
  induction xs generalizing s with
  | nil =>
    cases h
    rfl
  | cons e xs ih =>
    obtain ⟨u, hu⟩ := run_cons e s
    rw [List.length_cons, hu] at h
    rw [List.length_cons, List.cons_append, hu]
    exact ih h

/-- Settles O10: an interleaving is as long as its two sequences together, and a run takes one event a step. -/
theorem runsTakeEveryEventInOrder : Obligations.RunsTakeEveryEventInOrder := by
  refine ⟨fun xs ys zs s hz => ?_, fun xs ys s t => run_append ys⟩
  rw [← length_of_interleaves hz]
  exact run_takes_all zs s

/-! ## Reads -/

/-- No operation reads the port's answer to the transaction before it. -/
theorem exec_port (i : Instr) (s : State) (r : Resp) (d : Word) :
    exec i { s with resp := r, rdata := d } = exec i s := by
  cases i <;> rfl

/-- A read writes the port's answer and nothing else. -/
theorem exec_read {i : Instr} (hr : i.isRead = true) (s : State) :
    ∃ v, exec i s = .next { s with resp := .okay, rdata := v } := by
  cases i <;> cases hr <;> exact ⟨_, rfl⟩

/-- Settles O15: a read writes only the port's answer, which no operation reads. -/
theorem readsChangeNothingAndRepeat : Obligations.ReadsChangeNothingAndRepeat := by
  intro i s t hr h
  obtain ⟨v, hv⟩ := exec_read hr s
  obtain rfl : { s with resp := .okay, rdata := v } = t := Host.Outcome.next.inj (hv.symm.trans h)
  exact ⟨sameElements_port .., rfl, rfl, (exec_port ..).trans hv⟩

/-! ## Setters -/

/-- A re-seeded smoother keeps nothing of the smoother before it (42_engine_config.md R142). -/
theorem execWrSampleRate_idem {v : Word} {s t : State} (h : execWrSampleRate v s = .next t) :
    execWrSampleRate v t = .next t := by
  cases h
  simp [execWrSampleRate, respondWrite_eq, smReseed_eq]

/-- Settles O22: every setter but WR_SAMPLE_RATE, and FEAT_RESET, stores a value made from its operand alone; the values
that WR_SAMPLE_RATE stores are made from its operand and from the two targets, which it leaves. -/
theorem settersAreIdempotent : Obligations.SettersAreIdempotent := by
  intro i s t hread hproc hpush h
  cases i
  case wrSampleRate v => exact execWrSampleRate_idem h
  case cmdFeatPush => exact absurd rfl hpush
  case cmdProcessMono => cases hproc
  case cmdProcessStereo => cases hproc
  case wrRate | wrDepth | wrWet | wrStereoDeg | wrShape | wrDataL | wrDataR | cmdNop | cmdFeatReset =>
    cases h
    rfl
  all_goals cases hread

end Sys2Proof.Machine
end

section
/-! PROOFS for 30_encoding.md (R76, R79, R80): the rows of the opcode map against the decoder, in both directions, and the
classes of words that select no operation. -/

namespace Sys2Proof

open Laws.OpcodeRow (allOnes_and)

/-! ## The opcode map (R80) -/

/-- A SHAPE write keeps DATA[1:0] (R73, R78). -/
theorem shapeOfData_setWidth (d : Word) : (shapeOfData d).code.setWidth 32 = d &&& 3#32 := by
  have hand : d.toNat &&& 3 = d.toNat % 4 := Nat.and_two_pow_sub_one_eq_mod d.toNat 2
  apply BitVec.eq_of_toNat_eq
  rw [shapeOfData_extract]
  simp [hand]
  omega

/-- DATA[1:0] alone selects the shape (R78). -/
theorem shapeOfData_eq {d : Word} {sh : Shape} (h : d &&& 3#32 = sh.code.setWidth 32) : shapeOfData d = sh := by
  rw [← shapeOfData_code (shapeOfData d), shapeOfData_setWidth, h, shapeOfData_code]

/-- An encoding is 0 on the DATA bits that its row ignores (R71, R80). -/
theorem data_and_dataMask (i : Instr) : i.transaction.data &&& i.dataMask = i.transaction.data := by
  cases i
  case wrShape sh => exact (Laws.OpcodeRow.wrShape sh).1
  case wrSampleRate v | wrRate v | wrDepth v | wrWet v | wrStereoDeg v | wrDataL v | wrDataR v => exact allOnes_and v
  all_goals rfl

theorem readOp_row {r : Reg} {i : Instr} (h : readOp r = .op i) :
    i.transaction = ⟨false, r.addr, 0#32⟩ ∧ i.dataMask = 0#32 := by
  cases r <;> cases h <;> exact ⟨rfl, rfl⟩

theorem commandOp_row {d : Word} {i : Instr} (h : commandOp d = .op i) :
    i.transaction = ⟨true, Reg.cmd.addr, d &&& i.dataMask⟩ := by
  obtain ⟨hw, ha, rfl⟩ := (commandOp_iff d i).1 h
  rw [data_and_dataMask, show Reg.cmd.addr = _ from ha.symm, ← hw]

theorem writeOp_row {r : Reg} {d : Word} {i : Instr} (h : writeOp r d = .op i) :
    i.transaction = ⟨true, r.addr, d &&& i.dataMask⟩ := by
  cases r
  case cmd => exact commandOp_row h
  case shape =>
    cases h
    exact congrArg (Transaction.mk true _) (shapeOfData_setWidth d)
  case sampleRate | rate | depth | wet | stereoDeg | dataL | dataR =>
    cases h
    exact congrArg (Transaction.mk true _) (allOnes_and d).symm
  all_goals cases h

/-- A transaction that decodes to an operation is its row, with the DATA bits that the row ignores (R76, R80). -/
theorem row_of_decodeTransaction {t : Transaction} {i : Instr} (h : decodeTransaction t = .op i) :
    ⟨t.write, t.addr, t.data &&& i.dataMask⟩ = i.transaction := by
  obtain ⟨w, a, d⟩ := t
  obtain hu | ⟨r, rfl : a = r.addr⟩ := decodeTransaction_cases ⟨w, a, d⟩
  · simp [hu] at h
  · rw [decodeTransaction_reg] at h
    split at h
    · cases h
    · split at h
      · cases h
      · cases w
        · obtain ⟨ht, hm⟩ := readOp_row h
          rw [ht, hm, BitVec.and_zero]
        · exact (writeOp_row h).symm

/-- A row's transaction decodes to its operation whatever the DATA bits that the row ignores (R76, R80): W and ADDR are
numerals in each row, on which the procedure runs. -/
theorem decodeTransaction_row {i : Instr} {d : Word} (h : d &&& i.dataMask = i.transaction.data) :
    decodeTransaction ⟨i.transaction.write, i.transaction.addr, d⟩ = .op i := by
  cases i
  case wrShape sh =>
    obtain rfl := shapeOfData_eq h
    with_unfolding_all rfl
  case cmdNop | cmdProcessMono | cmdProcessStereo | cmdFeatPush | cmdFeatReset | wrSampleRate | wrRate | wrDepth | wrWet |
      wrStereoDeg | wrDataL | wrDataR =>
    obtain rfl := (allOnes_and d).symm.trans h
    with_unfolding_all rfl
  all_goals with_unfolding_all rfl

theorem decodeTransaction_iff_row (t : Transaction) (i : Instr) :
    decodeTransaction t = .op i ↔ ⟨t.write, t.addr, t.data &&& i.dataMask⟩ = i.transaction := by
  refine ⟨row_of_decodeTransaction, fun h => ?_⟩
  obtain ⟨hw, ha, hd⟩ : t.write = i.transaction.write ∧ t.addr = i.transaction.addr ∧
      t.data &&& i.dataMask = i.transaction.data := by simp [← h]
  simpa [← hw, ← ha] using decodeTransaction_row hd

/-- Settles O2: masking a word masks its DATA field alone, and words are equal exactly where their fields are. -/
theorem decodeIsTheOpcodeMap : Obligations.DecodeIsTheOpcodeMap := by
  intro t i
  rw [decode, decodeTransaction_iff_row, and_careMask, encode]
  exact ⟨congrArg Transaction.word, word_injective⟩

/-- Settles O1: an encoding agrees with itself on the bits of its row. -/
theorem decodeInvertsEncode : Obligations.DecodeInvertsEncode := fun i => by
  rw [encode, decode_word]
  exact decodeTransaction_row (data_and_dataMask i)

/-! ## The words that select no operation (R79, R225) -/

/-- R79's checks on ADDR leave the registers' addresses. -/
theorem aligned_and_mapped_iff {t : Transaction} : (t.aligned && t.mapped) = true ↔ ∃ r : Reg, t.addr = r.addr := by
  rw [exists_reg_addr]
  simp [Transaction.aligned, Transaction.mapped]

/-- R79's checks on the direction at a register's address are those on its access type. -/
theorem writable_and_readable_reg {t : Transaction} {r : Reg} (h : t.addr = r.addr) :
    (t.writable && t.readable) = !(t.write && r.access == .ro || !t.write && r.access == .wo) := by
  rw [Transaction.writable, Transaction.readable, h]
  cases t.write <;> cases r <;> rfl

theorem commandDefined_reg {t : Transaction} {r : Reg} (h : t.addr = r.addr) :
    t.commandDefined = (!(t.write && r == .cmd) || decide (t.data.toNat ≤ 4)) := by
  rw [Transaction.commandDefined, h]
  cases r <;> rfl

theorem commandOp_defined {d : Word} (h : d.toNat ≤ 4) : ∃ i, commandOp d = .op i := by
  obtain ⟨hcmd, hunmapped, haccess⟩ := commandOp_err d
  cases hd : commandOp d with
  | op i => exact ⟨i, rfl⟩
  | err e =>
    cases e with
    | unmapped => exact absurd hd hunmapped
    | access => exact absurd hd haccess
    | cmd => exact absurd (hcmd.1 hd) (by omega)

theorem readOp_readable {r : Reg} (h : (r.access == .wo) = false) : ∃ i, readOp r = .op i := by
  cases r
  case cmd | stereoDeg => cases h
  all_goals exact ⟨_, rfl⟩

theorem writeOp_writable {r : Reg} (d : Word) (h : (r.access == .ro) = false) (hr : (r == .cmd) = false) :
    ∃ i, writeOp r d = .op i := by
  cases r
  case cmd => cases hr
  case sampleRate | rate | depth | wet | stereoDeg | shape | dataL | dataR => exact ⟨_, rfl⟩
  all_goals cases h

theorem decode_unmapped {t : TWord} (h : (t.fields.aligned && t.fields.mapped) = false) :
    decode t = .err .unmapped :=
  (decodeTransaction_cases t.fields).resolve_right fun hr => by simp [aligned_and_mapped_iff.2 hr] at h

theorem decode_access {t : TWord} (ha : (t.fields.aligned && t.fields.mapped) = true)
    (h : (t.fields.writable && t.fields.readable) = false) : decode t = .err .access := by
  obtain ⟨r, hr⟩ := aligned_and_mapped_iff.1 ha
  rw [writable_and_readable_reg hr, Bool.not_eq_false', Bool.or_eq_true] at h
  rw [decode_of_addr hr]
  split
  · rfl
  · next hw => rw [if_pos (h.resolve_left hw)]

/-- Past the tests of ADDR and W, the decoder's answer is the read's, or the write's (R76). -/
theorem decode_passed {t : TWord} {r : Reg} (hr : t.fields.addr = r.addr)
    (h : (t.fields.writable && t.fields.readable) = true) :
    (t.fields.write = false ∧ (r.access == .wo) = false ∧ decode t = readOp r) ∨
      (t.fields.write = true ∧ (r.access == .ro) = false ∧ decode t = writeOp r t.fields.data) := by
  rw [writable_and_readable_reg hr] at h
  rw [decode_of_addr hr]
  cases hw : t.fields.write
  · have hwo : (r.access == .wo) = false := by simpa [hw] using h
    exact .inl ⟨rfl, hwo, by simp [hwo]⟩
  · have hro : (r.access == .ro) = false := by simpa [hw] using h
    exact .inr ⟨rfl, hro, by simp [hro]⟩

theorem decode_cmd {t : TWord} (ha : (t.fields.aligned && t.fields.mapped) = true)
    (h : (t.fields.writable && t.fields.readable) = true) (hc : t.fields.commandDefined = false) :
    decode t = .err .cmd := by
  obtain ⟨r, hr⟩ := aligned_and_mapped_iff.1 ha
  rw [commandDefined_reg hr] at hc
  simp only [Bool.or_eq_false_iff, Bool.not_eq_false', Bool.and_eq_true, decide_eq_false_iff_not, beq_iff_eq] at hc
  obtain ⟨⟨hw, rfl⟩, hd⟩ := hc
  obtain ⟨hw', -, -⟩ | ⟨-, -, heq⟩ := decode_passed hr h
  · simp [hw] at hw'
  · exact heq.trans ((commandOp_err _).1.2 (by omega))

theorem decode_wf {t : TWord} (ha : (t.fields.aligned && t.fields.mapped) = true)
    (h : (t.fields.writable && t.fields.readable) = true) (hc : t.fields.commandDefined = true) :
    ∃ i, decode t = .op i := by
  obtain ⟨r, hr⟩ := aligned_and_mapped_iff.1 ha
  obtain ⟨-, hro, heq⟩ | ⟨hw, hro, heq⟩ := decode_passed hr h
  · exact heq ▸ readOp_readable hro
  · rw [commandDefined_reg hr, hw] at hc
    rw [heq]
    cases hcmd : r == .cmd
    · exact writeOp_writable _ hro hcmd
    · obtain rfl := beq_iff_eq.1 hcmd
      exact commandOp_defined (by simpa using hc)

/-- Settles O3: R79's checks, taken in the order of R76, leave one answer in each case. -/
theorem errorCausesByPriority : Obligations.ErrorCausesByPriority := by
  intro t
  rw [Bool.and_assoc (t.fields.aligned && t.fields.mapped)]
  cases ha : t.fields.aligned && t.fields.mapped
  · simp [decode_unmapped ha]
  · cases h : t.fields.writable && t.fields.readable
    · simp [decode_access ha h]
    · cases hc : t.fields.commandDefined
      · simp [decode_cmd ha h hc]
      · obtain ⟨i, hi⟩ := decode_wf ha h hc
        simp [hi]

/-- Settles O4: the decoder run on each word. -/
theorem sampleWordsDecode : Obligations.SampleWordsDecode := by
  unfold Obligations.SampleWordsDecode
  decide

end Sys2Proof
end

section
/-! PROOFS for 40_smoother.md (R101 to R106): the coefficient, the configuration operations, and the step at both ends
of the coefficient's range. -/

namespace Sys2Proof.Machine

/-! ## The coefficient (R102) -/

theorem smCoef_of_mul_posInf {tau fs : Word} (h : fMul none tau fs = 0x7F800000#32) : smCoef tau fs = F_ONE := by
  have hq : fDiv none F_NEG_ONE 0x7F800000#32 = 0x80000000#32 := fDiv_of_core (by decide)
  rw [smCoef, h, hq]
  exact expF32_zero (by decide)

theorem smCoef_of_mul_zero {tau fs : Word} (h : fMul none tau fs = F_ZERO) : smCoef tau fs = F_ZERO := by
  have hq : fDiv none F_NEG_ONE F_ZERO = 0xFF800000#32 := fDiv_of_core (by decide)
  rw [smCoef, h, hq]
  exact expF32_negInf

/-- The argument of EXP_F32, from the two roundings before it. -/
theorem smCoef_of_cores {tau fs m q : Word} (hm : fMulCore tau fs = some m) (hq : fDivCore F_NEG_ONE m = some q) :
    smCoef tau fs = expF32 q := by
  rw [smCoef, fMul_of_core hm, fDiv_of_core hq]

/-- Settles O39: the quotient is -0.0 or -inf at the ends, and at most 0 wherever tau > 0 and fs > 0. -/
theorem coefficientInUnitInterval : Obligations.CoefficientInUnitInterval :=
  ⟨fun _ _ => ⟨rfl, smCoef_of_mul_posInf, smCoef_of_mul_zero⟩,
    ⟨smCoef_of_cores (m := 0x43F00000#32) (by decide +kernel) (by decide +kernel),
      smCoef_of_cores (m := 0x4023D70A#32) (by decide +kernel) (by decide +kernel)⟩,
    fun _ _ => smCoef_unit⟩

/-! ## The configuration operations (R103 to R105) -/

theorem positiveOrDefault_nan {v : Word} (h : fIsNaN v = true) : positiveOrDefault v = FS_DEFAULT := by
  obtain ⟨-, -, hgt, -, -⟩ := comparisons_nan (b := F_ZERO) (.inl h)
  simp [positiveOrDefault, hgt]

theorem tauFloor_nan {t : Word} (h : fIsNaN t = true) : tauFloor t = TAU_MIN := by
  obtain ⟨-, -, -, hge, -⟩ := comparisons_nan (b := TAU_MIN) (.inl h)
  simp [tauFloor, hge]

/-- Settles O40: each operation is its rule's assignments; a NaN fails both comparisons, and TAU is above its floor. -/
theorem smootherConfiguration : Obligations.SmootherConfiguration := fun _ _ =>
  ⟨rfl, rfl, fun h => ⟨tauFloor_nan h, positiveOrDefault_nan h⟩, TAU_floor, rfl⟩

/-! ## Zeros, ones and infinities as operands -/

theorem fAdd_inf_left {k : Draw} {a b : Word} (ha : fIsInf a = true) (hb : fIsFinite b = true) : fAdd k a b = a :=
  fAdd_of_core (by simp [fAddCore, not_nan_of_inf ha, not_nan_of_finite hb, ha, not_inf_of_finite hb])

theorem finite_of_zero {z : Word} (h : fIsZero z = true) : fIsFinite z = true := by
  rw [fIsZero_eq] at h
  exact finite_of_code (by rw [of_decide_eq_true h]; decide)

theorem fVal_ne_zero {a : Word} (h : fIsZero a = false) : fVal a ≠ 0 := by
  rw [Ne, fVal_eq_zero]
  simpa [fIsZero_eq] using h

/-- 1.0 is the unit of the product, for the infinities too. -/
theorem fMul_one_of_not_nan (k : Draw) {a : Word} (h : fIsNaN a = false) : fMul k F_ONE a = a := by
  rcases finite_or_inf h with hf | hi
  · exact fMul_one_left hf
  · rw [eq_fInf hi]
    cases fSign a <;> exact fMul_of_core (by decide)

/-- A zero times a finite value is a zero. -/
theorem fMul_zero_isZero (k : Draw) {z b : Word} (hz : fIsZero z = true) (hb : fIsFinite b = true) :
    fIsZero (fMul k z b) = true := by
  rw [fMul_zero_left hb hz, fIsZero_eq, fCode_fPack]
  simp

theorem fAdd_zero_left_of_not_nan (k : Draw) {z a : Word} (hz : fIsZero z = true) (ha : fIsNaN a = false)
    (h0 : fIsZero a = false) : fAdd k z a = a := by
  rcases finite_or_inf ha with hf | hi
  · exact fAdd_zero_left hz hf (fVal_ne_zero h0)
  · exact fAdd_inf_right (finite_of_zero hz) hi

/-- Adding a zero on the right changes nothing, unless it makes -0.0 a +0.0. -/
theorem fAdd_zero_right_of_not_negZero (k : Draw) {a z : Word} (hz : fIsZero z = true) (ha : fIsNaN a = false)
    (h0 : fIsZero a = true → fSign a = false) : fAdd k a z = a := by
  rcases finite_or_inf ha with hf | hi
  · cases hza : fIsZero a
    case false => exact fAdd_zero_right hz hf (fVal_ne_zero hza)
    case true =>
      have hcode : fCode a = 0 := by simpa [fIsZero_eq] using hza
      rw [fAdd_finite hf (finite_of_zero hz), fVal_of_isZero hza, fVal_of_isZero hz, h0 hza]
      exact word_ext (by simp [fOfInt_zero, h0 hza]) (by simp [fOfInt_zero, hcode])
  · exact fAdd_inf_left hi (finite_of_zero hz)

theorem fAdd_zeros (k : Draw) {a b : Word} (ha : fIsZero a = true) (hb : fIsZero b = true) :
    fIsZero (fAdd k a b) = true := by
  rw [fAdd_finite (finite_of_zero ha) (finite_of_zero hb), fVal_of_isZero ha, fVal_of_isZero hb, fIsZero_eq, add_zero,
    fOfInt_zero, fCode_fPack]
  simp

/-! ## The lifted output y + EPS_SMOOTH -/

theorem fAdd_eps_finite (k : Draw) {y : Word} (h : fIsFinite y = true) : fIsFinite (fAdd k y EPS_SMOOTH) = true :=
  fAdd_epsMix_finite h

theorem fAdd_eps_inf (k : Draw) {y : Word} (h : fIsInf y = true) : fAdd k y EPS_SMOOTH = y :=
  fAdd_inf_left h (by decide)

theorem fAdd_eps_not_nan (k : Draw) {y : Word} (h : fIsNaN y = false) : fIsNaN (fAdd k y EPS_SMOOTH) = false := by
  rcases finite_or_inf h with hf | hi
  · exact not_nan_of_finite (fAdd_eps_finite k hf)
  · rwa [fAdd_eps_inf k hi]

theorem fOfInt_isZero {z : Bool} {v : Int} (h : fIsZero (fOfInt z v) = true) : v = 0 := by
  by_contra hv
  have hpos := roundMag_pos (n := v.natAbs) (d := 1) (by omega) (by omega)
  rw [fIsZero_eq, fCode_fOfInt, decide_eq_true_eq, INF_CODE] at h
  omega

/-- EPS_SMOOTH is positive, so the sum is -0.0 for no output. -/
theorem fAdd_eps_not_negZero (k : Draw) {y : Word} (h : fIsNaN y = false)
    (h0 : fIsZero (fAdd k y EPS_SMOOTH) = true) : fSign (fAdd k y EPS_SMOOTH) = false := by
  rcases finite_or_inf h with hf | hi
  · rw [fAdd_finite hf (by decide)] at h0 ⊢
    rw [fOfInt_isZero h0, fOfInt_zero, fSign_fPack, show fSign EPS_SMOOTH = false by decide, Bool.and_false]
  · rw [fAdd_eps_inf k hi] at h0
    rw [not_inf_of_finite (finite_of_zero h0)] at hi
    cases hi

/-! ## The step (R106) -/

/-- With a = 1 the weights are 1.0 and +0.0. -/
theorem smNext_one (k : Draw) {y : Word} (target : Word) (hy : fIsNaN y = false) :
    smNext k F_ONE y target = fAdd k (fAdd k y EPS_SMOOTH) (fMul k F_ZERO target) := by
  rw [smNext, fSub_one_one, fMul_one_of_not_nan k (fAdd_eps_not_nan k hy)]

/-- With a = +0 the weights are +0.0 and 1.0. -/
theorem smNext_zero (k : Draw) (y : Word) {target : Word} (ht : fIsNaN target = false) :
    smNext k F_ZERO y target = fAdd k (fMul k F_ZERO (fAdd k y EPS_SMOOTH)) target := by
  rw [smNext, fSub_one_zero (by decide), fMul_one_of_not_nan k ht]

theorem smNext_one_finite (k : Draw) {y target : Word} (hy : fIsNaN y = false) (ht : fIsFinite target = true) :
    smNext k F_ONE y target = fAdd k y EPS_SMOOTH := by
  rw [smNext_one k target hy]
  exact fAdd_zero_right_of_not_negZero k (fMul_zero_isZero k (by decide) ht) (fAdd_eps_not_nan k hy)
    (fAdd_eps_not_negZero k hy)

theorem smNext_one_inf (k : Draw) {y target : Word} (hy : fIsNaN y = false) (ht : fIsInf target = true) :
    fIsNaN (smNext k F_ONE y target) = true := by
  rw [smNext_one k target hy]
  exact fAdd_nan (.inr (fMul_zero_inf ht (by decide)))

theorem smNext_zero_follows (k : Draw) {y target : Word} (ht : fIsNaN target = false) (hy : fIsFinite y = true)
    (h0 : fIsZero target = false) : smNext k F_ZERO y target = target := by
  rw [smNext_zero k y ht]
  exact fAdd_zero_left_of_not_nan k (fMul_zero_isZero k (by decide) (fAdd_eps_finite k hy)) ht h0

theorem smNext_zero_zero (k : Draw) {y target : Word} (hy : fIsFinite y = true) (h0 : fIsZero target = true) :
    fIsZero (smNext k F_ZERO y target) = true := by
  rw [smNext_zero k y (not_nan_of_zero h0)]
  exact fAdd_zeros k (fMul_zero_isZero k (by decide) (fAdd_eps_finite k hy)) h0

theorem smNext_zero_inf (k : Draw) {y target : Word} (ht : fIsNaN target = false) (hy : fIsInf y = true) :
    fIsNaN (smNext k F_ZERO y target) = true := by
  rw [smNext_zero k y ht, fAdd_eps_inf k hy]
  exact fAdd_nan (.inl (fMul_zero_inf hy (by decide)))

/-- The step's five roundings, where none of them gives a NaN; it does not depend on the choice of NaNs. -/
def smNextCore (a y target : Word) : Option Word := do
  let u ← fAddCore y EPS_SMOOTH
  let v ← fMulCore a u
  let w ← fAddCore F_ONE (fNeg a)
  let z ← fMulCore w target
  fAddCore v z

theorem smNext_of_core (k : Draw) {a y target r : Word} (h : smNextCore a y target = some r) :
    smNext k a y target = r := by
  simp only [smNextCore, Option.bind_eq_bind, Option.bind_eq_some_iff] at h
  obtain ⟨u, hu, v, hv, w, hw, z, hz, hr⟩ := h
  rw [smNext, fAdd_of_core hu, fMul_of_core hv, fSub_of_core hw, fMul_of_core hz, fAdd_of_core hr]

/-- Settles O38: at each end one weight is 1.0 and the other +0.0, so one term is kept and the other is a zero, or a NaN
beside an infinity. -/
theorem smootherAtTheCoefficientEnds : Obligations.SmootherAtTheCoefficientEnds :=
  ⟨fun _ _ _ => ⟨rfl, rfl⟩,
    fun k _ _ hy ht => ⟨smNext_one_finite k hy, smNext_one_inf k hy, smNext_zero_follows k ht, smNext_zero_zero k,
      smNext_zero_inf k ht⟩,
    fun k => ⟨smNext_of_core k (by decide +kernel), smNext_of_core k (by decide +kernel),
      smNext_of_core k (by decide +kernel), smNext_of_core k (by decide +kernel),
      smNext_of_core k (by decide +kernel)⟩⟩

/-- Settles O41: `smNext_unit`, as the two weights exceed 1.0 together by less than half a spacing. -/
theorem smootherStaysInUnitInterval : Obligations.SmootherStaysInUnitInterval :=
  fun k _ _ _ => smNext_unit k

end Sys2Proof.Machine
end

section
/-! PROOFS for 41_feature.md (R121 to R131): the window's operations, the reads that are functions of it, and the ranges
and special values of the two measures. -/

namespace Sys2Proof.Machine

/-! ## READY and the window's length (10_state.md R34, R121) -/

theorem readyO_iff (s : State) : s.readyO = true ↔ s.win.length = 1024 :=
  beq_iff_eq

theorem statusWord_eq (s : State) : statusWord s = if s.win.length = 1024 then 1#32 else 0#32 :=
  if_congr (readyO_iff s) rfl rfl

/-- A push below the capacity makes the window one longer, and a push at the capacity leaves its length. -/
theorem winPush_length_of_le {win : List Word} (x : Word) (h : win.length ≤ 1024) :
    (winPush win x).length = min (win.length + 1) 1024 := by
  rw [winPush_length, N]
  split <;> omega

theorem winPush_at_capacity {win : List Word} (x : Word) (h : win.length = 1024) :
    winPush win x = win.drop 1 ++ [x] ∧ (winPush win x).length = 1024 := by
  refine ⟨?_, by rw [winPush_length_of_le x h.le]; omega⟩
  have hne : win ≠ [] := List.ne_nil_of_length_pos (by omega)
  rw [winPush_full h.ge, List.tail_append_of_ne_nil hne, List.drop_one]

/-! ## The fold of equal samples (R122) -/

/-- The sum of a finite value and itself has its sign, a zero's too. -/
theorem fAdd_self (k : Draw) {x : Word} (h : fIsFinite x = true) :
    fAdd k x x = fPack (fSign x) (roundMag 24 (2 * fMag x) 1) := by
  have habs : (fVal x + fVal x).natAbs = 2 * fMag x := by
    have := natAbs_fVal x
    omega
  rw [fAdd_finite h h, Bool.and_self, fOfInt, habs]
  split
  · next h0 => rw [← habs, h0]; simp
  · next h0 =>
    congr 1
    cases hs : fSign x
    · have := fVal_of_pos hs
      simp; omega
    · have := fVal_of_neg hs
      simp; omega

/-- Doubling a magnitude below 2^127 is exact and gives no infinity. -/
theorem roundMag_double {x : Word} (h : fCode x < 0x7F000000) :
    codeMag (roundMag 24 (2 * fMag x) 1) = 2 * fMag x ∧ roundMag 24 (2 * fMag x) 1 < INF_CODE := by
  obtain ⟨m, e, hm, hv, -⟩ := codeMag_short (fCode x)
  have hexact : codeMag (roundMag 24 (2 * fMag x) 1) = 2 * fMag x :=
    codeMag_roundMag_of_short (m := m) (e := e + 1) hm (by rw [fMag, hv, pow_succ]; ring)
  refine ⟨hexact, ?_⟩
  have hlt : fMag x < codeMag 0x7F000000 := codeMag_lt.2 h
  rw [← codeMag_lt, hexact, show codeMag INF_CODE = 2 * codeMag 0x7F000000 by decide +kernel]
  omega

/-- Half of the sum of equal samples: neither the doubling nor the halving rounds. -/
theorem mid_self (k : Draw) {x : Word} (h : fCode x < 0x7F000000) : mid k x x = x := by
  have hcode : fCode x < INF_CODE := h.trans (by decide)
  obtain ⟨hexact, hlt⟩ := roundMag_double h
  have hsum : fIsFinite (fPack (fSign x) (roundMag 24 (2 * fMag x) 1)) = true :=
    finite_of_code (by rw [fCode_fPack, min_eq_left hlt.le]; exact hlt)
  have hsign : (fSign F_HALF != fSign x) = fSign x := by cases fSign x <;> rfl
  have hmag : fMag F_HALF * (2 * fMag x) = codeMag (fCode x) * 2 ^ 149 := by
    rw [show fMag F_HALF = 2 ^ 148 by decide +kernel, fMag]
    ring
  rw [mid, fAdd_self k (finite_of_code hcode), fMul_finite (by decide) hsum, fSign_fPack, hsign, fMag_fPack,
    min_eq_left hlt.le, hexact, hmag, roundMag_codeMag_mul _ (by positivity)]
  exact fPack_self hcode.le

theorem mid_of_core {l r u w : Word} (hu : fAddCore l r = some u) (hw : fMulCore F_HALF u = some w) (k : Draw) :
    mid k l r = w := by
  rw [mid, fAdd_of_core hu, fMul_of_core hw]

/-! ## The commands (R126, R127) -/

theorem exec_cmdFeatPush (s : State) :
    exec .cmdFeatPush s =
      .next { s with
        win := winPush s.win (mid s.draw s.dataL s.dataR)
        nanDraw := s.nanDraw + 1
        resp := .okay
        rdata := 0#32 } :=
  rfl

theorem exec_cmdFeatReset (s : State) :
    exec .cmdFeatReset s = .next { s with win := [], resp := .okay, rdata := 0#32 } :=
  rfl

theorem win_length_after_push {s t : State} (hlen : s.win.length ≤ 1024) (h : exec .cmdFeatPush s = .next t) :
    t.win.length = min (s.win.length + 1) 1024 := by
  cases h
  exact winPush_length_of_le _ hlen

/-- READY after a push holds exactly where at most one sample was missing. -/
theorem readyO_after_push {s t : State} (hlen : s.win.length ≤ 1024) (h : exec .cmdFeatPush s = .next t) :
    t.readyO = true ↔ 1023 ≤ s.win.length := by
  rw [readyO_iff, win_length_after_push hlen h]
  omega

/-- Settles O28: a push below the capacity appends, at the capacity the oldest sample goes too, and the fold of equal
samples is exact. -/
theorem featurePushAppendsAndEvicts : Obligations.FeaturePushAppendsAndEvicts :=
  ⟨commandsAs_of (by decide) exec_cmdFeatPush, fun _ _ => winPush_room, fun _ => winPush_at_capacity,
    fun _ _ => readyO_after_push, mid_of_core (u := F_ONE) (by decide +kernel) (by decide +kernel),
    fun k _ => mid_self k⟩

/-- n pushes from a window of at most 1024 samples fill it up to 1024. -/
theorem hostRun_pushes (n : Nat) {s : State} (h : s.win.length ≤ 1024) :
    ∃ t, hostRun (List.replicate n (.cmd .featPush)) s = .next t ∧ t.win.length = min (s.win.length + n) 1024 := by
  induction n generalizing s with
  | zero => exact ⟨s, rfl, (min_eq_left h).symm⟩
  | succ n ih =>
    obtain ⟨u, hpush, -, -⟩ := exec_next .cmdFeatPush s
    have hu := win_length_after_push h hpush
    obtain ⟨t, hrun, hlen⟩ := ih (s := u) (by omega)
    refine ⟨t, ?_, by omega⟩
    rw [List.replicate_succ, hostRun, transact_cmd (i := .cmdFeatPush) (by decide), hpush, andThen_next, hrun]

/-- Settles O30, by induction on the number of pushes, from every length that the window can have. -/
theorem pushesFillTheWindowOnce : Obligations.PushesFillTheWindowOnce := by
  intro n s hempty
  obtain ⟨t, hrun, hlen⟩ := hostRun_pushes n (s := s) (by simp [hempty])
  rw [hempty, List.length_nil, Nat.zero_add] at hlen
  refine ⟨t, hrun, hlen, ?_⟩
  rw [readyO_iff, hlen]
  omega

/-- Settles O29: each read's value is the one that its rule gives for an empty window. -/
theorem featureResetEmptiesTheWindow : Obligations.FeatureResetEmptiesTheWindow := by
  refine ⟨commandsAs_of (by decide) exec_cmdFeatReset, fun s t h => ?_⟩
  cases h
  exact ⟨rfl, rfl, rfl, rfl, rfl, rfl⟩

/-! ## The zero-crossing rate (R123, R125) -/

/-- The quotient of two whole numbers is f32 of their ratio: both are exact, so one rounding is left. -/
theorem fDiv_fOfNat (k : Draw) {n m : Nat} (hn : n ≤ 2 ^ 24) (hm : m ≤ 2 ^ 24) (h0 : 0 < m) :
    fDiv k (fOfNat n) (fOfNat m) = fOfRat false n m := by
  have hzero : fIsZero (fOfNat m) = false := by
    rw [fIsZero_eq, decide_eq_false_iff_not, ← fMag_eq_zero, fMag_fOfNat hm]
    omega
  have hround : roundMag 24 (n * 2 ^ 149 * 2 ^ 149) (m * 2 ^ 149) = roundMag 24 (n * 2 ^ 149) m := by
    apply le_antisymm <;> refine roundMag_mono (by omega) (by omega) (by omega) (le_of_eq ?_) <;> ring
  rw [fDiv_finite (fOfNat_exact n hn).2 (fOfNat_exact m hm).2 hzero, fMag_fOfNat hn, fMag_fOfNat hm, hround,
    fSign_fOfNat, fSign_fOfNat]
  rfl

theorem fOfRat_zero (m : Nat) : fOfRat false 0 m = F_ZERO := by
  rw [fOfRat, Nat.zero_mul, roundMag_zero]
  rfl

theorem fOfRat_self {m : Nat} (h : 0 < m) : fOfRat false m m = F_ONE := by
  rw [fOfRat, show m * 2 ^ 149 = codeMag 0x3F800000 * m by
    rw [show codeMag 0x3F800000 = 2 ^ 149 by decide +kernel, Nat.mul_comm], roundMag_codeMag_mul _ h]
  decide

theorem fOfRat_unit {n m : Nat} (h0 : 0 < m) (h : n ≤ m) : fIn (fOfRat false n m) F_ZERO F_ONE = true := by
  have hle : (n : Int) ≤ m := Int.ofNat_le.2 h
  refine fIn_unit_of_bounds (fIsNaN_fPack _ _) (le_fVal_fPack h0 (by decide) ?_) (fVal_fPack_le h0 (by decide) ?_)
  · rw [fVal_zero]; simp
  · rw [fVal_one]; push_cast; omega

theorem zcrOf_short {win : List Word} (h : win.length < 2) : zcrOf win = F_ZERO := by
  rw [zcrOf, if_pos h]

theorem zcrOf_eq_fOfRat {win : List Word} (h2 : 2 ≤ win.length) (h : win.length ≤ 1024) :
    zcrOf win = fOfRat false (crossings win) (win.length - 1) := by
  have hcount := crossings_le win
  rw [zcrOf, if_neg (by omega), fDiv_fOfNat none (by omega) (by omega) (by omega)]

theorem zcrOf_unit {win : List Word} (h : win.length ≤ 1024) : fIn (zcrOf win) F_ZERO F_ONE = true := by
  rcases Nat.lt_or_ge win.length 2 with h2 | h2
  · rw [zcrOf_short h2]; decide
  · rw [zcrOf_eq_fOfRat h2 h]
    exact fOfRat_unit (by omega) (crossings_le win)

theorem zcrOf_no_crossing {win : List Word} (h : win.length ≤ 1024) (h0 : crossings win = 0) :
    zcrOf win = F_ZERO := by
  rcases Nat.lt_or_ge win.length 2 with h2 | h2
  · exact zcrOf_short h2
  · rw [zcrOf_eq_fOfRat h2 h, h0, fOfRat_zero]

theorem zcrOf_all_crossing {win : List Word} (h : win.length ≤ 1024) (h2 : 2 ≤ win.length)
    (hall : crossings win = win.length - 1) : zcrOf win = F_ONE := by
  rw [zcrOf_eq_fOfRat h2 h, hall, fOfRat_self (by omega)]

/-- Settles O50: the count is at most the number of pairs, and both are exact, so ZCR is their ratio rounded once. -/
theorem zeroCrossingRateInUnitInterval : Obligations.ZeroCrossingRateInUnitInterval :=
  ⟨nonneg_iff, fun win => ⟨crossings_eq_countP win, rfl⟩,
    fun win h => ⟨zcrOf_unit h, zcrOf_no_crossing h, zcrOf_all_crossing h, crossings_le win⟩⟩

/-! ## The root mean square (R124) -/

/-- A value from +0.0 to +inf, as each of R124's partial results is where no sample is a NaN. -/
def IsMagnitude (w : Word) : Prop :=
  fIsNaN w = false ∧ fSign w = false

theorem isMagnitude_fPack (c : Nat) : IsMagnitude (fPack false c) :=
  ⟨fIsNaN_fPack _ _, fSign_fPack _ _⟩

theorem isMagnitude_of_posInf {w : Word} (h : w = 0x7F800000#32) : IsMagnitude w := by
  subst h
  exact ⟨by decide, by decide⟩

theorem IsMagnitude.eq_posInf {w : Word} (h : IsMagnitude w) (hi : fIsInf w = true) : w = 0x7F800000#32 := by
  rw [eq_fInf hi, h.2]
  rfl

theorem fMul_self_inf (k : Draw) {x : Word} (h : fIsInf x = true) : fMul k x x = 0x7F800000#32 := by
  rw [eq_fInf h]
  cases fSign x <;> exact fMul_of_core (by decide)

theorem isMagnitude_fMul_self (k : Draw) {x : Word} (h : fIsNaN x = false) : IsMagnitude (fMul k x x) := by
  rcases finite_or_inf h with hf | hi
  · rw [fMul_finite hf hf, bne_self_eq_false]
    exact isMagnitude_fPack _
  · exact isMagnitude_of_posInf (fMul_self_inf k hi)

theorem fAdd_posInf_left (k : Draw) {b : Word} (hb : IsMagnitude b) : fAdd k 0x7F800000#32 b = 0x7F800000#32 := by
  rcases finite_or_inf hb.1 with hf | hi
  · exact fAdd_inf_left (by decide) hf
  · rw [hb.eq_posInf hi]
    exact fAdd_of_core (by decide)

theorem fAdd_posInf_right (k : Draw) {a : Word} (ha : IsMagnitude a) : fAdd k a 0x7F800000#32 = 0x7F800000#32 := by
  rcases finite_or_inf ha.1 with hf | hi
  · exact fAdd_inf_right hf (by decide)
  · rw [ha.eq_posInf hi]
    exact fAdd_of_core (by decide)

theorem isMagnitude_fAdd (k : Draw) {a b : Word} (ha : IsMagnitude a) (hb : IsMagnitude b) :
    IsMagnitude (fAdd k a b) := by
  rcases finite_or_inf ha.1 with haf | hai
  · rcases finite_or_inf hb.1 with hbf | hbi
    · rw [fAdd_finite haf hbf, ha.2, Bool.false_and, fVal_of_pos ha.2, fVal_of_pos hb.2, fOfInt_nonneg (by omega)]
      exact isMagnitude_fPack _
    · exact isMagnitude_of_posInf (by rw [hb.eq_posInf hbi, fAdd_posInf_right k ha])
  · exact isMagnitude_of_posInf (by rw [ha.eq_posInf hai, fAdd_posInf_left k hb])

theorem fDiv_posInf (k : Draw) {b : Word} (hf : fIsFinite b = true) (hs : fSign b = false) :
    fDiv k 0x7F800000#32 b = 0x7F800000#32 := by
  apply fDiv_of_core (w := fInf false)
  simp [fDivCore, not_nan_of_finite hf, not_inf_of_finite hf, hs, show fIsNaN 0x7F800000#32 = false by decide,
    show fIsInf 0x7F800000#32 = true by decide, show fSign 0x7F800000#32 = false by decide]

theorem isMagnitude_fDiv (k : Draw) {a b : Word} (ha : IsMagnitude a) (hf : fIsFinite b = true)
    (hs : fSign b = false) (h0 : fIsZero b = false) : IsMagnitude (fDiv k a b) := by
  rcases finite_or_inf ha.1 with haf | hai
  · rw [fDiv_finite haf hf h0, ha.2, hs]
    exact isMagnitude_fPack _
  · exact isMagnitude_of_posInf (by rw [ha.eq_posInf hai, fDiv_posInf k hf hs])

theorem fSqrt_posInf (k : Draw) : fSqrt k 0x7F800000#32 = 0x7F800000#32 :=
  fSqrt_of_core (by decide)

theorem fSqrt_nan (k : Draw) {a : Word} (h : fIsNaN a = true) : fIsNaN (fSqrt k a) = true :=
  fSqrt_nan_of_core (by simp [fSqrtCore, h])

theorem isMagnitude_fSqrt (k : Draw) {a : Word} (ha : IsMagnitude a) : IsMagnitude (fSqrt k a) := by
  rcases finite_or_inf ha.1 with hf | hi
  · cases h0 : fIsZero a
    case false =>
      rw [fSqrt_pos_finite k hf ha.2 h0]
      exact isMagnitude_fPack _
    case true =>
      rw [fSqrt_of_core (w := a) (by simp [fSqrtCore, ha.1, h0])]
      exact ha
  · exact isMagnitude_of_posInf (by rw [ha.eq_posInf hi, fSqrt_posInf])

/-! ### The sum of squares -/

theorem sumSquares_isMagnitude {acc : Word} {win : List Word} (hacc : IsMagnitude acc)
    (h : ∀ x ∈ win, fIsNaN x = false) : IsMagnitude (sumSquares acc win) := by
  induction win generalizing acc with
  | nil => exact hacc
  | cons x xs ih =>
    obtain ⟨hx, hxs⟩ := List.forall_mem_cons.1 h
    exact ih (isMagnitude_fAdd none hacc (isMagnitude_fMul_self none hx)) hxs

/-- A NaN in the window, or in the sum so far, makes the sum a NaN. -/
theorem sumSquares_nan {acc : Word} {win : List Word} (h : fIsNaN acc = true ∨ ∃ x ∈ win, fIsNaN x = true) :
    fIsNaN (sumSquares acc win) = true := by
  induction win generalizing acc with
  | nil => simpa [sumSquares] using h
  | cons x xs ih =>
    rw [List.exists_mem_cons_iff] at h
    apply ih
    rcases h with hacc | hx | hxs
    · exact .inl (fAdd_nan (.inl hacc))
    · exact .inl (fAdd_nan (.inr (fMul_nan (.inl hx))))
    · exact .inr hxs

/-- An infinite sample, or an infinite sum so far, makes the sum +inf where no sample is a NaN. -/
theorem sumSquares_posInf {acc : Word} {win : List Word} (hacc : IsMagnitude acc) (hn : ∀ x ∈ win, fIsNaN x = false)
    (h : acc = 0x7F800000#32 ∨ ∃ x ∈ win, fIsInf x = true) : sumSquares acc win = 0x7F800000#32 := by
  induction win generalizing acc with
  | nil => simpa [sumSquares] using h
  | cons x xs ih =>
    obtain ⟨hx, hxs⟩ := List.forall_mem_cons.1 hn
    have hsq := isMagnitude_fMul_self none hx
    rw [List.exists_mem_cons_iff] at h
    apply ih (isMagnitude_fAdd none hacc hsq) hxs
    rcases h with rfl | hi | hrest
    · exact .inl (fAdd_posInf_left none hsq)
    · exact .inl (by rw [fMul_self_inf none hi, fAdd_posInf_right none hacc])
    · exact .inr hrest

/-! ### RMS -/

theorem rmsOf_nonempty {win : List Word} (h : win ≠ []) :
    rmsOf win = fSqrt none (fDiv none (sumSquares F_ZERO win) (fOfNat win.length)) := by
  rw [rmsOf, if_neg (by simpa using h)]

/-- The length that RMS divides by is positive and finite. -/
theorem fOfNat_length_finite_not_zero {win : List Word} (hne : win ≠ []) (h : win.length ≤ 1024) :
    fIsFinite (fOfNat win.length) = true ∧ fIsZero (fOfNat win.length) = false := by
  have hpos := List.length_pos_of_ne_nil hne
  refine ⟨(fOfNat_exact _ (by omega)).2, ?_⟩
  rw [fIsZero_eq, decide_eq_false_iff_not, ← fMag_eq_zero, fMag_fOfNat (by omega)]
  omega

theorem rmsOf_isMagnitude {win : List Word} (h : win.length ≤ 1024) (hn : ∀ x ∈ win, fIsNaN x = false) :
    IsMagnitude (rmsOf win) := by
  by_cases hne : win = []
  · subst hne
    exact ⟨by decide, by decide⟩
  · obtain ⟨hf, h0⟩ := fOfNat_length_finite_not_zero hne h
    rw [rmsOf_nonempty hne]
    have hsum := sumSquares_isMagnitude (acc := F_ZERO) ⟨by decide, by decide⟩ hn
    exact isMagnitude_fSqrt none (isMagnitude_fDiv none hsum hf (fSign_fOfNat _) h0)

theorem rmsOf_nan {win : List Word} (h : ∃ x ∈ win, fIsNaN x = true) : fIsNaN (rmsOf win) = true := by
  have hne : win ≠ [] := by
    obtain ⟨x, hx, -⟩ := h
    exact List.ne_nil_of_mem hx
  rw [rmsOf_nonempty hne]
  exact fSqrt_nan none (fDiv_nan (.inl (sumSquares_nan (.inr h))))

theorem rmsOf_posInf {win : List Word} (h : win.length ≤ 1024) (hsum : sumSquares F_ZERO win = 0x7F800000#32) :
    rmsOf win = 0x7F800000#32 := by
  have hne : win ≠ [] := by
    rintro rfl
    exact absurd hsum (by decide)
  obtain ⟨hf, -⟩ := fOfNat_length_finite_not_zero hne h
  rw [rmsOf_nonempty hne, hsum, fDiv_posInf none hf (fSign_fOfNat _), fSqrt_posInf]

/-- A window holds a NaN, and RMS is one, or it holds none, and RMS is from +0.0 to +inf. -/
theorem rmsOf_cases {win : List Word} (h : win.length ≤ 1024) :
    ((∃ x ∈ win, fIsNaN x = true) ∧ fIsNaN (rmsOf win) = true) ∨
      ((¬ ∃ x ∈ win, fIsNaN x = true) ∧ IsMagnitude (rmsOf win)) := by
  by_cases hn : ∃ x ∈ win, fIsNaN x = true
  · exact .inl ⟨hn, rmsOf_nan hn⟩
  · exact .inr ⟨hn, rmsOf_isMagnitude h (by simpa using hn)⟩

theorem rmsOf_eq_foldl (win : List Word) :
    rmsOf win =
      if win = [] then 0x00000000#32
      else fSqrt none (fDiv none
        (win.foldl (fun acc x => fAdd none acc (fMul none x x)) 0x00000000#32) (fOfNat win.length)) := by
  rw [← sumSquares_eq_foldl]
  exact if_congr List.length_eq_zero_iff rfl rfl

/-- Settles O51: with no NaN among the samples every partial result is from +0.0 to +inf, and +inf is kept from the
first infinite square to the root. -/
theorem rootMeanSquareSigns : Obligations.RootMeanSquareSigns := by
  refine ⟨rmsOf_eq_foldl, fun win h => ⟨?_, ?_, fun hsum => ?_, fun hn hi => ?_⟩⟩
  · obtain ⟨hnan, hr⟩ | ⟨hnan, hr, -⟩ := rmsOf_cases h <;> simp [hnan, hr]
  · obtain ⟨-, hr⟩ | ⟨-, -, hs⟩ := rmsOf_cases h
    · exact .inl hr
    · exact .inr hs
  · exact rmsOf_posInf h ((sumSquares_eq_foldl _ _).trans hsum)
  · exact rmsOf_posInf h (sumSquares_posInf ⟨by decide, by decide⟩ hn (.inr hi))

/-! ## The reads (R128 to R131) and the engine (R121) -/

/-- Settles O13: each read answers with its function of the window; the examples are computed. -/
theorem featureReads : Obligations.FeatureReads :=
  ⟨readsAs_of (r := .status) rfl rfl fun s => by rw [← statusWord_eq]; rfl,
    readsAs_of (r := .featCount) rfl rfl fun _ => rfl,
    readsAs_of (r := .rms) rfl rfl fun _ => rfl,
    readsAs_of (r := .zcr) rfl rfl fun _ => rfl,
    readyO_iff, by decide +kernel, by decide +kernel⟩

/-- Settles O31: only FEAT_PUSH and FEAT_RESET write the window, and outside the six operations none reads it. -/
theorem engineIgnoresTheWindow : Obligations.EngineIgnoresTheWindow := by
  intro i s t w hi h
  constructor
  · obtain ⟨-, -, -, -, -, -, -, -, -, -, -, -, hwin⟩ := elementsHaveOnlyTheirWriters i s t h
    by_contra hne
    rcases hwin hne with rfl | rfl <;> cases hi
  · cases i
    case cmdFeatPush | cmdFeatReset | rdStatus | rdFeatCount | rdRms | rdZcr => cases hi
    all_goals
      cases h
      rfl

end Sys2Proof.Machine
end

section
/-! PROOFS for 42_engine_config.md (R142 to R158): the setters of the engine's parameters with the values they store, and
the reads of the engine's registers. -/

namespace Sys2Proof.Machine

/-! ## What the setters' comparisons accept -/

/-- The values above 0.0 are those that are no NaN, no zero and not negative; +inf is one of them. -/
theorem fGt_zero_iff {v : Word} : fGt v F_ZERO = true ↔ fIsNaN v = false ∧ fIsZero v = false ∧ fSign v = false := by
  constructor
  · intro h
    obtain ⟨hn, hpos, hs⟩ := pos_of_fGt h
    exact ⟨hn, not_zero_of_pos hpos, hs⟩
  · rintro ⟨hn, h0, hs⟩
    have hpos := fMag_pos h0
    exact fGt_iff.2 ⟨hn, zero_not_nan, by rw [fVal_zero, fVal_of_pos hs]; omega⟩

theorem fGt_zero_eq_false {v : Word} (h : fIsNaN v = true ∨ fIsZero v = true ∨ fSign v = true) :
    fGt v F_ZERO = false := by
  rw [← Bool.not_eq_true, fGt_zero_iff]
  rintro ⟨hn, h0, hs⟩
  simp [hn, h0, hs] at h

theorem positiveOrDefault_not_pos {v : Word} (h : fGt v F_ZERO = false) : positiveOrDefault v = FS_DEFAULT := by
  simp [positiveOrDefault, h]

/-- RATE_MIN is positive, so a rate that is not is below it. -/
theorem fGe_rateMin_eq_false {v : Word} (h : fIsNaN v = true ∨ fIsZero v = true ∨ fSign v = true) :
    fGe v RATE_MIN = false := by
  have hmin : 0 < fVal RATE_MIN := by decide +kernel
  rw [← Bool.not_eq_true, fGe_iff]
  rintro ⟨hn, -, hle⟩
  have hgt : fGt v F_ZERO = true := fGt_iff.2 ⟨hn, zero_not_nan, fVal_zero ▸ hmin.trans_le hle⟩
  rw [fGt_zero_eq_false h] at hgt
  cases hgt

theorem rateFloor_below {v : Word} (h : fGe v RATE_MIN = false) : rateFloor v = RATE_MIN := by
  simp [rateFloor, h]

/-- A NaN and every value below 0.0, -inf included, clamp to the lower bound +0.0. -/
theorem clampD_zero_of_nan_or_negative {v : Word} (hi : Word)
    (h : fIsNaN v = true ∨ (fSign v = true ∧ fIsZero v = false)) : clampD v F_ZERO hi = F_ZERO := by
  apply clampD_lo
  cases hn : fIsNaN v
  case true => exact .inl rfl
  case false =>
    obtain ⟨hs, h0⟩ := h.resolve_left (by simp [hn])
    exact .inr (fLt_iff.2 ⟨hn, zero_not_nan, fVal_zero ▸ fVal_neg_of_sign hs h0⟩)

/-! ## WR_SAMPLE_RATE (R142) -/

theorem exec_wrSampleRate (v : Word) (s : State) :
    exec (.wrSampleRate v) s = .next
      { s with
        fs := positiveOrDefault v
        smR := ⟨s.rateT, TAU, positiveOrDefault v, smCoef TAU (positiveOrDefault v)⟩
        smD := ⟨s.depthT, TAU, positiveOrDefault v, smCoef TAU (positiveOrDefault v)⟩
        resp := .okay
        rdata := 0#32 } := by
  rw [exec, execWrSampleRate, smReseed_eq, smReseed_eq, respondWrite_eq]

/-- Settles O16: a re-seeded smoother is written whole, and the product TAU * fs is +0.0 at 2^-149 and +inf at +inf. -/
theorem sampleRateWriteReseedsBothSmoothers : Obligations.SampleRateWriteReseedsBothSmoothers :=
  ⟨writesAs_of (r := .sampleRate) (fun _ => rfl) rfl exec_wrSampleRate,
    fun _ => fGt_zero_eq_false,
    fun _ hn h0 hs => fGt_zero_iff.2 ⟨hn, h0, hs⟩,
    smCoef_of_mul_zero (fMul_of_core (by decide +kernel)),
    smCoef_of_mul_posInf (fMul_of_core (by decide +kernel))⟩

/-! ## WR_RATE, WR_DEPTH and WR_WET (R144, R146, R148) -/

/-- Settles O17: the floor RATE_MIN is positive, and -3.0 is below it. -/
theorem rateWriteFloorsAtRateMin : Obligations.RateWriteFloorsAtRateMin :=
  ⟨writesAs_of (r := .rate) (fun _ => rfl) rfl fun _ _ => rfl,
    by decide +kernel,
    fun _ => fGe_rateMin_eq_false,
    by decide +kernel,
    fun _ => ⟨_, rfl, rateFloor_below (v := 0xC0400000#32) (by decide +kernel)⟩⟩

/-- Settles O18: -0.0 lies inside the clamp's range, and NaNs and negatives are below it. -/
theorem depthAndWetWritesClamp : Obligations.DepthAndWetWritesClamp :=
  have hunit : fLe F_ZERO F_ONE = true := by decide +kernel
  ⟨writesAs_of (r := .depth) (fun _ => rfl) rfl fun _ _ => rfl,
    writesAs_of (r := .wet) (fun _ => rfl) rfl fun _ _ => rfl,
    clampD_negZero (by decide) hunit,
    fun _ => clampD_zero_of_nan_or_negative F_ONE,
    fun _ => clampD_hi hunit,
    by decide +kernel,
    clampD_hi hunit (by decide +kernel),
    clampD_hi hunit (by decide +kernel)⟩

/-! ## WR_STEREO_DEG (R150) -/

/-- A stored offset, from the clamped angle and the one rounding of its quotient. -/
theorem offsetOfDegrees_of_core {v d q : Word} (hd : clampD v F_ZERO DEG_MAX = d)
    (hq : fDivCore d DEG_PER_CYCLE = some q) : offsetOfDegrees v = q := by
  rw [offsetOfDegrees, hd, fDiv_of_core hq]

theorem offsetOfDegrees_ninety : offsetOfDegrees 0x42B40000#32 = 0x3E800000#32 :=
  offsetOfDegrees_of_core (d := 0x42B40000#32) (by decide +kernel) (by decide +kernel)

/-- Settles O19: the values of R150 follow from the clamp to [0, 180] and the quotient by 360. -/
theorem stereoDegreesBecomeAnOffset : Obligations.StereoDegreesBecomeAnOffset :=
  have hmax : fLe F_ZERO DEG_MAX = true := by decide +kernel
  ⟨writesAs_of (r := .stereoDeg) (fun _ => rfl) rfl fun _ _ => rfl,
    fun d => (decode_word _).trans (decodeTransaction_reg false .stereoDeg d),
    offsetOfDegrees_of_core (d := DEG_MAX) (by decide +kernel) (by decide +kernel),
    offsetOfDegrees_ninety,
    offsetOfDegrees_of_core (clampD_negZero (by decide) hmax) (by decide +kernel),
    fun _ h => offsetOfDegrees_of_core (clampD_zero_of_nan_or_negative DEG_MAX h) (by decide +kernel),
    fun _ h => offsetOfDegrees_of_core (clampD_hi hmax h) (by decide +kernel),
    by decide +kernel,
    offsetOfDegrees_of_core (d := F_ONE) (by decide +kernel) (by decide +kernel)⟩

/-- A quotient by a positive divisor grows with a non-negative dividend: the exact quotients do, and rounding is
monotone. -/
theorem fDiv_mono {k : Draw} {a b d : Word} (ha : fIsFinite a = true) (hb : fIsFinite b = true)
    (hd : fIsFinite d = true) (h0 : fIsZero d = false) (hs : fSign d = false) (ha0 : 0 ≤ fVal a)
    (hab : fVal a ≤ fVal b) : fVal (fDiv k a d) ≤ fVal (fDiv k b d) := by
  have hb0 := ha0.trans hab
  rw [(fDiv_nonneg ha hd h0 hs ha0).1, (fDiv_nonneg hb hd h0 hs hb0).1]
  rw [fVal_eq_fMag ha0, fVal_eq_fMag hb0, Nat.cast_le] at hab
  have hround : roundMag 24 (fMag a * 2 ^ 149) (fMag d) ≤ roundMag 24 (fMag b * 2 ^ 149) (fMag d) :=
    roundMag_mono (by decide) (fMag_pos h0) (fMag_pos h0) (by gcongr)
  exact Nat.cast_le.2 (codeMag_le.2 (min_le_min_right _ hround))

theorem clampedDegrees_finite_nonneg (v : Word) :
    fIsFinite (clampD v F_ZERO DEG_MAX) = true ∧ 0 ≤ fVal (clampD v F_ZERO DEG_MAX) := by
  obtain ⟨hn, -, -, hge, hle⟩ := fIn_iff.1 (clampD_range v (hi := DEG_MAX) (by decide +kernel))
  rw [fVal_zero] at hge
  exact ⟨finite_of_le hn hge (by decide) hle, hge⟩

theorem offsetOfDegrees_mono {v w : Word} (h : fLe v w = true) :
    fLe (offsetOfDegrees v) (offsetOfDegrees w) = true := by
  obtain ⟨hvf, hv0⟩ := clampedDegrees_finite_nonneg v
  obtain ⟨hwf, -⟩ := clampedDegrees_finite_nonneg w
  obtain ⟨hvn, -⟩ := fIn_iff.1 (offsetOfDegrees_half v)
  obtain ⟨hwn, -⟩ := fIn_iff.1 (offsetOfDegrees_half w)
  have hclamp := clampD_mono (hi := DEG_MAX) (by decide +kernel) h
  exact fLe_iff.2 ⟨hvn, hwn, fDiv_mono hvf hwf (by decide) (by decide) (by decide) hv0 hclamp⟩

/-- Settles O20: the clamp bounds the angle by 180, half of the divisor; clamp and quotient are both monotone. -/
theorem stereoOffsetInHalfCycleAndMonotone : Obligations.StereoOffsetInHalfCycleAndMonotone :=
  ⟨offsetOfDegrees_half, fun _ _ => offsetOfDegrees_mono⟩

/-! ## WR_SHAPE (R152) -/

/-- Settles O21: the decoder takes the shape from DATA[1:0] alone, and the write stores it. -/
theorem shapeWriteTakesTwoBits : Obligations.ShapeWriteTakesTwoBits :=
  ⟨fun d => ⟨shapeOfData d, decode_write (r := .shape) rfl rfl, shapeOfData_extract d⟩,
    fun _ _ => rfl,
    rfl, rfl, rfl, rfl,
    decode_write (r := .shape) rfl rfl,
    decode_write (r := .shape) rfl rfl,
    decode_write (r := .shape) rfl rfl⟩

/-! ## The reads (R143 to R158) -/

/-- R143: a rate that is not above 0.0 is stored as the default. -/
theorem sampleRate_default_stored {v : Word} (s : State) (h : fGt v F_ZERO = false) :
    ∃ t, exec (.wrSampleRate v) s = .next t ∧ t.fs = FS_DEFAULT :=
  ⟨_, exec_wrSampleRate v s, positiveOrDefault_not_pos h⟩

/-- Settles O12: each read answers with its element of state, whose reset value is that of R37. -/
theorem engineReads : Obligations.EngineReads :=
  ⟨⟨readsAs_of (r := .sampleRate) rfl rfl fun _ => rfl, rfl, fun _ s => sampleRate_default_stored s⟩,
    readsAs_of (r := .id) rfl rfl fun _ => rfl,
    ⟨readsAs_of (r := .rateSm) rfl rfl fun _ => rfl, rfl⟩,
    ⟨readsAs_of (r := .depthSm) rfl rfl fun _ => rfl, rfl⟩,
    readsAs_of (r := .smoothCoef) rfl rfl fun _ => rfl,
    ⟨readsAs_of (r := .phase) rfl rfl fun _ => rfl, rfl⟩,
    ⟨readsAs_of (r := .rate) rfl rfl fun _ => rfl, rfl⟩,
    ⟨readsAs_of (r := .depth) rfl rfl fun _ => rfl, rfl⟩,
    ⟨readsAs_of (r := .wet) rfl rfl fun _ => rfl, rfl⟩,
    ⟨readsAs_of (r := .stereoOfs) rfl rfl fun _ => rfl,
      fun d => (decode_word _).trans (decodeTransaction_reg true .stereoOfs d),
      fun _ => ⟨_, rfl, offsetOfDegrees_ninety⟩⟩,
    readsAs_of (r := .shape) rfl rfl fun _ => rfl,
    fun s => ⟨_, hostWrite_eq (i := .wrShape .squareSoft) rfl rfl s, rfl⟩⟩

end Sys2Proof.Machine
end

section
/-! PROOFS for 43_engine_process.md (R171 to R187): the commands and data registers, the waveforms, gain, mixer and
phase increment, with the roundings that their exact values and absorptions rest on. -/

namespace Sys2Proof.Machine

/-! ## The data registers and NOP (R182 to R186) -/

/-- Settles O14: each transaction is its row of the register map, and stores or answers the word as it is. -/
theorem dataRegistersStoreEveryPattern : Obligations.DataRegistersStoreEveryPattern :=
  ⟨readsAs_of (r := .dataL) rfl rfl fun _ => rfl,
    readsAs_of (r := .dataR) rfl rfl fun _ => rfl,
    writesAs_of (r := .dataL) (fun _ => rfl) rfl fun _ _ => rfl,
    writesAs_of (r := .dataR) (fun _ => rfl) rfl fun _ _ => rfl,
    by decide +kernel, by decide +kernel⟩

/-- Settles O24: the command of code 0 ends as a write does, with no effect before it. -/
theorem nopChangesNothing : Obligations.NopChangesNothing :=
  commandsAs_of (by decide) fun _ => rfl

/-! ## The frames (R179 to R181) -/

theorem exec_cmdProcessMono (s : State) :
    exec .cmdProcessMono s = .next { processMono s with resp := .okay, rdata := 0#32 } :=
  rfl

theorem exec_cmdProcessStereo (s : State) :
    exec .cmdProcessStereo s = .next { processStereo s with resp := .okay, rdata := 0#32 } :=
  rfl

/-- Settles O25: the frame's steps, in the order of R179. -/
theorem monoFrameResult : Obligations.MonoFrameResult :=
  commandsAs_of (by decide) exec_cmdProcessMono

/-- Settles O26: the mono frame's steps with the right lane's output beside the left's. -/
theorem stereoFrameResult : Obligations.StereoFrameResult :=
  commandsAs_of (by decide) exec_cmdProcessStereo

/-- Settles O27: the left lane, the phase and the smoothers are functions of elements other than DATA_R, a mono frame's
also of elements other than OFS, and the right lane is a function of elements other than DATA_L. -/
theorem lanesAreIndependent : Obligations.LanesAreIndependent := by
  refine ⟨fun s t x o h => ?_, fun s t x h => ?_, fun s t x h => ?_⟩
  · rw [exec_cmdProcessMono] at h
    cases h
    rfl
  · rw [exec_cmdProcessStereo] at h
    cases h
    exact ⟨_, exec_cmdProcessStereo _, rfl, rfl, rfl, rfl⟩
  · rw [exec_cmdProcessStereo] at h
    cases h
    exact ⟨_, exec_cmdProcessStereo _, rfl⟩

/-- With OFS = +0.0 the right lane's phase is the left's: the sum and the wrap are both exact. -/
theorem phaseR_of_zero_offset {s : State} (hp : isPhase s.phase = true) (hofs : s.ofs = F_ZERO) :
    phaseR s = s.phase := by
  obtain ⟨hs, hn, -⟩ := isPhase_iff.1 hp
  rw [phaseR, hofs, fAdd_zero_right_of_not_negZero s.draw (by decide) hn fun _ => hs, frac_below_one hp]

/-- Settles O49: both lanes evaluate one function, on the same sample and the same phase. -/
theorem stereoRoundTripIdentity : Obligations.StereoRoundTripIdentity := by
  intro s t hp hofs hdata h
  rw [exec_cmdProcessStereo] at h
  cases h
  show laneL s = laneR s
  rw [laneL, laneR, phaseR_of_zero_offset hp hofs, hdata]

/-! ## The waveforms (R171 to R175) -/

/-- R8: the sine of +0.0 is +0.0. -/
theorem sinOfPhase_zero (k : Draw) : sinOfPhase k F_ZERO = F_ZERO := by
  rw [sinOfPhase, fMul_of_core (w := F_ZERO) (by decide +kernel), sinF32_zero (by decide)]

theorem waveSine_zero (k : Draw) : waveSine k F_ZERO = F_HALF := by
  rw [waveSine, sinOfPhase_zero, fAdd_of_core (w := F_ONE) (by decide +kernel)]
  exact fMul_of_core (by decide +kernel)

theorem waveSquare_zero (k : Draw) : waveSquare k F_ZERO = F_ONE := by
  rw [waveSquare, sinOfPhase_zero, if_pos (by decide)]

/-- Settles O42: the formulas are the definitions, the bounds `wave_unit`, and the values at phase +0.0 come from the
sine's there. -/
theorem waveformsInUnitInterval : Obligations.WaveformsInUnitInterval :=
  ⟨fun _ _ => ⟨rfl, rfl, rfl, rfl⟩,
    fun k sh p hp => ⟨wave_unit k sh hp, waveSquare_values k p⟩,
    fun k => ⟨waveSine_zero k, waveSquare_zero k⟩⟩

/-! ### The triangle's ramps -/

/-- A sum in [0, 2] is rounded by at most half of 2^126 units. -/
theorem fOfInt_error_two (z : Bool) {v : Int} (h0 : 0 ≤ v) (h2 : v ≤ 2 ^ 150) :
    |2 * fVal (fOfInt z v) - 2 * v| ≤ 2 ^ 126 := by
  rcases lt_or_eq_of_le h2 with hlt | rfl
  · exact fOfInt_error z (s := 126) (by omega) (by omega)
  · have hexact : fVal (fOfInt z (2 ^ 150)) = 2 ^ 150 := by
      rw [← fVal_two, fOfInt_fVal two_not_nan (by rw [fVal_two]; norm_num)]
    rw [hexact]
    norm_num

/-- A ramp value `r` that one rounding made from `v` is mapped from [-1, 1] to [0, 1] by 0.5 * (r + 1.0), with one more
rounding above the halving: half of v + 1.0 is met within 2^125 units. -/
theorem fMul_half_add_one_error (k : Draw) {r : Word} {v : Int} (h : fIn r F_NEG_ONE F_ONE = true)
    (hr : |2 * fVal r - 2 * v| ≤ 2 ^ 125) :
    |2 * fVal (fMul k F_HALF (fAdd k r F_ONE)) - (v + 2 ^ 149)| ≤ 2 ^ 126 := by
  obtain ⟨hn, hge, hle⟩ := fIn_signedUnit_iff.1 h
  have hrf := finite_of_signedUnit hn hge hle
  have h1f : fIsFinite F_ONE = true := by decide
  have hsum0 : fVal F_ZERO ≤ fVal (fAdd k r F_ONE) :=
    le_fAdd hrf h1f zero_not_nan (by rw [fVal_zero, fVal_one]; omega)
  have hsum2 : fVal (fAdd k r F_ONE) ≤ fVal 0x40000000#32 :=
    fAdd_le hrf h1f two_not_nan (by rw [fVal_two, fVal_one]; omega)
  rw [fVal_zero] at hsum0
  have hsumf := finite_of_le (fAdd_not_nan hrf h1f) hsum0 (by decide) hsum2
  rw [fVal_two] at hsum2
  have hhalf := fMul_half_error (k := k) hsumf hsum0 hsum2
  have hround := fOfInt_error_two (fSign r && fSign F_ONE) (v := fVal r + fVal F_ONE)
    (by rw [fVal_one]; omega) (by rw [fVal_one]; omega)
  rw [← fAdd_finite (k := k) hrf h1f, fVal_one] at hround
  rw [abs_le] at *
  omega

/-- R173 on the rising ramp: 4.0 * p is exact, and 4p - 1 and the sum with 1.0 round once each. -/
theorem waveTri_rising (k : Draw) {p : Word} (hp : isPhase p = true) (hlt : fLt p F_HALF = true) :
    |fVal (waveTri k p) - 2 * fVal p| ≤ 2 ^ 125 := by
  have hramp := waveTri_ramp_range k hp
  obtain ⟨hff, hfv⟩ := fMul_four_exact (k := k) hp
  obtain ⟨-, hpv, -⟩ := isPhase_value hp
  obtain ⟨-, -, hhalf⟩ := fLt_iff.1 hlt
  rw [fVal_half] at hhalf
  have hround := fOfInt_error_unit (fSign (fMul k F_FOUR p) && !fSign F_ONE)
    (v := fVal (fMul k F_FOUR p) - fVal F_ONE) (by rw [hfv, fVal_one]; omega)
  rw [← fSub_finite (k := k) hff (by decide), hfv, fVal_one] at hround
  rw [if_pos hlt] at hramp
  have hmap := fMul_half_add_one_error k hramp hround
  rw [waveTri, if_pos hlt]
  rw [abs_le] at hmap ⊢
  omega

/-- R173 on the falling ramp, as on the rising one with 3 - 4p. -/
theorem waveTri_falling (k : Draw) {p : Word} (hp : isPhase p = true) (hge : fGe p F_HALF = true) :
    |fVal (waveTri k p) - (2 ^ 150 - 2 * fVal p)| ≤ 2 ^ 125 := by
  have hramp := waveTri_ramp_range k hp
  obtain ⟨hff, hfv⟩ := fMul_four_exact (k := k) hp
  obtain ⟨-, hpv, hp1⟩ := isPhase_value hp
  obtain ⟨-, -, hhalf⟩ := fGe_iff.1 hge
  have hlt : ¬ fLt p F_HALF = true := by
    rw [Bool.not_eq_true, fLt_eq_false_iff]
    exact .inr (.inr hhalf)
  rw [fVal_half] at hhalf
  have hround := fOfInt_error_unit (fSign F_THREE && !fSign (fMul k F_FOUR p))
    (v := fVal F_THREE - fVal (fMul k F_FOUR p)) (by rw [hfv, fVal_three]; omega)
  rw [← fSub_finite (k := k) (by decide) hff, hfv, fVal_three] at hround
  rw [if_neg hlt] at hramp
  have hmap := fMul_half_add_one_error k hramp hround
  rw [waveTri, if_neg hlt]
  rw [abs_le] at hmap ⊢
  omega

/-- The triangle's roundings, where none of them gives a NaN; they do not depend on the choice of NaNs. -/
def waveTriCore (p : Word) : Option Word :=
  (fMulCore F_FOUR p).bind fun f =>
  (if fLt p F_HALF then fAddCore f (fNeg F_ONE) else fAddCore F_THREE (fNeg f)).bind fun r =>
  (fAddCore r F_ONE).bind (fMulCore F_HALF)

theorem waveTri_of_core (k : Draw) {p w : Word} (h : waveTriCore p = some w) : waveTri k p = w := by
  simp only [waveTriCore, Option.bind_eq_some_iff] at h
  obtain ⟨f, hf, r, hr, t, ht, hw⟩ := h
  have hramp : (if fLt p F_HALF then fSub k f F_ONE else fSub k F_THREE f) = r := by
    split at hr
    · next hlt => rw [if_pos hlt, fSub_of_core hr]
    · next hlt => rw [if_neg hlt, fSub_of_core hr]
  rw [waveTri, fMul_of_core hf, hramp, fAdd_of_core ht, fMul_of_core hw]

/-- Settles O43: each ramp's roundings err by at most 2^-24 in all once halved; the values are computed. -/
theorem triangleFollowsItsRamps : Obligations.TriangleFollowsItsRamps := fun k =>
  ⟨fun _ => waveTri_rising k, fun _ => waveTri_falling k,
    waveTri_of_core k (by decide +kernel), waveTri_of_core k (by decide +kernel), waveTri_of_core k (by decide +kernel),
    waveTri_of_core k (by decide +kernel), waveTri_of_core k (by decide +kernel), waveTri_of_core k (by decide +kernel),
    waveTri_of_core k (by decide +kernel)⟩

/-! ## Gain (R176) -/

/-- A whole number of units rounds to the word that a smaller and a larger one both round to. -/
theorem fOfInt_of_between (z : Bool) {v : Int} {lo hi : Nat} {w : Word} (h0 : 0 < lo) (hlo : lo ≤ v) (hhi : v ≤ hi)
    (hs : fSign w = false) (hf : fIsFinite w = true) (hl : roundMag 24 lo 1 = fCode w)
    (hh : roundMag 24 hi 1 = fCode w) : fOfInt z v = w := by
  have hge : fCode w ≤ roundMag 24 v.natAbs 1 := hl ▸ roundMag_mono (by omega) (by omega) (by omega) (by omega)
  have hle : roundMag 24 v.natAbs 1 ≤ fCode w := hh ▸ roundMag_mono (by omega) (by omega) (by omega) (by omega)
  apply word_ext
  · rw [fSign_fOfInt (by omega), hs, decide_eq_false (by omega)]
  · rw [fCode_fOfInt, le_antisymm hle hge, min_eq_left (code_lt_of_finite hf).le]

theorem fVal_twoPowNeg25 : fVal 0x33000000#32 = 2 ^ 124 := by decide +kernel

/-- What is subtracted from 1.0 is absorbed up to half of the spacing below 1.0, which is 2^-24. -/
theorem fSub_one_small (k : Draw) {a : Word} (hf : fIsFinite a = true) (h0 : 0 ≤ fVal a) (h : fVal a ≤ 2 ^ 124) :
    fSub k F_ONE a = F_ONE := by
  rw [fSub_finite (by decide) hf, fVal_one]
  exact fOfInt_of_between _ (lo := 2 ^ 149 - 2 ^ 124) (hi := 2 ^ 149) (by norm_num) (by omega) (by omega) (by decide)
    (by decide) (by decide +kernel) (by decide +kernel)

/-- A depth below 2^-25 makes the product at most as small. -/
theorem gain_small_depth (k : Draw) {d lfo : Word} (hd : fIn d F_ZERO F_ONE = true) (hl : fIn lfo F_ZERO F_ONE = true)
    (h : fLt d 0x33000000#32 = true) : gain k d lfo = F_ONE := by
  obtain ⟨-, -, hlt⟩ := fLt_iff.1 h
  rw [fVal_twoPowNeg25] at hlt
  obtain ⟨hunit, hle⟩ := fMul_unit k hd hl
  obtain ⟨hf, h0, -⟩ := finite_of_unit hunit
  exact fSub_one_small k hf h0 (by omega)

theorem gain_of_cores (k : Draw) {d lfo m g : Word} (hm : fMulCore d lfo = some m)
    (hg : fAddCore F_ONE (fNeg m) = some g) : gain k d lfo = g := by
  rw [gain, fMul_of_core hm, fSub_of_core hg]

theorem gain_zero (k : Draw) {d : Word} (hd : fIsFinite d = true) : gain k d F_ZERO = F_ONE := by
  have hzero : fIsZero (fMul k d F_ZERO) = true := by
    rw [fMul_zero_right hd (by decide), fIsZero_eq, fCode_fPack]
    simp
  rw [gain, fSub_one_zero hzero]

theorem gain_nan (k : Draw) {d : Word} (lfo : Word) (hd : fIsNaN d = true) : fIsNaN (gain k d lfo) = true :=
  fSub_nan (.inr (fMul_nan (.inl hd)))

/-- Settles O44: the bound is `gain_unit`, and 1.0 absorbs a product below 2^-25. -/
theorem gainBounds : Obligations.GainBounds :=
  ⟨fun _ _ _ => rfl,
    fun k _ _ hd hl => ⟨gain_unit k hd hl, gain_small_depth k hd hl⟩,
    fun k => ⟨gain_of_cores k (m := F_ONE) (by decide +kernel) (by decide +kernel),
      gain_of_cores k (m := 0x3F18F4EF#32) (by decide +kernel) (by decide +kernel)⟩,
    fun k _ => gain_zero k,
    fun k _ lfo => gain_nan k lfo⟩

/-! ## The phase increment (R178) -/

theorem phaseInc_nan (k : Draw) {fs rs : Word} (h : fIsNaN (fDiv k rs fs) = true) : phaseInc k fs rs = INC_MIN := by
  obtain ⟨-, -, -, hge, -⟩ := comparisons_nan (b := INC_MIN) (.inl h)
  simp [phaseInc, hge]

theorem phaseInc_above (k : Draw) {fs rs q : Word} (h : fDivCore rs fs = some q) (hq : fGe q INC_MIN = true) :
    phaseInc k fs rs = q := by
  rw [phaseInc, fDiv_of_core h, if_pos hq]

theorem phaseInc_below (k : Draw) {fs rs q : Word} (h : fDivCore rs fs = some q) (hq : fGe q INC_MIN = false) :
    phaseInc k fs rs = INC_MIN := by
  simp [phaseInc, fDiv_of_core h, hq]

/-- Below 1.0 the next word is at most INC_MIN away, so the rounded sum with an increment is at least that word. -/
theorem fLt_fAdd_increment (k : Draw) {p q : Word} (hp : isPhase p = true) (hq : fGe q INC_MIN = true) :
    fLt p (fAdd k p q) = true := by
  obtain ⟨hpf, hpv, hp1⟩ := isPhase_value hp
  obtain ⟨hqn, -, hqv⟩ := fGe_iff.1 hq
  rw [fVal_incMin] at hqv
  rw [fLt_iff]
  rcases finite_or_inf hqn with hqf | hqi
  · have hcode := isPhase_code hp
    have hnext : fVal (fPack false (fCode p + 1)) = codeMag (fCode p + 1) := by
      rw [fVal_fPack, min_eq_left (by rw [INF_CODE]; omega)]
      rfl
    have hgap := codeMag_gap_le_of_lt_one hcode
    have hsucc := codeMag_lt_succ (fCode p)
    have hsum : fVal (fPack false (fCode p + 1)) ≤ fVal (fAdd k p q) :=
      le_fAdd hpf hqf (fIsNaN_fPack _ _) (by rw [hnext, hpv, fMag]; omega)
    refine ⟨not_nan_of_finite hpf, fAdd_not_nan hpf hqf, ?_⟩
    rw [hnext] at hsum
    rw [hpv, fMag]
    omega
  · have hmag := fMag_inf hqi
    have hval := fVal_eq_fMag (a := q) (by omega)
    rw [fAdd_inf_right hpf hqi]
    exact ⟨not_nan_of_finite hpf, hqn, by omega⟩

/-- What is added to 0.5 is absorbed up to half of the spacing above 0.5, which is 2^-24; the tie goes to 0.5, whose
code is even. -/
theorem fAdd_half_small (k : Draw) {q : Word} (h0 : fLe F_ZERO q = true) (h : fLe q 0x33000000#32 = true) :
    fAdd k F_HALF q = F_HALF := by
  obtain ⟨-, hn, hge⟩ := fLe_iff.1 h0
  obtain ⟨-, -, hle⟩ := fLe_iff.1 h
  rw [fVal_zero] at hge
  have hf := finite_of_le hn hge (by decide) hle
  rw [fVal_twoPowNeg25] at hle
  rw [fAdd_finite (by decide) hf, fVal_half]
  exact fOfInt_of_between _ (lo := 2 ^ 148) (hi := 2 ^ 148 + 2 ^ 124) (by norm_num) (by omega) (by omega) (by decide)
    (by decide) (by decide +kernel) (by decide +kernel)

theorem frac_fAdd_posInf (k : Draw) {p : Word} (hp : isPhase p = true) : frac (fAdd k p 0x7F800000#32) = F_ZERO := by
  obtain ⟨hpf, -, -⟩ := isPhase_value hp
  rw [fAdd_inf_right hpf (by decide)]
  exact frac_not_finite (by decide)

/-- Settles O48: INC_MIN is the largest spacing below 1.0, and half of it is a tie at 0.5. -/
theorem incrementGuaranteesProgress : Obligations.IncrementGuaranteesProgress :=
  ⟨fun k fs rs => ⟨rfl, phaseInc_ge k fs rs, phaseInc_nan k⟩,
    fun k _ _ => fLt_fAdd_increment k,
    by decide +kernel,
    fun k _ => fAdd_half_small k,
    fun k _ => frac_fAdd_posInf k,
    fun k => ⟨fDiv_of_core (by decide +kernel),
      phaseInc_below k (q := 0x32B2F4FD#32) (by decide +kernel) (by decide +kernel),
      phaseInc_above k (by decide +kernel) (by decide +kernel),
      phaseInc_above k (by decide +kernel) (by decide +kernel),
      phaseInc_above k (by decide +kernel) (by decide +kernel)⟩⟩

/-! ## The mixer (R177) -/

/-- The output clamp leaves a NaN or a value in [-1, 1]. -/
theorem clampOut_range (v : Word) : fIsNaN (clampOut v) = true ∨ fIn (clampOut v) F_NEG_ONE F_ONE = true := by
  cases hn : fIsNaN v
  case true => exact .inl (by rw [clampOut_nan hn, hn])
  case false =>
    right
    unfold clampOut
    split
    · decide +kernel
    · next hlo =>
      split
      · decide +kernel
      · next hhi =>
        rw [Bool.not_eq_true, fLt_eq_false_iff] at hlo
        rw [Bool.not_eq_true, fGt, fLt_eq_false_iff] at hhi
        simp only [hn, negOne_not_nan, one_not_nan, Bool.false_eq_true, false_or] at hlo hhi
        exact fIn_iff.2 ⟨hn, negOne_not_nan, one_not_nan, hlo, hhi⟩

theorem clampOut_inf {x : Word} (h : fIsInf x = true) : clampOut x = if fSign x then F_NEG_ONE else F_ONE := by
  rw [eq_fInf h]
  cases fSign x <;> decide +kernel

theorem mix_range (k : Draw) (wet x g : Word) :
    fIsNaN (mix k wet x g) = true ∨ fIn (mix k wet x g) F_NEG_ONE F_ONE = true :=
  clampOut_range _

/-- The mixer's answer is a NaN where its dry or its wet term is one. -/
theorem mix_nan_of_terms (k : Draw) {wet x g : Word}
    (h : fIsNaN (fMul k (fSub k F_ONE wet) x) = true ∨ fIsNaN (fMul k wet (fMul k (fAdd k x EPS_MIX) g)) = true) :
    fIsNaN (mix k wet x g) = true := by
  have hsum := fAdd_nan (k := k) h
  rw [mix, clampOut_nan hsum, hsum]

/-! ### Infinite inputs -/

theorem fMulCore_comm (a b : Word) : fMulCore a b = fMulCore b a := by
  rw [fMulCore, fMulCore, Bool.or_comm (fIsNaN a), Bool.or_comm (fIsInf a), Bool.or_comm (fIsZero a),
    bne_comm (a := fSign a), Nat.mul_comm (fMag a)]

theorem not_zero_of_inf {x : Word} (h : fIsInf x = true) : fIsZero x = false := by
  cases h0 : fIsZero x
  case false => rfl
  case true =>
    rw [not_inf_of_finite (finite_of_zero h0)] at h
    cases h

/-- A value above 0.0 times an infinity is that infinity. -/
theorem fMulCore_pos_inf {a x : Word} (ha : fGt a F_ZERO = true) (hx : fIsInf x = true) :
    fMulCore a x = some x := by
  obtain ⟨hn, h0, hs⟩ := fGt_zero_iff.1 ha
  simp [fMulCore, hn, not_nan_of_inf hx, hx, h0, not_zero_of_inf hx, hs, ← eq_fInf hx]

theorem fMul_pos_inf (k : Draw) {a x : Word} (ha : fGt a F_ZERO = true) (hx : fIsInf x = true) : fMul k a x = x :=
  fMul_of_core (fMulCore_pos_inf ha hx)

theorem fMul_inf_pos (k : Draw) {a x : Word} (ha : fGt a F_ZERO = true) (hx : fIsInf x = true) : fMul k x a = x :=
  fMul_of_core ((fMulCore_comm x a).trans (fMulCore_pos_inf ha hx))

theorem fMul_inf_zero (k : Draw) {x z : Word} (hx : fIsInf x = true) (hz : fIsZero z = true) :
    fIsNaN (fMul k x z) = true :=
  fMul_nan_of_core (by simp [fMulCore, not_nan_of_inf hx, not_nan_of_zero hz, hx, hz])

/-- An infinity times anything is a NaN or an infinity. -/
theorem fMul_inf_not_finite (k : Draw) {x : Word} (hx : fIsInf x = true) (g : Word) :
    fIsNaN (fMul k x g) = true ∨ fIsInf (fMul k x g) = true := by
  cases hn : fIsNaN g
  case true => exact .inl (fMul_nan (.inr hn))
  case false =>
    cases hz : fIsZero g
    case true => exact .inl (fMul_inf_zero k hx hz)
    case false =>
      right
      rw [fMul_of_core (w := fInf (fSign x != fSign g))
        (by simp [fMulCore, not_nan_of_inf hx, hn, hx, not_zero_of_inf hx, hz]), fIsInf_eq, fCode_fInf,
        decide_eq_true rfl]

theorem fAdd_inf_self (k : Draw) {x : Word} (hx : fIsInf x = true) : fAdd k x x = x :=
  fAdd_of_core (by simp [fAddCore, not_nan_of_inf hx, hx])

theorem fGt_zero_fOfInt (z : Bool) {v : Int} (h : 0 < v) : fGt (fOfInt z v) F_ZERO = true := by
  refine fGt_zero_iff.2 ⟨fIsNaN_fOfInt _ _, ?_, by rw [fSign_fOfInt h.ne', decide_eq_false (by omega)]⟩
  cases h0 : fIsZero (fOfInt z v)
  case false => rfl
  case true => exact absurd (fOfInt_isZero h0) h.ne'

/-- Below 1.0 the dry weight 1.0 - WET is above 0.0. -/
theorem fSub_one_pos (k : Draw) {wet : Word} (h0 : fGt wet F_ZERO = true) (h1 : fLt wet F_ONE = true) :
    fGt (fSub k F_ONE wet) F_ZERO = true := by
  obtain ⟨hn, hpos, -⟩ := pos_of_fGt h0
  obtain ⟨-, -, hlt⟩ := fLt_iff.1 h1
  rw [fSub_finite (by decide) (finite_of_le hn hpos.le (by decide) hlt.le)]
  exact fGt_zero_fOfInt _ (by omega)

/-- Both terms are the infinite input. -/
theorem mix_inf (k : Draw) {wet x g : Word} (hx : fIsInf x = true) (h0 : fGt wet F_ZERO = true)
    (h1 : fLt wet F_ONE = true) (hg : fGt g F_ZERO = true) : mix k wet x g = if fSign x then F_NEG_ONE else F_ONE := by
  rw [mix, fMul_pos_inf k (fSub_one_pos k h0 h1) hx, fAdd_inf_left (b := EPS_MIX) hx (by decide),
    fMul_inf_pos k hg hx, fMul_pos_inf k h0 hx, fAdd_inf_self k hx, clampOut_inf hx]

/-- With WET = 0 the wet term is 0 times an infinity or a NaN, with WET = 1 the dry term is 0 times an infinity, and
with gain 0 the product of the input and the gain is. -/
theorem mix_inf_nan (k : Draw) {wet x g : Word} (hx : fIsInf x = true)
    (h : fIsZero wet = true ∨ wet = F_ONE ∨ fIsZero g = true) : fIsNaN (mix k wet x g) = true := by
  apply mix_nan_of_terms
  rw [fAdd_inf_left (b := EPS_MIX) hx (by decide)]
  rcases h with hw | rfl | hg
  · right
    rcases fMul_inf_not_finite k hx g with hn | hi
    · exact fMul_nan (.inr hn)
    · exact fMul_zero_inf hi hw
  · left
    rw [fSub_one_one]
    exact fMul_zero_inf hx (by decide)
  · exact .inr (fMul_nan (.inr (fMul_inf_zero k hx hg)))

/-- The mixer's roundings, where none of them gives a NaN; they do not depend on the choice of NaNs. -/
def mixCore (wet x g : Word) : Option Word := do
  let dry ← fAddCore F_ONE (fNeg wet)
  let t ← fMulCore dry x
  let u ← fAddCore x EPS_MIX
  let v ← fMulCore u g
  let w ← fMulCore wet v
  let r ← fAddCore t w
  return clampOut r

theorem mix_of_core (k : Draw) {wet x g r : Word} (h : mixCore wet x g = some r) : mix k wet x g = r := by
  simp only [mixCore, Option.bind_eq_bind, Option.bind_eq_some_iff, Option.pure_def, Option.some.injEq] at h
  obtain ⟨dry, hdry, t, ht, u, hu, v, hv, w, hw, sum, hsum, rfl⟩ := h
  rw [mix, fSub_of_core hdry, fMul_of_core ht, fAdd_of_core hu, fMul_of_core hv, fMul_of_core hw, fAdd_of_core hsum]

/-- Settles O45: the last step of the mixer is the clamp, which keeps NaNs, and a PROCESS command stores what the mixer
answers. -/
theorem outputsClampedUnlessNaN : Obligations.OutputsClampedUnlessNaN := by
  refine ⟨fun _ _ _ _ => rfl,
    fun k wet x g => ⟨fun hn => mix_nan_of_terms k (.inl (fMul_nan (.inr hn))), mix_inf k, mix_inf_nan k,
      mix_range k wet x g⟩,
    fun k => ⟨mix_of_core k (by decide +kernel), mix_of_core k (by decide +kernel), mix_of_core k (by decide +kernel),
      mix_of_core k (by decide +kernel)⟩,
    fun s t => ⟨fun h => ?_, fun h => ?_⟩⟩
  · rw [exec_cmdProcessMono] at h
    cases h
    exact mix_range ..
  · rw [exec_cmdProcessStereo] at h
    cases h
    exact ⟨mix_range .., mix_range ..⟩

/-! ### WET = 0 (R187 (d)) -/

/-- A factor of magnitude at most 1.0 never overflows. -/
theorem fMul_finite_of_le_one (k : Draw) {a b : Word} (ha : fIsFinite a = true) (hb : fIsFinite b = true)
    (h : fMag b ≤ 2 ^ 149) : fIsFinite (fMul k a b) = true := by
  have hround : roundMag 24 (fMag a * fMag b) (2 ^ 149) ≤ fCode a :=
    roundMag_le (by positivity) (Nat.mul_le_mul_left _ h)
  rw [fMul_finite ha hb]
  apply finite_of_code
  rw [fCode_fPack]
  exact (min_le_left _ _).trans_lt (hround.trans_lt (code_lt_of_finite ha))

/-- A gain from +0.0 to 1.0 is finite. -/
theorem gain_finite_le_one {g : Word} (hs : fSign g = false) (h1 : fLe g F_ONE = true) :
    fIsFinite g = true ∧ fMag g ≤ 2 ^ 149 := by
  obtain ⟨hn, -, hle⟩ := fLe_iff.1 h1
  have hval := fVal_of_pos hs
  rw [fVal_one] at hle
  exact ⟨finite_of_signedUnit hn (by omega) hle, by omega⟩

/-- With WET = +0.0 the dry term is the input, and the wet term is left as 0.0 times a value. -/
theorem mix_zero (k : Draw) {x : Word} (g : Word) (hx : fIsNaN x = false) :
    mix k F_ZERO x g = clampOut (fAdd k x (fMul k F_ZERO (fMul k (fAdd k x EPS_MIX) g))) := by
  rw [mix, fSub_one_zero (by decide), fMul_one_of_not_nan k hx]

theorem mix_zero_finite (k : Draw) {x g : Word} (hs : fSign g = false) (h1 : fLe g F_ONE = true)
    (hx : fIsFinite x = true) (hne : x ≠ 0x80000000#32) : mix k F_ZERO x g = clampOut x := by
  obtain ⟨hgf, hg1⟩ := gain_finite_le_one hs h1
  have hwet := fMul_finite_of_le_one k (fAdd_epsMix_finite (k := k) hx) hgf hg1
  have hsign : fIsZero x = true → fSign x = false := by
    intro h0
    by_contra hc
    rw [fIsZero_eq, decide_eq_true_eq] at h0
    exact hne (word_ext (Bool.not_eq_false _ ▸ hc) h0)
  rw [mix_zero k g (not_nan_of_finite hx),
    fAdd_zero_right_of_not_negZero k (fMul_zero_isZero k (by decide) hwet) (not_nan_of_finite hx) hsign]

/-- The wet term of -0.0 is +0.0, as EPS_MIX is positive, and the sum of zeros of both signs is +0.0. -/
theorem mix_zero_negZero (k : Draw) {g : Word} (hs : fSign g = false) (h1 : fLe g F_ONE = true) :
    mix k F_ZERO 0x80000000#32 g = F_ZERO := by
  obtain ⟨hgf, hg1⟩ := gain_finite_le_one hs h1
  have hlift : fAdd k 0x80000000#32 EPS_MIX = EPS_MIX := fAdd_of_core (by decide +kernel)
  have hsign : fSign (fMul k EPS_MIX g) = false := by
    rw [fMul_finite (by decide) hgf, fSign_fPack, hs]
    decide
  have hwet : fMul k F_ZERO (fMul k EPS_MIX g) = F_ZERO := by
    rw [fMul_zero_left (fMul_finite_of_le_one k (by decide) hgf hg1) (by decide), hsign]
    decide
  rw [mix_zero k g (by decide), hlift, hwet, fAdd_of_core (w := F_ZERO) (by decide)]
  decide

/-- Settles O46: the wet term is a zero, which the sum keeps out unless the input is -0.0. -/
theorem wetZeroPassesTheInput : Obligations.WetZeroPassesTheInput := fun k _ _ hs h1 =>
  ⟨mix_zero_finite k hs h1, mix_zero_negZero k hs h1, fun hx => mix_inf_nan k hx (.inl (by decide))⟩

/-! ### WET = 1 and gain 1 (R187 (c)) -/

theorem fAdd_comm_of_finite (k : Draw) {a b : Word} (ha : fIsFinite a = true) (hb : fIsFinite b = true) :
    fAdd k a b = fAdd k b a := by
  rw [fAdd_finite ha hb, fAdd_finite hb ha, Bool.and_comm, Int.add_comm]

/-- The dry term is a zero and the products with 1.0 are exact. -/
theorem mix_one_one (k : Draw) {x : Word} (hx : fIsFinite x = true) :
    mix k F_ONE x F_ONE = clampOut (fAdd k x EPS_MIX) := by
  have hlift := fAdd_epsMix_finite (k := k) hx
  have hdry := fMul_zero_isZero k (z := F_ZERO) (by decide) hx
  rw [mix, fSub_one_one, fMul_one_right hlift, fMul_one_left hlift, fAdd_comm_of_finite k (finite_of_zero hdry) hlift]
  exact congrArg clampOut (fAdd_zero_right_of_not_negZero k hdry (not_nan_of_finite hlift)
    (fAdd_eps_not_negZero k (not_nan_of_finite hx)))

/-- From 2^-41 on neighbouring magnitudes are at least 2^84 units apart, so what lies within less than half of that of
one rounds to it. -/
theorem roundMag_absorb {n c : Nat} (hc : 2 ^ 108 ≤ codeMag c) (h : |(n : Int) - codeMag c| < 2 ^ 83) :
    roundMag 24 n 1 = c := by
  rw [show 2 ^ 108 = codeMag (86 * 2 ^ 23) by decide +kernel, codeMag_le] at hc
  by_contra hne
  obtain ⟨hnear, -⟩ := roundMag_nearest (n := n) (d := 1) (by decide) (Ne.symm hne)
  rw [Nat.mul_one, Nat.mul_one] at hnear
  have hdist : |(codeMag (roundMag 24 n 1) : Int) - codeMag c| < 2 ^ 84 := by
    have htri := abs_sub_le (codeMag (roundMag 24 n 1) : Int) n (codeMag c)
    rw [abs_sub_comm (codeMag (roundMag 24 n 1) : Int) n] at htri
    linarith
  rw [abs_lt] at hdist
  rcases lt_or_gt_of_ne hne with hlt | hgt
  · have hgap := codeMag_gap_ge (c := c - 1) (e := 85) (by omega) (by omega)
    have hle : codeMag (roundMag 24 n 1) ≤ codeMag (c - 1) := codeMag_le.2 (by omega)
    rw [Nat.sub_add_cancel (by omega)] at hgap
    omega
  · have hgap := codeMag_gap_ge (c := c) (e := 85) (by omega) (by omega)
    have hle : codeMag (c + 1) ≤ codeMag (roundMag 24 n 1) := codeMag_le.2 hgt
    omega

/-- EPS_MIX is absorbed by every finite value from 2^-41 on. -/
theorem fAdd_epsMix_absorbed (k : Draw) {x : Word} (hx : fIsFinite x = true) (h : 2 ^ 108 ≤ fMag x) :
    fAdd k x EPS_MIX = x := by
  obtain ⟨heps, heps0⟩ := fVal_epsMix
  have hmag := natAbs_fVal x
  have hround : roundMag 24 (fVal x + fVal EPS_MIX).natAbs 1 = fCode x :=
    roundMag_absorb h (by rw [abs_lt]; rw [fMag] at hmag; omega)
  rw [fAdd_finite hx (by decide)]
  apply word_ext
  · rw [fSign_fOfInt (by omega)]
    cases hs : fSign x
    · have := fVal_of_pos hs
      simp; omega
    · have := fVal_of_neg hs
      simp; omega
  · rw [fCode_fOfInt, hround, min_eq_left (code_lt_of_finite hx).le]

/-- Settles O47: one sum is left of the mixer, and half of the spacing from 2^-41 on is above EPS_MIX. -/
theorem wetOneUnitGainAddsEpsilonOnly : Obligations.WetOneUnitGainAddsEpsilonOnly := fun k _ hx =>
  ⟨mix_one_one k hx, fun h => by rw [mix_one_one k hx, fAdd_epsMix_absorbed k hx h]⟩

end Sys2Proof.Machine
end

section
/-! PROOFS for 44_host_sequences.md (R202 to R207): what each of the host's transactions answers, the buffer loop, the
feature and control loop, shape names and tempo sync. -/

namespace Sys2Proof.Machine

/-! ## The host's transactions, one register or command each -/

@[simp] theorem hostWrite_dataL (v : Word) (s : State) :
    hostWrite .dataL v s = .next { s with dataL := v, resp := .okay, rdata := 0#32 } :=
  hostWrite_eq (i := .wrDataL v) rfl rfl s

@[simp] theorem hostWrite_dataR (v : Word) (s : State) :
    hostWrite .dataR v s = .next { s with dataR := v, resp := .okay, rdata := 0#32 } :=
  hostWrite_eq (i := .wrDataR v) rfl rfl s

@[simp] theorem hostWrite_rate (v : Word) (s : State) :
    hostWrite .rate v s = .next { s with rateT := rateFloor v, resp := .okay, rdata := 0#32 } :=
  hostWrite_eq (i := .wrRate v) rfl rfl s

@[simp] theorem hostWrite_depth (v : Word) (s : State) :
    hostWrite .depth v s = .next { s with depthT := clampD v F_ZERO F_ONE, resp := .okay, rdata := 0#32 } :=
  hostWrite_eq (i := .wrDepth v) rfl rfl s

@[simp] theorem hostRead_dataL (s : State) :
    hostRead .dataL s = .next ({ s with resp := .okay, rdata := s.dataL }, s.dataL) :=
  hostRead_eq (i := .rdDataL) rfl rfl s

@[simp] theorem hostRead_dataR (s : State) :
    hostRead .dataR s = .next ({ s with resp := .okay, rdata := s.dataR }, s.dataR) :=
  hostRead_eq (i := .rdDataR) rfl rfl s

@[simp] theorem hostRead_rms (s : State) :
    hostRead .rms s = .next ({ s with resp := .okay, rdata := rmsOf s.win }, rmsOf s.win) :=
  hostRead_eq (i := .rdRms) rfl rfl s

@[simp] theorem hostRead_zcr (s : State) :
    hostRead .zcr s = .next ({ s with resp := .okay, rdata := zcrOf s.win }, zcrOf s.win) :=
  hostRead_eq (i := .rdZcr) rfl rfl s

@[simp] theorem hostRead_rate (s : State) :
    hostRead .rate s = .next ({ s with resp := .okay, rdata := s.rateT }, s.rateT) :=
  hostRead_eq (i := .rdRate) rfl rfl s

@[simp] theorem hostRead_depth (s : State) :
    hostRead .depth s = .next ({ s with resp := .okay, rdata := s.depthT }, s.depthT) :=
  hostRead_eq (i := .rdDepth) rfl rfl s

@[simp] theorem hostRead_status (s : State) :
    hostRead .status s = .next ({ s with resp := .okay, rdata := statusWord s }, statusWord s) :=
  hostRead_eq (i := .rdStatus) rfl rfl s

@[simp] theorem hostCommand_processMono (s : State) : hostCommand .processMono s = exec .cmdProcessMono s :=
  hostCommand_eq (by decide) s

@[simp] theorem hostCommand_processStereo (s : State) : hostCommand .processStereo s = exec .cmdProcessStereo s :=
  hostCommand_eq (by decide) s

@[simp] theorem hostCommand_featPush (s : State) : hostCommand .featPush s = exec .cmdFeatPush s :=
  hostCommand_eq (by decide) s

@[simp] theorem hostCommand_featReset (s : State) : hostCommand .featReset s = exec .cmdFeatReset s :=
  hostCommand_eq (by decide) s

/-! ## One frame through the data registers (R202) -/

theorem resp_of_exec {i : Instr} {s t : State} (h : exec i s = .next t) : t.resp = .okay := by
  obtain ⟨t', ht, hokay, -⟩ := exec_next i s
  obtain rfl : t = t' := by simpa [h] using ht
  exact hokay

/-- The one PROCESS command decides what PROCESS_FRAME_MONO answers; the read after it changes rdata alone. -/
theorem hostProcessFrameMono_of_exec {x : Word} {s t : State}
    (h : exec .cmdProcessMono { s with dataL := x, resp := .okay, rdata := 0#32 } = .next t) :
    hostProcessFrameMono x s = .next ({ t with rdata := t.dataL }, t.dataL) := by
  simp [hostProcessFrameMono, h, resp_of_exec h]

theorem hostProcessFrameStereo_of_exec {l r : Word} {s t : State}
    (h : exec .cmdProcessStereo { s with dataL := l, dataR := r, resp := .okay, rdata := 0#32 } = .next t) :
    hostProcessFrameStereo l r s = .next ({ t with rdata := t.dataR }, t.dataL, t.dataR) := by
  simp [hostProcessFrameStereo, h, resp_of_exec h]

theorem hostProcessFrameMono_completes (x : Word) (s : State) : ∃ t y, hostProcessFrameMono x s = .next (t, y) :=
  ⟨_, _, hostProcessFrameMono_of_exec (exec_cmdProcessMono _)⟩

theorem hostProcessFrameStereo_completes (l r : Word) (s : State) :
    ∃ t y z, hostProcessFrameStereo l r s = .next (t, y, z) :=
  ⟨_, _, _, hostProcessFrameStereo_of_exec (exec_cmdProcessStereo _)⟩

/-! ## The loops over frames -/

theorem hostProcessMono_cons {n : Nat} {x y : Word} {rest out : List Word} {s t u : State}
    (hx : hostProcessFrameMono x s = .next (t, y)) (hrest : hostProcessMono n rest t = .next (u, out)) :
    hostProcessMono (n + 1) (x :: rest) s = .next (u, y :: out) := by
  simp [hostProcessMono, hx, hrest]

/-- A frame, and then the loop on what is left after the channels from the third on, which stay as they are. -/
theorem hostProcessStereo_cons {ch n : Nat} {l r y z : Word} {rest out : List Word} {s t u : State}
    (hlr : hostProcessFrameStereo l r s = .next (t, y, z))
    (hrest : hostProcessStereo ch n (rest.drop (ch - 2)) t = .next (u, out)) :
    hostProcessStereo ch (n + 1) (l :: r :: rest) s = .next (u, y :: z :: (rest.take (ch - 2) ++ out)) := by
  simp [hostProcessStereo, hlr, hrest]

/-- The mono loop completes on every buffer and keeps its length, by its own recursion. -/
theorem hostProcessMono_completes (n : Nat) (b : List Word) (s : State) :
    ∃ u out, hostProcessMono n b s = .next (u, out) ∧ out.length = b.length := by
  induction n generalizing b s with
  | zero => exact ⟨s, b, rfl, rfl⟩
  | succ n ih =>
    match b with
    | [] => exact ⟨s, [], rfl, rfl⟩
    | x :: rest =>
      obtain ⟨t, y, hx⟩ := hostProcessFrameMono_completes x s
      obtain ⟨u, out, hrest, hlen⟩ := ih rest t
      exact ⟨u, y :: out, hostProcessMono_cons hx hrest, by simp [hlen]⟩

/-- The loop over two channels or more completes on every buffer, one too short included, and keeps its length. -/
theorem hostProcessStereo_completes (ch n : Nat) (b : List Word) (s : State) :
    ∃ u out, hostProcessStereo ch n b s = .next (u, out) ∧ out.length = b.length := by
  induction n generalizing b s with
  | zero => exact ⟨s, b, rfl, rfl⟩
  | succ n ih =>
    match b with
    | [] => exact ⟨s, [], rfl, rfl⟩
    | [x] => exact ⟨s, [x], rfl, rfl⟩
    | l :: r :: rest =>
      obtain ⟨t, y, z, hlr⟩ := hostProcessFrameStereo_completes l r s
      obtain ⟨u, out, hrest, hlen⟩ := ih (rest.drop (ch - 2)) t
      refine ⟨u, _, hostProcessStereo_cons hlr hrest, ?_⟩
      simp only [List.length_cons, List.length_append, List.length_take, List.length_drop, hlen]
      omega

/-! ## PROCESS_BUFFER (R202) -/

theorem hostProcessBuffer_noop (m : HostMultichannel) {buf : Option (List Word)} (frames : Nat) {ch : Int} (s : State)
    (h : buf = none ∨ ch < 1) : hostProcessBuffer m buf frames ch s = .next (s, buf) := by
  cases buf with
  | none => rfl
  | some b => simp [hostProcessBuffer, h.resolve_left nofun]

theorem hostProcessBuffer_refuse (b : List Word) (frames : Nat) {ch : Int} (s : State) (h : 2 < ch) :
    hostProcessBuffer .refuse (some b) frames ch s = .next (s, some b) := by
  simp [hostProcessBuffer, h, show ¬ch < 1 by omega, show ch ≠ 1 by omega]

/-- One channel: the call answers exactly what the mono loop does. -/
theorem hostProcessBuffer_mono_iff {m : HostMultichannel} {n : Nat} {b out : List Word} {s u : State} :
    hostProcessBuffer m (some b) n 1 s = .next (u, some out) ↔ hostProcessMono n b s = .next (u, out) := by
  obtain ⟨u', out', hloop, -⟩ := hostProcessMono_completes n b s
  simp [hostProcessBuffer, hloop]

/-- Two channels, or more under STEREO_FIRST_TWO: the call answers exactly what the stereo loop does. -/
theorem hostProcessBuffer_stereo_iff {m : HostMultichannel} {n ch : Nat} {b out : List Word} {s u : State}
    (h : ch = 2 ∨ (2 < ch ∧ m = .stereoFirstTwo)) :
    hostProcessBuffer m (some b) n ch s = .next (u, some out) ↔ hostProcessStereo ch n b s = .next (u, out) := by
  obtain ⟨u', out', hloop, -⟩ := hostProcessStereo_completes ch n b s
  have hmulti : ¬(2 < ch ∧ m = .refuse) := by
    rintro ⟨hch, rfl⟩
    rcases h with rfl | ⟨-, hrefuse⟩
    · exact absurd hch (by decide)
    · cases hrefuse
  simp [hostProcessBuffer, hloop, hmulti, show ¬(ch : Int) < 1 by omega, show ch ≠ 1 by omega]

/-- The call is one of its no-ops, the mono loop, or the loop over two channels or more. -/
theorem hostProcessBuffer_cases (m : HostMultichannel) (b : List Word) (ch : Int) :
    (∀ frames s, hostProcessBuffer m (some b) frames ch s = .next (s, some b)) ∨ ch = 1 ∨
      ∃ k : Nat, ch = k ∧ (k = 2 ∨ (2 < k ∧ m = .stereoFirstTwo)) := by
  rcases lt_trichotomy ch 1 with hlow | hone | hhigh
  · exact .inl fun frames s => hostProcessBuffer_noop m frames s (.inr hlow)
  · exact .inr (.inl hone)
  · rcases eq_or_lt_of_le (show 2 ≤ ch by omega) with htwo | hmany
    · exact .inr (.inr ⟨2, htwo.symm, .inl rfl⟩)
    · cases m with
      | refuse => exact .inl fun frames s => hostProcessBuffer_refuse b frames s hmany
      | stereoFirstTwo => exact .inr (.inr ⟨ch.toNat, by omega, .inr ⟨by omega, rfl⟩⟩)

theorem hostProcessBuffer_zero_frames (m : HostMultichannel) (b : List Word) (ch : Int) (s : State) :
    hostProcessBuffer m (some b) 0 ch s = .next (s, some b) := by
  rcases hostProcessBuffer_cases m b ch with hnoop | rfl | ⟨k, rfl, hk⟩
  · exact hnoop 0 s
  · exact hostProcessBuffer_mono_iff.2 rfl
  · exact (hostProcessBuffer_stereo_iff hk).2 rfl

theorem hostProcessBuffer_completes (m : HostMultichannel) (buf : Option (List Word)) (frames : Nat) (ch : Int)
    (s : State) :
    ∃ u out, hostProcessBuffer m buf frames ch s = .next (u, out) ∧ out.map List.length = buf.map List.length := by
  cases buf with
  | none => exact ⟨s, none, rfl, rfl⟩
  | some b =>
    rcases hostProcessBuffer_cases m b ch with hnoop | rfl | ⟨k, rfl, hk⟩
    · exact ⟨s, some b, hnoop frames s, rfl⟩
    · obtain ⟨u, out, hloop, hlen⟩ := hostProcessMono_completes frames b s
      exact ⟨u, some out, hostProcessBuffer_mono_iff.2 hloop, by simp [hlen]⟩
    · obtain ⟨u, out, hloop, hlen⟩ := hostProcessStereo_completes k frames b s
      exact ⟨u, some out, (hostProcessBuffer_stereo_iff hk).2 hloop, by simp [hlen]⟩

/-- Settles O56: the call is a no-op or one of the two loops, and each loop takes a frame and then the rest. -/
theorem bufferFramesGoThroughTheDataRegisters : Obligations.BufferFramesGoThroughTheDataRegisters := by
  refine ⟨fun m _ frames _ s => hostProcessBuffer_noop m frames s, hostProcessBuffer_zero_frames,
    fun b frames _ s => hostProcessBuffer_refuse b frames s,
    fun _ _ => ⟨_, exec_cmdProcessMono _, hostProcessFrameMono_of_exec (exec_cmdProcessMono _)⟩,
    fun _ _ _ => ⟨_, exec_cmdProcessStereo _, hostProcessFrameStereo_of_exec (exec_cmdProcessStereo _)⟩,
    ?mono, ?stereo, hostProcessBuffer_completes⟩
  case mono =>
    intro m n x y rest out s t u hx hrest
    exact hostProcessBuffer_mono_iff.2 (hostProcessMono_cons hx (hostProcessBuffer_mono_iff.1 hrest))
  case stereo =>
    intro m n ch l r y z others rest out s t u hch hothers hlr hrest
    rw [hostProcessBuffer_stereo_iff hch] at hrest ⊢
    have hdrop : (others ++ rest).drop (ch - 2) = rest := List.drop_left' hothers
    have htake : (others ++ rest).take (ch - 2) = others := List.take_left' hothers
    rw [hostProcessStereo_cons hlr (hdrop.symm ▸ hrest), htake]

/-! ## The control step (R203 to R205) -/

/-- CONTROL_FRAME whole: the Controller sees the two measures and the two parameters, and its answers are stored through
the setters' floor and clamp. -/
theorem hostControlFrame_eq (c : Controller) (t : BitVec 64) (s : State) :
    hostControlFrame c t s = .next
      { s with
        rateT := rateFloor (c t (rmsOf s.win) (zcrOf s.win) s.rateT s.depthT).1
        depthT := clampD (c t (rmsOf s.win) (zcrOf s.win) s.rateT s.depthT).2 F_ZERO F_ONE
        win := []
        resp := .okay
        rdata := 0#32 } := by
  simp [hostControlFrame, exec_cmdFeatReset]

theorem rateFloor_not_nan (v : Word) : fIsNaN (rateFloor v) = false :=
  (fGe_iff.1 (rateFloor_ge v)).1

theorem clampD_unit_not_nan (v : Word) : fIsNaN (clampD v F_ZERO F_ONE) = false :=
  (fIn_unit_iff.1 (clampD_unit v)).1

theorem rateFloor_of_legal {v : Word} (h : fGe v RATE_MIN = true) : rateFloor v = v := by
  simp [rateFloor, h]

theorem clampD_unit_of_legal {v : Word} (h : fIn v F_ZERO F_ONE = true) : clampD v F_ZERO F_ONE = v := by
  obtain ⟨hlo, hhi⟩ : fLe F_ZERO v = true ∧ fLe v F_ONE = true := by simpa [fIn] using h
  exact clampD_inside hlo hhi

/-- Legal parameters pass the floor and the clamp bit for bit, so the default Controller only empties the window. -/
theorem noController_keeps_elements (t : BitVec 64) {s : State} (hrate : fGe s.rateT RATE_MIN = true)
    (hdepth : fIn s.depthT F_ZERO F_ONE = true) :
    ∃ u, hostControlFrame noController t s = .next u ∧ SameElements { s with win := [] } u := by
  refine ⟨_, hostControlFrame_eq noController t s, ?_⟩
  simp [SameElements, noController, rateFloor_of_legal hrate, clampD_unit_of_legal hdepth]

/-! ## PUSH_FRAME (R203) -/

/-- The block after PUSH_FRAME's two writes and its push, but for the port's answer to the STATUS read. -/
def State.pushedFrame (l r : Word) (s : State) : State :=
  { s with
    dataL := l
    dataR := r
    win := winPush s.win (mid (some s.nanDraw) l r)
    nanDraw := s.nanDraw + 1
    resp := .okay }

/-- STATUS reads 1 exactly where the push left 1024 samples, and then the control step follows. -/
theorem hostPushFrame_eq (c : Controller) (t : BitVec 64) (l r : Word) (s : State) :
    hostPushFrame c t l r s =
      if (s.pushedFrame l r).win.length = 1024 then hostControlFrame c t { s.pushedFrame l r with rdata := 1#32 }
      else .next { s.pushedFrame l r with rdata := 0#32 } := by
  simp only [hostPushFrame, hostWrite_dataL, hostWrite_dataR, hostCommand_featPush, exec_cmdFeatPush, hostRead_status,
    andThen_next, statusWord_eq, State.draw, State.pushedFrame]
  by_cases hfull : (winPush s.win (mid (some s.nanDraw) l r)).length = 1024
  · simp [hfull]
  · simp [hfull]

theorem pushedFrame_full_iff (l r : Word) {s : State} (h : s.win.length ≤ 1024) :
    (s.pushedFrame l r).win.length = 1024 ↔ 1023 ≤ s.win.length := by
  have hlen : (s.pushedFrame l r).win.length = min (s.win.length + 1) 1024 := winPush_length_of_le _ h
  omega

/-- Settles O57: the Controller's values are stored through the setters, and the push decides the control step. -/
theorem controllerValuesAreClamped : Obligations.ControllerValuesAreClamped := by
  refine ⟨?clamped, fun t _ => noController_keeps_elements t, ?push⟩
  case clamped =>
    intro c t s
    exact ⟨_, hostControlFrame_eq c t s, rfl, rfl, rateFloor_not_nan _, clampD_unit_not_nan _,
      rfl, rfl, rfl, rfl, rfl, rfl, rfl, rfl, rfl, rfl⟩
  case push =>
    intro c t l r s hlen
    have hfull := pushedFrame_full_iff l r hlen
    constructor
    · intro hroom
      rw [hostPushFrame_eq, if_neg (by omega)]
      rfl
    · intro hlast
      rw [hostPushFrame_eq, if_pos (hfull.2 hlast)]
      rfl

/-! ## Shape names (R206) -/

theorem asciiLower_eq_toLower (c : Char) : asciiLower c = c.toLower := by
  have hupper : (65 ≤ c.toNat ∧ c.toNat ≤ 90) ↔ c.isUpper := by
    simp [Char.isUpper, UInt32.le_iff_toNat_le]
  by_cases h : c.isUpper
  · rw [asciiLower, if_pos (hupper.2 h), Char.toLower_eq_of_isUpper h]
  · rw [asciiLower, if_neg (mt hupper.1 h), Char.toLower_eq_of_not_isUpper h]

/-- The parser sees a name only in lower case. -/
theorem parseShape_map_asciiLower (name : List Char) : parseShape (name.map asciiLower) = parseShape name := by
  have hname : (name.map asciiLower).map asciiLower = name.map asciiLower := by simp [asciiLower_eq_toLower]
  simp only [parseShape, hname]

theorem writeOp_shapeWord (sh : Shape) : writeOp .shape (shapeWord sh) = .op (.wrShape sh) := by
  rw [writeOp, shapeWord, shapeOfData_code]

theorem hostSetShapeName_eq (name : List Char) (s : State) :
    hostSetShapeName name s = exec (.wrShape (parseShape name)) s :=
  hostWrite_eq (writeOp_shapeWord _) rfl s

/-! ## Tempo sync (R207) -/

theorem hostTempoSync_some (neg : Bool) (num den : Nat) (d : NoteDivision) (s : State) :
    hostTempoSync neg num den (some d) s = exec (.wrRate (tempoRate neg num den d)) s :=
  hostWrite_eq (r := .rate) rfl rfl s

/-- A BPM of 0 or below gives a zero or a negative Hz, below the floor. -/
theorem rateFloor_tempoRate_nonpos {neg : Bool} {num : Nat} (den : Nat) (d : NoteDivision)
    (h : neg = true ∨ num = 0) : rateFloor (tempoRate neg num den d) = RATE_MIN := by
  apply rateFloor_below
  apply fGe_rateMin_eq_false
  rcases h with rfl | rfl
  · exact .inr (.inr (fSign_fPack true _))
  · exact .inr (.inl (by simp [tempoRate, fOfRat, fIsZero_eq]))

theorem NoteDivision.quarterBeats_pos (d : NoteDivision) : 0 < d.quarterBeats := by
  cases d <;> decide

theorem roundsTo_tempoRate (neg : Bool) (num : Nat) {den : Nat} (d : NoteDivision) (h : 0 < den) :
    RoundsTo (tempoRate neg num den d) (if neg then -(4 * num * 2 ^ 149 : Int) else 4 * num * 2 ^ 149)
      (60 * den * d.quarterBeats) := by
  have hden : 0 < 60 * den * d.quarterBeats := Nat.mul_pos (Nat.mul_pos (by decide) h) d.quarterBeats_pos
  simpa [tempoRate] using roundsTo_fOfRat neg (4 * num) hden

/-- Settles O58: the folding of case is idempotent, a division's write is decoded to the RATE write, and Hz is rounded
once. -/
theorem shapeNamesAndTempo : Obligations.ShapeNamesAndTempo := by
  refine ⟨parseShape_map_asciiLower, by decide +kernel, by decide +kernel, by decide +kernel, by decide +kernel,
    by decide +kernel, hostSetShapeName_eq,
    fun neg num den s => ⟨rfl, fun d => hostTempoSync_some neg num den d s⟩, ?nonpos,
    fun neg num den d => roundsTo_tempoRate neg num d, by decide +kernel⟩
  case nonpos =>
    intro neg num den d s h
    exact ⟨_, hostTempoSync_some neg num den d s, rateFloor_tempoRate_nonpos den d h⟩

end Sys2Proof.Machine
end

section
/-! PROOFS for 60_exceptions.md (R221 to R224, R226): the three error responses as whole next states, and that every
operation and every step completes. -/

namespace Sys2Proof.Machine

/-! ## ERR_UNMAPPED (R222) -/

/-- An address that is misaligned, 0x3C or from 0x50 on is no register's. -/
theorem decode_no_reg {t : TWord}
    (h : t.fields.addr.toNat % 4 ≠ 0 ∨ t.fields.addr = 0x3C#8 ∨ 0x50 ≤ t.fields.addr.toNat) :
    decode t = .err .unmapped := by
  refine (decodeTransaction_cases t.fields).resolve_right fun hr => ?_
  obtain ⟨haligned, hhole, hlow⟩ := exists_reg_addr.1 hr
  obtain h | h | h := h
  · exact h haligned
  · exact hhole h
  · omega

/-- Settles O5: no register has such an address, and an error response writes the port's answer alone. -/
theorem unmappedAddressIsRefusedWithoutEffect : Obligations.UnmappedAddressIsRefusedWithoutEffect :=
  ⟨fun _ _ _ hp h => step_err hp (decode_no_reg h), rfl, rfl, by decide, rfl, by decide, rfl⟩

/-! ## ERR_ACCESS (R223) -/

/-- The read-only registers of 10_state.md R37. -/
theorem access_ro_iff (r : Reg) : (r.access == .ro) = true ↔
    r ∈ [Reg.id, .status, .featCount, .stereoOfs, .phase, .rateSm, .depthSm, .smoothCoef, .rms, .zcr] := by
  cases r <;> decide

/-- The write-only registers of 10_state.md R37. -/
theorem access_wo_iff (r : Reg) : (r.access == .wo) = true ↔ r ∈ [Reg.cmd, .stereoDeg] := by
  cases r <;> decide

theorem decode_wrong_access {t : TWord} {r : Reg} (hr : t.fields.addr = r.addr)
    (h : (t.fields.write = true ∧ (r.access == .ro) = true) ∨ (t.fields.write = false ∧ (r.access == .wo) = true)) :
    decode t = .err .access := by
  rw [decode_of_addr hr]
  obtain ⟨hw, ha⟩ | ⟨hw, ha⟩ := h <;> simp [hw, ha]

/-- Settles O6: the decoder's tests of W are on the access types that the ten and the two registers have. -/
theorem wrongAccessIsRefusedWithoutEffect : Obligations.WrongAccessIsRefusedWithoutEffect := by
  refine ⟨fun s t rest r hp hr h => step_err hp (decode_wrong_access hr ?_), rfl, by decide, by decide⟩
  rwa [access_ro_iff, access_wo_iff]

/-! ## ERR_CMD (R224) -/

/-- A command word with DATA[31:4] not 0 or DATA[3:0] from 5 on is past the last code as a number (R72, R77). -/
theorem toNat_of_reserved {d : Word} (h : d.extractLsb' 4 28 ≠ 0#28 ∨ 5 ≤ (d.extractLsb' 0 4).toNat) :
    4 < d.toNat := by
  by_contra hle
  obtain h | h := h
  · refine h (BitVec.eq_of_toNat_eq ?_)
    rw [BitVec.extractLsb'_toNat, Nat.shiftRight_eq_div_pow, Nat.div_eq_of_lt (by omega)]
    rfl
  · rw [BitVec.extractLsb'_toNat, Nat.shiftRight_zero] at h
    omega

theorem decode_reserved {t : TWord} (hw : t.fields.write = true) (ha : t.fields.addr = Reg.cmd.addr)
    (h : t.fields.data.extractLsb' 4 28 ≠ 0#28 ∨ 5 ≤ (t.fields.data.extractLsb' 0 4).toNat) :
    decode t = .err .cmd := by
  have hdecode : decode t = commandOp t.fields.data := by
    rw [decode_of_addr ha, hw]
    rfl
  rw [hdecode]
  exact (commandOp_err _).1.2 (toNat_of_reserved h)

/-- R79's check on commands fails only at a write to CMD. -/
theorem write_cmd_of_not_commandDefined {t : Transaction} (h : t.commandDefined = false) :
    t.write = true ∧ t.addr = Reg.cmd.addr := by
  obtain ⟨hcmd, -⟩ := Bool.or_eq_false_iff.1 h
  rw [Bool.not_eq_false', Bool.and_eq_true, beq_iff_eq] at hcmd
  exact hcmd

/-- Settles O7: a reserved word is past the last code; in the priority of the causes ERR_CMD stands where R79's check on
commands fails. -/
theorem reservedCommandIsRefusedWithoutEffect : Obligations.ReservedCommandIsRefusedWithoutEffect := by
  refine ⟨fun s t rest hp hw ha h => step_err hp (decode_reserved hw ha h), fun t h => ?_, rfl, by decide, by decide⟩
  obtain ⟨-, -, hcmd⟩ := errorCausesByPriority t
  exact write_cmd_of_not_commandDefined (hcmd.1 h).2

/-! ## Completion (R221, R226) -/

/-- Every operation but a read ends with the write's response. -/
theorem exec_write {i : Instr} (h : i.isRead = false) (s : State) : ∃ u, exec i s = respondWrite u := by
  cases i <;> cases h <;> exact ⟨_, rfl⟩

theorem rdata_of_exec_write {i : Instr} {s t : State} (h : i.isRead = false) (ht : exec i s = .next t) :
    t.rdata = 0#32 := by
  obtain ⟨u, hu⟩ := exec_write h s
  rw [hu] at ht
  cases ht
  rfl

/-- Settles O11: an operation ends with the read's response or the write's, and a step takes one whole event. -/
theorem everyOperationCompletes : Obligations.EveryOperationCompletes := by
  refine ⟨fun i s => ?_, rfl, step_next⟩
  obtain ⟨t, ht, hresp, hpending⟩ := exec_next i s
  exact ⟨t, ht, hresp, hpending, fun h => rdata_of_exec_write h ht⟩

end Sys2Proof.Machine
end

section
/-! PROOFS for 70_reset_and_hazards.md (R241, R242, R252): the boot sequence, the reset input and the idle port, and the
reset values. -/

namespace Sys2Proof.Machine

/-! ## The boot sequence (R242) -/

/-- A listing that begins with a write goes on from the state with which the write's operation answers. -/
theorem hostRun_wr {r : Reg} {v : AsmValue} {i : Instr} {s u : State} (hr : writeOp r (asmPattern v) = .op i)
    (ha : (r.access == .ro) = false) (h : exec i s = .next u) (rest : List AsmLine) :
    hostRun (.wr r v :: rest) s = hostRun rest u := by
  rw [hostRun, transact_wr hr ha, h, andThen_next]

/-- The whole state after boot. SAMPLE_RATE comes last, so the smoothers are seeded from the rate and the depth just
written, as the setters have floored and clamped them. -/
theorem hostRun_bootLines (rate depth wet degrees : Word) (sh : Shape) (fs : Nat) (s : State) :
    hostRun (bootLines rate depth wet degrees sh fs) s = .next
      { s with
        fs := positiveOrDefault (fOfNat fs)
        rateT := rateFloor rate
        depthT := clampD depth F_ZERO F_ONE
        wet := clampD wet F_ZERO F_ONE
        ofs := offsetOfDegrees degrees
        shape := sh
        smR := ⟨rateFloor rate, TAU, positiveOrDefault (fOfNat fs), smCoef TAU (positiveOrDefault (fOfNat fs))⟩
        smD := ⟨clampD depth F_ZERO F_ONE, TAU, positiveOrDefault (fOfNat fs),
          smCoef TAU (positiveOrDefault (fOfNat fs))⟩
        resp := .okay
        rdata := 0#32 } := by
  simp only [bootLines, List.cons_append, List.nil_append]
  rw [hostRun_wr (i := .wrRate rate) rfl rfl rfl, hostRun_wr (i := .wrDepth depth) rfl rfl rfl,
    hostRun_wr (i := .wrWet wet) rfl rfl rfl, hostRun_wr (i := .wrStereoDeg degrees) rfl rfl rfl,
    hostRun_wr (writeOp_shapeWord sh) rfl rfl,
    hostRun_wr (i := .wrSampleRate (fOfNat fs)) rfl rfl (exec_wrSampleRate _ _)]
  rfl

/-- Settles O59: each parameter is stored by its own setter, and the re-seeding that comes last reads the two targets. -/
theorem bootSeedsTheSmoothers : Obligations.BootSeedsTheSmoothers := by
  intro rate depth wet degrees sh fs s
  exact ⟨_, hostRun_bootLines rate depth wet degrees sh fs s, rfl, rfl, rfl, rfl, rfl, rfl, rfl, rfl, rfl, rfl, rfl,
    rfl, rfl, rfl⟩

/-! ## The reset input and the idle port (R241, R252) -/

theorem step_rst {s : State} {rest : List PortEvent} (h : s.pending = .rst :: rest) :
    step s = .next (assertReset { s with pending := rest }) := by
  simp [step, portStep, h, accept]

theorem step_idle {s : State} (h : s.pending = []) : step s = .next s := by
  simp [step, portStep, h]

/-- Settles O9: the one event taken is `rst`, or there is none to take. -/
theorem resetInputAndIdlePort : Obligations.ResetInputAndIdlePort :=
  ⟨fun _ _ => step_rst, fun _ => step_idle⟩

/-! ## The reset values (R241) -/

/-- The coefficient at the time constant and the sample rate of reset. -/
theorem smCoef_default : smCoef TAU FS_DEFAULT = expF32 0xBB088889#32 := by
  obtain ⟨-, ⟨hdefault, -⟩, -⟩ := coefficientInUnitInterval
  exact hdefault

theorem positiveOrDefault_default : positiveOrDefault FS_DEFAULT = FS_DEFAULT := by decide

/-- Reset leaves both smoothers as a write of the default sample rate seeds them. -/
theorem sampleRate_default_keeps_reset :
    ∃ t, exec (.wrSampleRate FS_DEFAULT) State.reset = .next t ∧ SameElements State.reset t := by
  refine ⟨_, exec_wrSampleRate FS_DEFAULT State.reset, ?_⟩
  rw [positiveOrDefault_default]
  exact sameElements_port ..

/-- Settles O52: the reset table's values, with the coefficient that reset computes. -/
theorem resetValues : Obligations.ResetValues :=
  ⟨rfl, rfl, rfl, rfl, rfl, rfl, rfl, rfl, rfl, rfl,
    congrArg (Smoother.mk _ _ _) smCoef_default,
    congrArg (Smoother.mk _ _ _) smCoef_default,
    rfl, rmsOf_eq_foldl [], zcrOf_short (by decide), sampleRate_default_keeps_reset⟩

end Sys2Proof.Machine
end
